-- ==== Sys2Proof/Word.lean ====
section
/-! DEFINITION. The bit widths of the ODB's data: bytes (20_memory.md R62), command-port beats (30_encoding.md R75)
and coordinate fields (00_scope.md R21). -/

namespace Sys2Proof

/-- One byte: the only datum the ODB stores or moves (R62). -/
abbrev Byte := BitVec 8

/-- One beat of the command port (R75). -/
abbrev Beat := BitVec 64

/-- A coordinate or reserved field of a command word (R77). -/
abbrev Half := BitVec 16

end Sys2Proof
end

