-- ==== Sys2Proof/Config.lean ====
section
/-! DEFINITION. The numbers the hardware is built with (00_scope.md R7 to R22) and its two open parameters, which have no
body here: nothing can prove a value of them (R15, R20). Constants a later repair may have to mend stand with their use:
`iseq` and INIT_LEN in Sys2Proof/Decode.lean; CHAR_PITCH, TRUNC_LIMIT, DEV_ADDR and the prefixes in Machine/Operands.lean. -/

namespace Sys2Proof.Config

/-- WIDTH: pixel columns (R7). -/
@[simp] abbrev width : Nat := 128

/-- HEIGHT: pixel rows (R8). -/
@[simp] abbrev height : Nat := 64

/-- PAGES: strips of 8 rows (R9). -/
@[simp] abbrev pages : Nat := 8

/-- FB_BYTES: framebuffer bytes (R10). -/
@[simp] abbrev fbBytes : Nat := 1024

/-- GLYPH_W: columns of a glyph (R11). -/
@[simp] abbrev glyphW : Nat := 5

/-- GLYPH_H: rows of a glyph (R11). -/
@[simp] abbrev glyphH : Nat := 8

/-- NGLYPH: entries of the glyph table (R14). -/
@[simp] abbrev nGlyph : Nat := 52

/-- Bytes of the glyph space, NGLYPH * GLYPH_W (20_memory.md R57). -/
@[simp] abbrev glyphBytes : Nat := 260

/-- TEXT_MAX: the longest text of a DRAWTEXT, and the size of TXTBUF (R22, 10_state.md R44). -/
@[simp] abbrev textMax : Nat := 255

/-- BUS_CLK in Hz: the transport's, not the ODB's; no rule depends on it (R18). -/
def busClkHz : Nat := 100000

/-- GLYPH_ROM, an open parameter (R15): the 52 x 5 column bytes, byte (n, i) at 5n + i (20_memory.md R57). Log 3. -/
opaque glyphRom : Vector Byte glyphBytes

/-- T_STAB, an open parameter (R20): the stabilization delay in time units. Log 4. -/
opaque tStab : Nat

end Sys2Proof.Config
end

