-- ==== Sys2Proof/Machine/State.lean ====
section
/-! DEFINITION. The machine's state (10_state.md), all of it plain data; the reasons a step could stop; and the state right
after reset (70_reset_and_hazards.md R160). -/

namespace Sys2Proof.Machine

/-- A byte space of the ODB, FB (20_memory.md R56) or TXTBUF (10_state.md R44): the listed (address, byte) pairs; an unlisted
address reads as `Memory.blank`. -/
abbrev Memory := List Host.Cell

/-- What an unlisted byte reads as: the choice of log 1 and log 2, and the value CLEAR gives every byte (40_framebuffer.md R101). -/
abbrev Memory.blank : Byte := 0x00#8

/-- The canonical form: addresses strictly rising, no listed byte equal to what an unlisted address reads as. -/
abbrev Memory.wf (m : Memory) : Prop :=
  m.Pairwise (fun c d => c.1 < d.1) ∧ ∀ c ∈ m, c.2 ≠ Memory.blank

/-- Every listed address is below `n`, the size of the space. -/
abbrev Memory.within (n : Nat) (m : Memory) : Prop := ∀ c ∈ m, c.1 < n

/-- CSTATE, the controller lifecycle (10_state.md R35). -/
inductive CState where
  | uninit
  | initializing
  | ready
  | updating
  | failed
  deriving DecidableEq, Repr

/-- The result codes of ERR (60_exceptions.md R140). -/
inductive ErrCode where
  | ok
  | illegal
  | reserved
  | state
  | page
  | transport
  deriving DecidableEq, Repr

/-- PORT: what the next beat on the command port is (10_state.md R40). -/
inductive Port where
  | expectCmd
  | expectText (n : Nat)
  deriving DecidableEq, Repr

/-- OPL, the operand latch (10_state.md R41). -/
structure OpLatch where
  /-- OPC. -/
  opc : Byte
  /-- A8. -/
  a8 : Byte
  /-- X, read as signed. -/
  x : Half
  /-- Y, read as signed. -/
  y : Half
  deriving DecidableEq, Repr

/-- A bus transaction (42_sequencer.md R125). -/
inductive Tx where
  /-- Cmd(b): one command byte. -/
  | cmd (b : Byte)
  /-- Data(d_0 .. d_127): a payload. -/
  | data (ds : List Byte)
  deriving DecidableEq, Repr

/-- The transport's answer to a transaction (42_sequencer.md R126). -/
inductive Answer where
  | ok
  | fail
  deriving DecidableEq, Repr

/-- The result a log entry carries (42_sequencer.md R127). -/
inductive TxResult where
  | pending
  | ok
  | fail
  deriving DecidableEq, Repr

/-- An entry of the transaction log (42_sequencer.md R127). -/
inductive LogEntry where
  | tx (t : Tx) (r : TxResult)
  | delay (units : Nat)
  | reset
  deriving DecidableEq, Repr

/-- One agent's move (00_scope.md R26). Log 5. -/
inductive Turn where
  /-- The ODB moves. -/
  | odb
  /-- The host offers a beat, after those it already offers (30_encoding.md R75). -/
  | offer (w : Beat)
  /-- The host stops offering the beats not taken (70_reset_and_hazards.md R162: "the host still offers"). Log 6. -/
  | withdraw
  /-- The host takes one response byte (30_encoding.md R90). -/
  | take
  /-- The transport answers the outstanding transaction (42_sequencer.md R126). -/
  | answer (r : Answer)
  /-- The transport answers the `n`-th of the transactions that resets abandoned (70_reset_and_hazards.md R162). Log 21. -/
  | lateAnswer (n : Nat) (r : Answer)
  /-- The reset input is asserted. The lists are the bytes drawn for FB and TXTBUF (70_reset_and_hazards.md R160). Log 1, log 2. -/
  | assertRst (fbDraw txtDraw : List Host.Cell)
  /-- The reset input is released. -/
  | releaseRst
  deriving DecidableEq, Repr

/-- The whole state. -/
structure State where
  /-- FB, the framebuffer, 1024 bytes (R31). -/
  fb : Memory
  /-- GLYPH_ROM, the 52 x 5 column bytes, byte (n, i) at 5n + i; a parameter of the run that nothing writes (R33, R50). Log 3. -/
  glyphRom : Vector Byte Config.glyphBytes
  /-- CSTATE (R35). -/
  cstate : CState
  /-- BUSY (R37). -/
  busy : Bool
  /-- ERR (R38). -/
  err : ErrCode
  /-- PORT (R40). -/
  port : Port
  /-- OPL (R41). -/
  opl : OpLatch
  /-- The RSV bits of the DRAWTEXT whose text beats are being taken, which the dispatch checks after them (30_encoding.md R83, R87); 0 at
  all other times. Log 12. -/
  rsv : Half
  /-- CX, the cursor's column (R43). -/
  cx : Int
  /-- CY, the cursor's row (R43). -/
  cy : Int
  /-- TXTBUF, 255 bytes (R44). -/
  txtbuf : Memory
  /-- TXTLEN, 0..255 (R44). -/
  txtlen : Nat
  /-- SEQ_K, 0..28: the index of the next ISEQ byte (R45). -/
  seqK : Nat
  /-- SEQ_P, 0..8: the page being sent (R45). -/
  seqP : Nat
  /-- SEQ_PH, 0..3: the step within the page (R45). -/
  seqPh : Nat
  /-- STAB: what is left of the stabilization delay (R46). -/
  stab : Nat
  /-- T_STAB: the delay's length, a parameter of the run that nothing writes (00_scope.md R20, R50). Log 4. -/
  tStab : Nat
  /-- RSPQ: the response bytes the host has not taken, first first (R47). -/
  rspq : List Byte
  /-- TXP: the transaction the transport has not answered (R49). -/
  txp : Option Tx
  /-- The transactions that resets abandoned and the transport has not answered, oldest first (70_reset_and_hazards.md R162). Log 21. -/
  abandoned : List Tx
  /-- The reset input `rst` (70_reset_and_hazards.md R160). -/
  rst : Bool
  /-- The beats the host offers, first first; the first is `cmd_data` (30_encoding.md R75). Log 6. -/
  offered : List Beat
  /-- The agents' moves still to come, first first (00_scope.md R26). Log 5. -/
  turns : List Turn
  /-- The transaction log, oldest first: an observation, no hardware state (R48; 42_sequencer.md R127). Log 16. -/
  log : List LogEntry
  /-- The response bytes the host has taken, oldest first: an observation (30_encoding.md R90). Log 16. -/
  rspTaken : List Byte
  deriving DecidableEq, Repr

/-- Why a step could stop with a fault. Each is raised only in states that no run reaches (Safety.lean's `Inv` rules them out):
safe. Log 17. -/
inductive Fault where
  /-- TEXTBEAT's meaning, when PORT expects no text beat. Safe. -/
  | noTextExpected
  /-- PAGE_DATA's meaning, when SEQ_P is no page: framebuffer address `a` does not exist (20_memory.md R56). Safe. -/
  | fbAddress (a : Nat)
  /-- The fetch of the ODB's move, when the word does not decode in its slot: SEQ_K, SEQ_P or SEQ_PH selects no step (10_state.md
  R45). Safe. -/
  | noSuchStep
  deriving DecidableEq, Repr

/-- Why a step could refuse. No arm of `exec` uses it: every instruction has its meaning. -/
inductive Refusal where
  /-- An instruction without a meaning, rejected by name in its arm of `exec`. Safe. -/
  | notModelled (mnemonic : String)
  deriving DecidableEq, Repr

/-- What one step answers. -/
abbrev Result := Host.Outcome State Fault Refusal

/-- The machine right after reset: every element at the reset value of its rule (70_reset_and_hazards.md R160), FB and TXTBUF at
the choice of log 1 and log 2, the parameters uninterpreted (log 3, log 4), the log holding its `Reset` entry (log 16). -/
def State.reset : State where
  fb := []
  glyphRom := Config.glyphRom
  cstate := .uninit
  busy := false
  err := .ok
  port := .expectCmd
  opl := { opc := 0#8, a8 := 0#8, x := 0#16, y := 0#16 }
  rsv := 0#16
  cx := 0
  cy := 0
  txtbuf := []
  txtlen := 0
  seqK := 0
  seqP := 0
  seqPh := 0
  stab := 0
  tStab := Config.tStab
  rspq := []
  txp := none
  abandoned := []
  rst := false
  offered := []
  turns := []
  log := [.reset]
  rspTaken := []

end Sys2Proof.Machine
end

