-- ==== Sys2Proof/Machine/Flags.lean ====
section
/-! DEFINITION. STATUS and its fields (10_state.md R35 to R39; 60_exceptions.md R140), and the outputs of the command, response
and transport ports (30_encoding.md R75, R90, R94; 70_reset_and_hazards.md R160). -/

namespace Sys2Proof.Machine

/-- The 3-bit code of CSTATE (R35). -/
def cstateCode : CState → BitVec 3
  | .uninit => 0#3
  | .initializing => 1#3
  | .ready => 2#3
  | .updating => 3#3
  | .failed => 4#3

/-- The 4-bit code of ERR (R140). -/
def errCode : ErrCode → BitVec 4
  | .ok => 0#4
  | .illegal => 1#4
  | .reserved => 2#4
  | .state => 3#4
  | .page => 4#4
  | .transport => 5#4

/-- STATUS: CSTATE in bits 2:0, BUSY in bit 3, ERR in bits 7:4, zeros above (R36). -/
def status (s : State) : BitVec 16 :=
  (errCode s.err).setWidth 16 <<< 4 ||| (BitVec.ofBool s.busy).setWidth 16 <<< 3 ||| (cstateCode s.cstate).setWidth 16

/-- INITIALIZING and UPDATING occur only while an INIT or a PRESENT runs (42_sequencer.md R134). -/
def CState.running : CState → Bool
  | .initializing => true
  | .updating => true
  | .uninit => false
  | .ready => false
  | .failed => false

/-- `cmd_ready`: out of reset, and either idle or collecting text (R75). -/
def cmdReady (s : State) : Bool :=
  !s.rst && (match s.port with
    | .expectCmd => !s.busy
    | .expectText _ => true)

/-- `rsp_valid` (R90). -/
def rspValid (s : State) : Bool := !s.rst && !s.rspq.isEmpty

/-- `rsp_data`, while `rsp_valid` is 1 (R90). -/
def rspData (s : State) : Option Byte := if s.rst then none else s.rspq.head?

/-- `tx_valid`: a transaction is handed to the transport (R94). That it stays 1 until the transport's answer is the model's choice, since
R94 names no moment at which it falls (DESIGN CHOICE, log 19). -/
def txValid (s : State) : Bool := !s.rst && s.txp.isSome

end Sys2Proof.Machine
end

