-- ==== Sys2Proof/Syntax.lean ====
section
/-! DEFINITION. The instructions: one constructor for each row of spec/opcode_table.json. The eight commands (30_encoding.md
R80) and the text beat (R84) come in on the command port; the other rows are the sequencer's own steps, which INIT (R130) and
PRESENT (R131) run one after another, selected by SEQ_K or by SEQ_P and SEQ_PH (10_state.md R45). Operands are the integers
the rules compute with (00_scope.md R24); their ranges are checked in Sys2Proof/WellFormed.lean. -/

namespace Sys2Proof

/-- The ODB's instructions, with the operands of 30_encoding.md R81. -/
inductive Instr where
  /-- CLEAR: every framebuffer byte to 0 (40_framebuffer.md R101). -/
  | clear
  /-- SETPIX x, y: light one pixel (R102). -/
  | setpix (x y : Int)
  /-- PAGESLICE p: read out one page (R104). -/
  | pageslice (p : Nat)
  /-- LOOKUP c: a character's found flag and column bytes (41_raster.md R112). -/
  | lookup (c : Byte)
  /-- DRAWCHAR c, x, y: rasterize one character (R113). -/
  | drawchar (c : Byte) (x y : Int)
  /-- DRAWTEXT x, y with a text of `len` bytes, which the text beats after it carry (R117). -/
  | drawtext (len : Nat) (x y : Int)
  /-- INIT: program the controller (42_sequencer.md R130). -/
  | init
  /-- PRESENT: send the framebuffer to the controller (R131). -/
  | present
  /-- TEXTBEAT: eight text lanes (30_encoding.md R84). -/
  | textbeat (w : Beat)
  /-- ISEQ_00: INIT issues byte 0 of the initialization sequence (R128). -/
  | iseq00
  /-- ISEQ_01: INIT issues byte 1 of the initialization sequence (R128). -/
  | iseq01
  /-- ISEQ_02: INIT issues byte 2 of the initialization sequence (R128). -/
  | iseq02
  /-- ISEQ_03: INIT issues byte 3 of the initialization sequence (R128). -/
  | iseq03
  /-- ISEQ_04: INIT issues byte 4 of the initialization sequence (R128). -/
  | iseq04
  /-- ISEQ_05: INIT issues byte 5 of the initialization sequence (R128). -/
  | iseq05
  /-- ISEQ_06: INIT issues byte 6 of the initialization sequence (R128). -/
  | iseq06
  /-- ISEQ_07: INIT issues byte 7 of the initialization sequence (R128). -/
  | iseq07
  /-- ISEQ_08: INIT issues byte 8 of the initialization sequence (R128). -/
  | iseq08
  /-- ISEQ_09: INIT issues byte 9 of the initialization sequence (R128). -/
  | iseq09
  /-- ISEQ_10: INIT issues byte 10 of the initialization sequence (R128). -/
  | iseq10
  /-- ISEQ_11: INIT issues byte 11 of the initialization sequence (R128). -/
  | iseq11
  /-- ISEQ_12: INIT issues byte 12 of the initialization sequence (R128). -/
  | iseq12
  /-- ISEQ_13: INIT issues byte 13 of the initialization sequence (R128). -/
  | iseq13
  /-- ISEQ_14: INIT issues byte 14 of the initialization sequence (R128). -/
  | iseq14
  /-- ISEQ_15: INIT issues byte 15 of the initialization sequence (R128). -/
  | iseq15
  /-- ISEQ_16: INIT issues byte 16 of the initialization sequence (R128). -/
  | iseq16
  /-- ISEQ_17: INIT issues byte 17 of the initialization sequence (R128). -/
  | iseq17
  /-- ISEQ_18: INIT issues byte 18 of the initialization sequence (R128). -/
  | iseq18
  /-- ISEQ_19: INIT issues byte 19 of the initialization sequence (R128). -/
  | iseq19
  /-- ISEQ_20: INIT issues byte 20 of the initialization sequence (R128). -/
  | iseq20
  /-- ISEQ_21: INIT issues byte 21 of the initialization sequence (R128). -/
  | iseq21
  /-- ISEQ_22: INIT issues byte 22 of the initialization sequence (R128). -/
  | iseq22
  /-- ISEQ_23: INIT issues byte 23 of the initialization sequence (R128). -/
  | iseq23
  /-- ISEQ_24: INIT issues byte 24 of the initialization sequence (R128). -/
  | iseq24
  /-- ISEQ_25: INIT issues byte 25 of the initialization sequence (R128). -/
  | iseq25
  /-- ISEQ_26: INIT issues byte 26 of the initialization sequence (R128). -/
  | iseq26
  /-- ISEQ_27: INIT issues byte 27 of the initialization sequence (R128). -/
  | iseq27
  /-- PAGE_SEL: PRESENT issues the page-select byte 0xB0 + p, phase 0 of page p (R132). -/
  | pageSel (p : Nat)
  /-- COL_LO0: PRESENT issues 0x00, phase 1 (R132). -/
  | colLo0
  /-- COL_HI0: PRESENT issues 0x10, phase 2 (R132). -/
  | colHi0
  /-- PAGE_DATA: PRESENT issues the page's data transaction, phase 3 (R132). -/
  | pageData
  deriving DecidableEq, Repr

end Sys2Proof
end

