-- ==== Sys2Proof/WellFormed.lean ====
section
/-! DEFINITION. Which instructions are well formed: their operands fit the fields of 30_encoding.md R77 to R79 and R93. -/

namespace Sys2Proof

/-- A coordinate fits a 16-bit two's complement field (00_scope.md R21). -/
abbrev coordOk (v : Int) : Prop := -32768 ≤ v ∧ v ≤ 32767

/-- A page number or text length fits the 8-bit field A8 (30_encoding.md R79). -/
abbrev fieldA8Ok (n : Nat) : Prop := n ≤ 255

/-- A page-select step's page is one of the eight pages (30_encoding.md R93). -/
abbrev pageOk (p : Nat) : Prop := p < Config.pages

/-- Every operand of the instruction fits its field. -/
def Instr.wellFormed : Instr → Bool
  | .setpix x y => coordOk x ∧ coordOk y
  | .drawchar _ x y => coordOk x ∧ coordOk y
  | .drawtext len x y => fieldA8Ok len ∧ coordOk x ∧ coordOk y
  | .pageslice p => fieldA8Ok p
  | .pageSel p => pageOk p
  | .clear | .lookup _ | .init | .present | .textbeat _ => true
  | .iseq00 | .iseq01 | .iseq02 | .iseq03 | .iseq04 | .iseq05 | .iseq06 => true
  | .iseq07 | .iseq08 | .iseq09 | .iseq10 | .iseq11 | .iseq12 | .iseq13 => true
  | .iseq14 | .iseq15 | .iseq16 | .iseq17 | .iseq18 | .iseq19 | .iseq20 => true
  | .iseq21 | .iseq22 | .iseq23 | .iseq24 | .iseq25 | .iseq26 | .iseq27 => true
  | .colLo0 | .colHi0 | .pageData => true

end Sys2Proof
end

