-- ==== Sys2Proof/Decode.lean ====
section
/-! DEFINITION. Decoding and encoding (30_encoding.md). What a word means depends on where it stands (R76): a 64-bit beat is a
command word or a text beat by PORT alone, a bus byte is the step SEQ_K or SEQ_P and SEQ_PH select. `Slot` says where it stands.
`decode` is total and rejects by name; `encode` is written from the same tables. -/

namespace Sys2Proof

/-- Where a word stands: the next beat in EXPECT_CMD or in EXPECT_TEXT (30_encoding.md R76), byte `k` of ISEQ during INIT
(42_sequencer.md R130), or step `ph` of the page being sent during PRESENT (R131). -/
inductive Slot where
  | command
  | text
  | initSeq (k : Nat)
  | page (ph : Nat)
  deriving DecidableEq, Repr

/-- The two sizes of word: a beat of the command port, and the first byte that names a sequencer step. -/
inductive Code where
  | beat (w : Beat)
  | byte (b : Byte)
  deriving DecidableEq, Repr

/-- Why a word is no instruction where it stands. The dispatch turns the first two into E_ILLEGAL and E_RESERVED (60_exceptions.md
R141, R142); the other three concern words that stand in no slot of that kind. -/
inductive Reject where
  /-- The opcode is not one of the eight (30_encoding.md R82). -/
  | illegalOpcode
  /-- A reserved or unused field is nonzero (R81). -/
  | reservedField
  /-- A byte where a beat stands, or a beat where a byte stands. -/
  | wrongSize
  /-- Not the byte the sequencer issues at this step (R92). -/
  | wrongByte
  /-- The sequencer has no such step (10_state.md R45). -/
  | noSuchStep
  deriving DecidableEq, Repr

/-- What decoding answers. -/
inductive Decoded where
  | instr (i : Instr)
  | reject (r : Reject)
  deriving DecidableEq, Repr

/-! ### Fields of a command word (R77, R78) -/

/-- OPC, bits 63:56. -/
def fieldOpc (w : Beat) : Byte := w.extractLsb' 56 8
/-- A8, bits 55:48. -/
def fieldA8 (w : Beat) : Byte := w.extractLsb' 48 8
/-- RSV, bits 47:32. -/
def fieldRsv (w : Beat) : Half := w.extractLsb' 32 16
/-- X, bits 31:16. -/
def fieldX (w : Beat) : Half := w.extractLsb' 16 16
/-- Y, bits 15:0. -/
def fieldY (w : Beat) : Half := w.extractLsb' 0 16

/-- sext_16: the integer whose 16-bit two's complement form is `v` (00_scope.md R24). -/
def sext16 (v : Half) : Int := v.toInt

/-! ### Opcodes, matches and masks (R80, R81) -/

/-- The eight legal opcodes. -/
inductive Opcode where
  | clear | setpix | pageslice | lookup | drawchar | drawtext | init | present
  deriving DecidableEq, Repr

/-- The opcode map of R80; every other value is illegal (R82). -/
def opcodeOf (b : Byte) : Option Opcode :=
  match b.toNat with
  | 0x01 => some .clear
  | 0x02 => some .setpix
  | 0x03 => some .pageslice
  | 0x04 => some .lookup
  | 0x05 => some .drawchar
  | 0x06 => some .drawtext
  | 0x10 => some .init
  | 0x11 => some .present
  | _ => none

/-- The value of OPC (R80). -/
def opcodeByte : Opcode → Byte
  | .clear => 0x01#8
  | .setpix => 0x02#8
  | .pageslice => 0x03#8
  | .lookup => 0x04#8
  | .drawchar => 0x05#8
  | .drawtext => 0x06#8
  | .init => 0x10#8
  | .present => 0x11#8

/-- The match column of R81. -/
def patternOf : Opcode → Beat
  | .clear => 0x0100000000000000#64
  | .setpix => 0x0200000000000000#64
  | .pageslice => 0x0300000000000000#64
  | .lookup => 0x0400000000000000#64
  | .drawchar => 0x0500000000000000#64
  | .drawtext => 0x0600000000000000#64
  | .init => 0x1000000000000000#64
  | .present => 0x1100000000000000#64

/-- The mask column of R81. -/
def maskOf : Opcode → Beat
  | .clear => 0xFFFFFFFFFFFFFFFF#64
  | .setpix => 0xFFFFFFFF00000000#64
  | .pageslice => 0xFF00FFFFFFFFFFFF#64
  | .lookup => 0xFF00FFFFFFFFFFFF#64
  | .drawchar => 0xFF00FFFF00000000#64
  | .drawtext => 0xFF00FFFF00000000#64
  | .init => 0xFFFFFFFFFFFFFFFF#64
  | .present => 0xFFFFFFFFFFFFFFFF#64

/-- The instruction of a legal word, with its operands (R79, R81). -/
def buildCommand (o : Opcode) (w : Beat) : Instr :=
  match o with
  | .clear => .clear
  | .setpix => .setpix (sext16 (fieldX w)) (sext16 (fieldY w))
  | .pageslice => .pageslice (fieldA8 w).toNat
  | .lookup => .lookup (fieldA8 w)
  | .drawchar => .drawchar (fieldA8 w) (sext16 (fieldX w)) (sext16 (fieldY w))
  | .drawtext => .drawtext (fieldA8 w).toNat (sext16 (fieldX w)) (sext16 (fieldY w))
  | .init => .init
  | .present => .present

/-- Decoding a command word: the opcode first, then the reserved and unused fields (R81, R82; 60_exceptions.md R147). -/
def decodeCommand (w : Beat) : Decoded :=
  match opcodeOf (fieldOpc w) with
  | none => .reject .illegalOpcode
  | some o => if w &&& maskOf o = patternOf o then .instr (buildCommand o w) else .reject .reservedField

/-- The number of text beats that follow a DRAWTEXT of `len` bytes (R83). -/
def textBeats (len : Nat) : Nat := (len + 7) / 8

/-- The number of beats of a command, from its first beat alone (R85). -/
def beatCount (w : Beat) : Nat :=
  if fieldOpc w = 0x06#8 then 1 + textBeats (fieldA8 w).toNat else 1

/-! ### The sequencer's bytes -/

/-- ISEQ: the 28 command bytes of the initialization sequence, in order (42_sequencer.md R128). -/
def iseq : List Byte :=
  [0xAE#8, 0x20#8, 0x00#8, 0xB0#8, 0xC8#8, 0x00#8, 0x10#8] ++
  [0x40#8, 0x81#8, 0xFF#8, 0xA1#8, 0xA6#8, 0xA8#8, 0x3F#8] ++
  [0xA4#8, 0xD3#8, 0x00#8, 0xD5#8, 0xF0#8, 0xD9#8, 0x22#8] ++
  [0xDA#8, 0x12#8, 0xDB#8, 0x20#8, 0x8D#8, 0x14#8, 0xAF#8]

/-- INIT_LEN (00_scope.md R19). -/
def initLen : Nat := 28

/-- ISEQ[k] (20_memory.md R58); the value past the end is never used. -/
def iseqAt (k : Nat) : Byte := iseq.getD k 0#8

/-- The step that INIT runs at SEQ_K = k (42_sequencer.md R130). -/
def iseqInstr (k : Nat) : Option Instr :=
  match k with
  | 0 => some .iseq00
  | 1 => some .iseq01
  | 2 => some .iseq02
  | 3 => some .iseq03
  | 4 => some .iseq04
  | 5 => some .iseq05
  | 6 => some .iseq06
  | 7 => some .iseq07
  | 8 => some .iseq08
  | 9 => some .iseq09
  | 10 => some .iseq10
  | 11 => some .iseq11
  | 12 => some .iseq12
  | 13 => some .iseq13
  | 14 => some .iseq14
  | 15 => some .iseq15
  | 16 => some .iseq16
  | 17 => some .iseq17
  | 18 => some .iseq18
  | 19 => some .iseq19
  | 20 => some .iseq20
  | 21 => some .iseq21
  | 22 => some .iseq22
  | 23 => some .iseq23
  | 24 => some .iseq24
  | 25 => some .iseq25
  | 26 => some .iseq26
  | 27 => some .iseq27
  | _ => none

/-- The first byte of a page-select triple, 0xB0 + P (30_encoding.md R93). -/
def pageSelByte (p : Nat) : Byte := BitVec.ofNat 8 (0xB0 + p)

/-- The byte that names the step PRESENT runs in page `p` at SEQ_PH = ph: the three command bytes of R132, then the prefix of
the data transaction (R91). -/
def pageByte (p ph : Nat) : Byte :=
  match ph with
  | 0 => pageSelByte p
  | 1 => 0x00#8
  | 2 => 0x10#8
  | _ => 0x40#8

/-- Decoding a byte of ISEQ at index `k`. -/
def decodeInit (k : Nat) (b : Byte) : Decoded :=
  match iseqInstr k with
  | none => .reject .noSuchStep
  | some i => if b = iseqAt k then .instr i else .reject .wrongByte

/-- Decoding the byte that names step `ph` of a page (30_encoding.md R91 to R93). -/
def decodePage (ph : Nat) (b : Byte) : Decoded :=
  match ph with
  | 0 => if b &&& 0xF8#8 = 0xB0#8 then .instr (.pageSel (b &&& 0x07#8).toNat) else .reject .wrongByte
  | 1 => if b = 0x00#8 then .instr .colLo0 else .reject .wrongByte
  | 2 => if b = 0x10#8 then .instr .colHi0 else .reject .wrongByte
  | 3 => if b = 0x40#8 then .instr .pageData else .reject .wrongByte
  | _ => .reject .noSuchStep

/-- The decoder: total on every word in every slot. -/
def decode (sl : Slot) (c : Code) : Decoded :=
  match sl, c with
  | .command, .beat w => decodeCommand w
  | .text, .beat w => .instr (.textbeat w)
  | .initSeq k, .byte b => decodeInit k b
  | .page ph, .byte b => decodePage ph b
  | _, _ => .reject .wrongSize

/-! ### The encoder -/

/-- A command word from its fields (R77). -/
def commandWord (opc a8 : Byte) (x y : Half) : Beat :=
  ((opc.setWidth 64) <<< 56) ||| ((a8.setWidth 64) <<< 48) ||| ((x.setWidth 64) <<< 16) ||| (y.setWidth 64)

/-- The 16-bit field of a coordinate (R78). -/
def coordField (v : Int) : Half := BitVec.ofInt 16 v

/-- The word of an instruction (R81, R84, R128, R132). -/
def encode : Instr → Code
  | .clear => .beat (commandWord (opcodeByte .clear) 0#8 0#16 0#16)
  | .setpix x y => .beat (commandWord (opcodeByte .setpix) 0#8 (coordField x) (coordField y))
  | .pageslice p => .beat (commandWord (opcodeByte .pageslice) (BitVec.ofNat 8 p) 0#16 0#16)
  | .lookup c => .beat (commandWord (opcodeByte .lookup) c 0#16 0#16)
  | .drawchar c x y => .beat (commandWord (opcodeByte .drawchar) c (coordField x) (coordField y))
  | .drawtext len x y =>
      .beat (commandWord (opcodeByte .drawtext) (BitVec.ofNat 8 len) (coordField x) (coordField y))
  | .init => .beat (commandWord (opcodeByte .init) 0#8 0#16 0#16)
  | .present => .beat (commandWord (opcodeByte .present) 0#8 0#16 0#16)
  | .textbeat w => .beat w
  | .iseq00 => .byte (iseqAt 0)
  | .iseq01 => .byte (iseqAt 1)
  | .iseq02 => .byte (iseqAt 2)
  | .iseq03 => .byte (iseqAt 3)
  | .iseq04 => .byte (iseqAt 4)
  | .iseq05 => .byte (iseqAt 5)
  | .iseq06 => .byte (iseqAt 6)
  | .iseq07 => .byte (iseqAt 7)
  | .iseq08 => .byte (iseqAt 8)
  | .iseq09 => .byte (iseqAt 9)
  | .iseq10 => .byte (iseqAt 10)
  | .iseq11 => .byte (iseqAt 11)
  | .iseq12 => .byte (iseqAt 12)
  | .iseq13 => .byte (iseqAt 13)
  | .iseq14 => .byte (iseqAt 14)
  | .iseq15 => .byte (iseqAt 15)
  | .iseq16 => .byte (iseqAt 16)
  | .iseq17 => .byte (iseqAt 17)
  | .iseq18 => .byte (iseqAt 18)
  | .iseq19 => .byte (iseqAt 19)
  | .iseq20 => .byte (iseqAt 20)
  | .iseq21 => .byte (iseqAt 21)
  | .iseq22 => .byte (iseqAt 22)
  | .iseq23 => .byte (iseqAt 23)
  | .iseq24 => .byte (iseqAt 24)
  | .iseq25 => .byte (iseqAt 25)
  | .iseq26 => .byte (iseqAt 26)
  | .iseq27 => .byte (iseqAt 27)
  | .pageSel p => .byte (pageSelByte p)
  | .colLo0 => .byte 0x00#8
  | .colHi0 => .byte 0x10#8
  | .pageData => .byte 0x40#8

/-- Where an instruction's word stands. -/
def slotOf : Instr → Slot
  | .clear => .command
  | .setpix _ _ => .command
  | .pageslice _ => .command
  | .lookup _ => .command
  | .drawchar _ _ _ => .command
  | .drawtext _ _ _ => .command
  | .init => .command
  | .present => .command
  | .textbeat _ => .text
  | .iseq00 => .initSeq 0
  | .iseq01 => .initSeq 1
  | .iseq02 => .initSeq 2
  | .iseq03 => .initSeq 3
  | .iseq04 => .initSeq 4
  | .iseq05 => .initSeq 5
  | .iseq06 => .initSeq 6
  | .iseq07 => .initSeq 7
  | .iseq08 => .initSeq 8
  | .iseq09 => .initSeq 9
  | .iseq10 => .initSeq 10
  | .iseq11 => .initSeq 11
  | .iseq12 => .initSeq 12
  | .iseq13 => .initSeq 13
  | .iseq14 => .initSeq 14
  | .iseq15 => .initSeq 15
  | .iseq16 => .initSeq 16
  | .iseq17 => .initSeq 17
  | .iseq18 => .initSeq 18
  | .iseq19 => .initSeq 19
  | .iseq20 => .initSeq 20
  | .iseq21 => .initSeq 21
  | .iseq22 => .initSeq 22
  | .iseq23 => .initSeq 23
  | .iseq24 => .initSeq 24
  | .iseq25 => .initSeq 25
  | .iseq26 => .initSeq 26
  | .iseq27 => .initSeq 27
  | .pageSel _ => .page 0
  | .colLo0 => .page 1
  | .colHi0 => .page 2
  | .pageData => .page 3

/-! ### Words as spec/opcode_table.json numbers them (log 13) -/

/-- The first step of the given slots that the byte names. -/
def firstStep (b : Byte) : List Slot → Option (Slot × Instr)
  | [] => none
  | sl :: sls =>
    match decode sl (.byte b) with
    | .instr i => some (sl, i)
    | .reject _ => firstStep b sls

/-- The slots of the table's bus rows, in the table's order. -/
def busSlots : List Slot := (List.range initLen).map .initSeq ++ (List.range 4).map .page

/-- Where a table word stands and what it is there: a 64-bit word is a command where a command row matches it and else a text
beat (whose row matches every word); a byte is the first bus row that matches it. Log 13. -/
def readTableWord (nbits w : Nat) : Option (Slot × Instr) :=
  if nbits = 64 then
    match decode .command (.beat (BitVec.ofNat 64 w)) with
    | .instr i => some (.command, i)
    | .reject _ => some (.text, .textbeat (BitVec.ofNat 64 w))
  else if nbits = 8 then firstStep (BitVec.ofNat 8 w) busSlots
  else none

/-- The instruction the decoder reads from a word numbered as spec/opcode_table.json numbers it. Log 13. -/
def decodeTableWord (nbits w : Nat) : Option Instr := (readTableWord nbits w).map Prod.snd

end Sys2Proof
end

