-- ==== Sys2Proof/Machine/Operands.lean ====
section
/-! DEFINITION. The operand arithmetic: which byte and bit a pixel is (20_memory.md R59, R60), which glyph a character selects
(41_raster.md R110), the lanes of a text beat (30_encoding.md R84), and the frames of a transaction (R91). -/

namespace Sys2Proof.Machine

/-- CHAR_PITCH, the cursor's advance per character (00_scope.md R12). -/
def charPitch : Int := 6

/-- TRUNC_LIMIT, the starting column at which DRAWTEXT stops (00_scope.md R13; 90_conflicts.md C1). -/
def truncLimit : Int := 122

/-- DEV_ADDR, the 7-bit bus address (00_scope.md R16). -/
def devAddr : BitVec 7 := 0x3C#7

/-- PFX_CMD (00_scope.md R17). -/
def pfxCmd : Byte := 0x00#8

/-- PFX_DATA (00_scope.md R17). -/
def pfxData : Byte := 0x40#8

/-! ### Pixels -/

/-- The pixel (x, y) is on the display (40_framebuffer.md R102). -/
abbrev onDisplay (x y : Int) : Prop := 0 ≤ x ∧ x < Config.width ∧ 0 ≤ y ∧ y < Config.height

/-- The byte of an on-display pixel: x + (y div 8) * WIDTH (20_memory.md R59). -/
def pixelAddr (x y : Int) : Nat := x.toNat + (y.toNat / 8) * Config.width

/-- The bit of an on-display pixel: y mod 8 (20_memory.md R59). -/
def pixelBit (y : Int) : Nat := y.toNat % 8

/-- The one-bit mask of bit `k` (00_scope.md R23). -/
def bitMask (k : Nat) : Byte := 1#8 <<< k

/-! ### Glyphs -/

/-- The glyph of a character: 'A'..'Z' to 0..25, 'a'..'z' to 26..51, nothing for any other byte (41_raster.md R110). -/
def glyphIndex (c : Byte) : Option (Fin Config.nGlyph) :=
  if h : 0x41 ≤ c.toNat ∧ c.toNat ≤ 0x5A then some ⟨c.toNat - 0x41, by simp; omega⟩
  else if h : 0x61 ≤ c.toNat ∧ c.toNat ≤ 0x7A then some ⟨c.toNat - 0x61 + 26, by simp; omega⟩
  else none

/-- GROM(n, i): column byte `i` of glyph `n` (20_memory.md R57). -/
def grom (rom : Vector Byte Config.glyphBytes) (n : Fin Config.nGlyph) (i : Fin Config.glyphW) : Byte :=
  rom[5 * n.val + i.val]'(by have := n.isLt; have := i.isLt; simp at *; omega)

/-- The columns of a glyph, left to right (41_raster.md R113). -/
def glyphCols : List (Fin Config.glyphW) := [0, 1, 2, 3, 4]

/-- The rows of a glyph, top to bottom (41_raster.md R113). -/
def glyphRows : List Nat := [0, 1, 2, 3, 4, 5, 6, 7]

/-! ### Text beats -/

/-- The eight lanes of a beat. -/
def laneIndices : List Nat := [0, 1, 2, 3, 4, 5, 6, 7]

/-- Lane `l` of a text beat: bits 8l+7 : 8l (30_encoding.md R84). -/
def lane (w : Beat) (l : Nat) : Byte := w.extractLsb' (8 * l) 8

/-! ### Frames -/

/-- The bytes handed to the transport for a transaction: the prefix, then the payload (30_encoding.md R91, R94). -/
def txFrame : Tx → List Byte
  | .cmd b => [pfxCmd, b]
  | .data ds => pfxData :: ds

/-- `tx_addr`: every transaction goes to DEV_ADDR (30_encoding.md R91). -/
def txAddr (_ : Tx) : BitVec 7 := devAddr

/-- The result a log entry gets from the transport's answer (42_sequencer.md R125). -/
def answerResult : Answer → TxResult
  | .ok => .ok
  | .fail => .fail

end Sys2Proof.Machine
end

