-- ==== Sys2Proof/Machine/Ops.lean ====
section
/-! DEFINITION. The operations the meanings share: the byte spaces, SetPixel and the glyph and text drawing over it, ending and
failing an operation (60_exceptions.md R148), the response stream, the bus (42_sequencer.md R125), the delay (R129), the
acceptance of a command word (30_encoding.md R87) and reset (70_reset_and_hazards.md R160). -/

namespace Sys2Proof.Machine

/-! ### The byte spaces -/

/-- The byte at an address. -/
def Memory.read : Memory → Nat → Byte
  | [], _ => Memory.blank
  | (a, b) :: m, x => if a = x then b else Memory.read m x

/-- The memory with one byte replaced, in canonical form. -/
def Memory.write : Memory → Nat → Byte → Memory
  | [], x, v => if v = Memory.blank then [] else [(x, v)]
  | (a, b) :: m, x, v =>
    if x < a then (if v = Memory.blank then (a, b) :: m else (x, v) :: (a, b) :: m)
    else if x = a then (if v = Memory.blank then m else (x, v) :: m)
    else (a, b) :: Memory.write m x v

/-- The memory whose every byte is 0x00. -/
def Memory.zero : Memory := []

/-- The `len` bytes from `base` on, in increasing address order: MemRead (00_scope.md R25). -/
def Memory.readRange (m : Memory) (base len : Nat) : List Byte := (List.range len).map (fun c => m.read (base + c))

/-- The memory of `n` bytes that holds the listed bytes and 0x00 elsewhere; a cell past the end is ignored. -/
def Memory.ofCells (n : Nat) (cells : List Host.Cell) : Memory :=
  cells.foldl (fun m c => if c.1 < n then m.write c.1 c.2 else m) Memory.zero

/-! ### Framebuffer (40_framebuffer.md) -/

/-- SetPixel(x, y): OR one bit into one byte, if the pixel is on the display (R102). -/
def setPixel (x y : Int) (m : Memory) : Memory :=
  if onDisplay x y then m.write (pixelAddr x y) (m.read (pixelAddr x y) ||| bitMask (pixelBit y)) else m

/-- Pixel(x, y): the unpacked view; it has no value off the display (20_memory.md R60). -/
def pixel (m : Memory) (x y : Nat) : Option Bool :=
  if x < Config.width ∧ y < Config.height then some ((m.read (x + (y / 8) * Config.width)).getLsbD (y % 8)) else none

/-- The page slice: the 128 bytes of page `p` in column order (20_memory.md R61); no other page exists. -/
def pageSlice (p : Nat) (m : Memory) : Option (List Byte) :=
  if p < Config.pages then some (m.readRange (Config.width * p) Config.width) else none

/-! ### Rasterizer (41_raster.md) -/

/-- Draw the lit rows of one column byte at column `x`, from row `y` down (R113). -/
def drawColumn (col : Byte) (x y : Int) (m : Memory) : Memory :=
  glyphRows.foldl (fun m j => if col.getLsbD j then setPixel x (y + j) m else m) m

/-- Draw glyph `n` with its top left corner at (x, y) (R113). -/
def drawGlyph (rom : Vector Byte Config.glyphBytes) (n : Fin Config.nGlyph) (x y : Int) (m : Memory) : Memory :=
  glyphCols.foldl (fun m i => drawColumn (grom rom n i) (x + i.val) y m) m

/-- DrawChar(c, x, y): an unsupported character draws nothing (R113). -/
def drawChar (rom : Vector Byte Config.glyphBytes) (c : Byte) (x y : Int) (m : Memory) : Memory :=
  match glyphIndex c with
  | none => m
  | some n => drawGlyph rom n x y m

/-- The loop of DRAWTEXT over the text still to draw: the cursor's last column and the framebuffer (R117). -/
def drawText (rom : Vector Byte Config.glyphBytes) : List Byte → Int → Int → Memory → Int × Memory
  | [], x, _, m => (x, m)
  | c :: cs, x, y, m =>
    if c = 0x00#8 then (x, m)
    else if truncLimit ≤ x then (x, m)
    else drawText rom cs (x + charPitch) y (drawChar rom c x y m)

/-! ### Ending an operation -/

/-- The end of the dispatch: ERR <- E; BUSY <- 0; PORT <- EXPECT_CMD (30_encoding.md R87). -/
def finish (e : ErrCode) (s : State) : State := { s with err := e, busy := false, port := .expectCmd }

/-- Error entry, the ODB's whole exception mechanism: the operation ends with its code, and E_TRANSPORT sets CSTATE to FAILED
(60_exceptions.md R148). Nothing returns from it (R149). -/
def raise (e : ErrCode) (s : State) : State :=
  finish e { s with cstate := if e = .transport then .failed else s.cstate }

/-! ### The response stream -/

/-- Emit each of the bytes: they join RSPQ (30_encoding.md R90). Log 10. -/
def emit (bs : List Byte) (s : State) : State := { s with rspq := s.rspq ++ bs }

/-- The host takes the first response byte, if there is one (30_encoding.md R90). -/
def takeResponse (s : State) : State :=
  match s.rspq with
  | [] => s
  | b :: bs => { s with rspq := bs, rspTaken := s.rspTaken ++ [b] }

/-! ### The bus -/

/-- BusIssue(t) up to its wait: TXP <- t, and a Pending entry joins the log (42_sequencer.md R125). -/
def busIssue (t : Tx) (s : State) : State := { s with txp := some t, log := s.log ++ [.tx t .pending] }

/-- A transaction's log entry with its result set; the other entries have none. -/
def settleEntry (r : TxResult) : LogEntry → LogEntry
  | .tx t _ => .tx t r
  | .delay units => .delay units
  | .reset => .reset

/-- The log with the result of its last entry set (42_sequencer.md R125). -/
def settleLast (r : TxResult) : List LogEntry → List LogEntry
  | [] => []
  | [e] => [settleEntry r e]
  | e :: e' :: es => e :: settleLast r (e' :: es)

/-- After an Ok: the counters take the values of the loop's next turn, and after the last transaction, which leaves them as they are,
CSTATE <- READY and the operation ends with E_OK (42_sequencer.md R130, R131). Log 8. -/
def advance (s : State) : State :=
  match s.cstate with
  | .initializing =>
    if s.seqK + 1 < initLen then { s with seqK := s.seqK + 1 }
    else finish .ok { s with cstate := .ready }
  | .updating =>
    if s.seqPh < 3 then { s with seqPh := s.seqPh + 1 }
    else if s.seqP + 1 < Config.pages then { s with seqP := s.seqP + 1, seqPh := 0 }
    else finish .ok { s with cstate := .ready }
  | .uninit => s
  | .ready => s
  | .failed => s

/-- The transport's answer, and the stretch after it up to the next transaction: the log entry gets its result, TXP <- none, and
the operation goes on after Ok or ends with E_TRANSPORT after Fail (42_sequencer.md R125, R133). With nothing outstanding there is
nothing to answer (log 5). Log 7. -/
def busAnswer (r : Answer) (s : State) : State :=
  match s.txp with
  | none => s
  | some _ =>
    match r with
    | .ok => advance { s with txp := none, log := settleLast (answerResult .ok) s.log }
    | .fail => raise .transport { s with txp := none, log := settleLast (answerResult .fail) s.log }

/-! ### The stabilization delay (42_sequencer.md R129). Log 9. -/

/-- Delay(T) begins: STAB <- T. A delay of 0 is over at once: it is logged, and INIT's loop begins with SEQ_K <- 0 (R130). -/
def startDelay (s : State) : State :=
  { s with
    stab := s.tStab
    seqK := if s.tStab = 0 then 0 else s.seqK
    log := if s.tStab = 0 then s.log ++ [.delay s.tStab] else s.log }

/-- One time unit passes. When it was the last, the delay is logged, and INIT's loop begins with SEQ_K <- 0 (R130). -/
def delayTick (s : State) : State :=
  { s with
    stab := s.stab - 1
    seqK := if s.stab = 1 then 0 else s.seqK
    log := if s.stab = 1 then s.log ++ [.delay s.tStab] else s.log }

/-! ### Text -/

/-- The text collected: TXTBUF[0 .. TXTLEN-1] (41_raster.md R117). -/
def collectedText (s : State) : List Byte := s.txtbuf.readRange 0 s.txtlen

/-- Text beat number `b`: each lane below the text's length goes to its byte of TXTBUF (30_encoding.md R84, R87). -/
def storeLanes (b : Nat) (w : Beat) (len : Nat) (m : Memory) : Memory :=
  laneIndices.foldl (fun m l => if 8 * b + l < len then m.write (8 * b + l) (lane w l) else m) m

/-- DRAWTEXT's execution, its text collected: CX, CY, the loop, and the end with E_OK (41_raster.md R117). -/
def layoutText (x y : Int) (s : State) : State :=
  finish .ok { s with
    cx := (drawText s.glyphRom (collectedText s) x y s.fb).1
    cy := y
    fb := (drawText s.glyphRom (collectedText s) x y s.fb).2 }

/-- What follows the last text beat: the check of RSV, then the execution (30_encoding.md R83, R87). -/
def endText (s : State) : State :=
  if s.rsv = 0#16 then layoutText (sext16 s.opl.x) (sext16 s.opl.y) s else raise .reserved { s with rsv := 0#16 }

/-- A DRAWTEXT of `len` bytes begins: TXTLEN <- len, and PORT expects its text beats; with none, what follows the last text beat
happens at once (30_encoding.md R83, R87). -/
def beginText (len : Nat) (s : State) : State :=
  if textBeats len = 0 then endText { s with txtlen := len }
  else { s with txtlen := len, port := .expectText (textBeats len) }

/-! ### Accepting a command word -/

/-- A command word's fields, as the dispatch latches them (30_encoding.md R87). -/
def wordLatch (w : Beat) : OpLatch := { opc := fieldOpc w, a8 := fieldA8 w, x := fieldX w, y := fieldY w }

/-- The dispatch's first steps for a word that is executed: BUSY <- 1, and its fields are latched (30_encoding.md R87; 10_state.md R41).
A rejected word is not executed and changes no state but ERR (60_exceptions.md R141, R142). Log 11. -/
def accept (w : Beat) (s : State) : State := { s with busy := true, opl := wordLatch w }

/-- A word with a legal opcode and a nonzero reserved or unused field: a DRAWTEXT first takes its text beats, any other ends at once
(30_encoding.md R83, R87); no other state but ERR changes (60_exceptions.md R142). Log 11, log 12. -/
def rejectReserved (w : Beat) (s : State) : State :=
  if fieldOpc w = opcodeByte .drawtext then beginText (fieldA8 w).toNat { s with busy := true, rsv := fieldRsv w }
  else raise .reserved s

/-! ### Reset -/

/-- The transport answers a transaction that a reset abandoned: the ODB ignores the answer (70_reset_and_hazards.md R162). Log 21. -/
def answerAbandoned (n : Nat) (s : State) : State := { s with abandoned := s.abandoned.eraseIdx n }

/-- Reset is asserted: every element takes its reset value, FB and TXTBUF the bytes drawn; a transaction outstanding is abandoned; the
parameters, the host's offers, the turns to come and the observations are outside the reset, and the log gains `Reset`
(70_reset_and_hazards.md R160, R162). Log 15, log 21. -/
def applyReset (fbDraw txtDraw : List Host.Cell) (s : State) : State :=
  { State.reset with
    fb := Memory.ofCells Config.fbBytes fbDraw
    txtbuf := Memory.ofCells Config.textMax txtDraw
    glyphRom := s.glyphRom
    tStab := s.tStab
    abandoned := s.abandoned ++ s.txp.toList
    rst := true
    offered := s.offered
    turns := s.turns
    log := s.log ++ [.reset]
    rspTaken := s.rspTaken }

end Sys2Proof.Machine
end

