-- ==== Sys2Proof/Machine/Framebuffer.lean ====
section
/-! DEFINITION. The framebuffer unit's commands (40_framebuffer.md). -/

namespace Sys2Proof.Machine

/-- CLEAR: every byte to 0 (R101). -/
def execClear (s : State) : Result := .next (finish .ok { s with fb := Memory.zero })

/-- SETPIX x, y: light the pixel if it is on the display; never an error (R102). -/
def execSetpix (x y : Int) (s : State) : Result := .next (finish .ok { s with fb := setPixel x y s.fb })

/-- PAGESLICE p: E_PAGE for a page the display lacks; else the page's 128 bytes join the response stream, and the operation goes on
until the host has taken them (R104; 30_encoding.md R88, R90). -/
def execPageslice (p : Nat) (s : State) : Result :=
  match pageSlice p s.fb with
  | none => .next (raise .page s)
  | some bs => .next (emit bs s)

end Sys2Proof.Machine
end

