-- ==== Sys2Proof/Machine/Raster.lean ====
section
/-! DEFINITION. The rasterizer's commands (41_raster.md) and the text beats of DRAWTEXT (30_encoding.md R83, R84). -/

namespace Sys2Proof.Machine

/-- LOOKUP's response: the found flag and the five column bytes, or six zeros (30_encoding.md R89). -/
def lookupResponse (rom : Vector Byte Config.glyphBytes) (c : Byte) : List Byte :=
  match glyphIndex c with
  | some n => 0x01#8 :: glyphCols.map (grom rom n)
  | none => 0x00#8 :: glyphCols.map (fun _ => 0x00#8)

/-- LOOKUP c: its response joins the response stream, and the operation goes on until the host has taken it (R112). -/
def execLookup (c : Byte) (s : State) : Result := .next (emit (lookupResponse s.glyphRom c) s)

/-- DRAWCHAR c, x, y (R113). -/
def execDrawchar (c : Byte) (x y : Int) (s : State) : Result :=
  .next (finish .ok { s with fb := drawChar s.glyphRom c x y s.fb })

/-- DRAWTEXT's operands in the latch, where the execution after the last text beat reads them (30_encoding.md R87). Log 12. -/
def latchText (len : Nat) (x y : Int) (s : State) : State :=
  { s with
    opl := { opc := opcodeByte .drawtext, a8 := BitVec.ofNat 8 len, x := coordField x, y := coordField y }
    rsv := 0#16 }

/-- DRAWTEXT x, y: it collects its text, or draws at once when there is none to collect (R117). -/
def execDrawtext (len : Nat) (x y : Int) (s : State) : Result := .next (beginText len (latchText len x y s))

/-- TEXTBEAT: its lanes join TXTBUF; PORT counts down, and after the last beat the DRAWTEXT is checked and executed (30_encoding.md
R76, R84, R87). Where PORT expects no text a beat is no text beat (R76): a fault, in states no run reaches (log 17). -/
def execTextbeat (w : Beat) (s : State) : Result :=
  match s.port with
  | .expectCmd => .fault .noTextExpected
  | .expectText n =>
    if n ≤ 1 then
      .next (endText { s with
        txtbuf := storeLanes (textBeats s.txtlen - n) w s.txtlen s.txtbuf
        port := .expectCmd })
    else
      .next { s with
        txtbuf := storeLanes (textBeats s.txtlen - n) w s.txtlen s.txtbuf
        port := .expectText (n - 1) }

end Sys2Proof.Machine
end

