-- ==== Sys2Proof/Machine/Sequencer.lean ====
section
/-! DEFINITION. The transaction sequencer (42_sequencer.md): INIT, PRESENT, and the steps they run one after another. Each step
issues one transaction and waits for the transport; Machine/Agents.lean's `busAnswer` turn goes on from there. -/

namespace Sys2Proof.Machine

/-- INIT up to the end of its first stretch: CSTATE <- INITIALIZING and the stabilization delay begins (R129, R130). -/
def execInit (s : State) : Result := .next (startDelay { s with cstate := .initializing })

/-- PRESENT: E_STATE unless CSTATE is READY; else CSTATE <- UPDATING, at page 0, phase 0 (R131, R135). The first issue is a turn of its
own. Log 20. -/
def execPresent (s : State) : Result :=
  if s.cstate = .ready then .next { s with cstate := .updating, seqP := 0, seqPh := 0 } else .next (raise .state s)

/-- SEQ_K <- k; BusIssue(Cmd(ISEQ[k])) (R130). -/
def issueInit (k : Nat) (s : State) : Result := .next (busIssue (.cmd (iseqAt k)) { s with seqK := k })

/-- ISEQ_00 (R128, R130). -/
def execIseq00 (s : State) : Result := issueInit 0 s

/-- ISEQ_01 (R128, R130). -/
def execIseq01 (s : State) : Result := issueInit 1 s

/-- ISEQ_02 (R128, R130). -/
def execIseq02 (s : State) : Result := issueInit 2 s

/-- ISEQ_03 (R128, R130). -/
def execIseq03 (s : State) : Result := issueInit 3 s

/-- ISEQ_04 (R128, R130). -/
def execIseq04 (s : State) : Result := issueInit 4 s

/-- ISEQ_05 (R128, R130). -/
def execIseq05 (s : State) : Result := issueInit 5 s

/-- ISEQ_06 (R128, R130). -/
def execIseq06 (s : State) : Result := issueInit 6 s

/-- ISEQ_07 (R128, R130). -/
def execIseq07 (s : State) : Result := issueInit 7 s

/-- ISEQ_08 (R128, R130). -/
def execIseq08 (s : State) : Result := issueInit 8 s

/-- ISEQ_09 (R128, R130). -/
def execIseq09 (s : State) : Result := issueInit 9 s

/-- ISEQ_10 (R128, R130). -/
def execIseq10 (s : State) : Result := issueInit 10 s

/-- ISEQ_11 (R128, R130). -/
def execIseq11 (s : State) : Result := issueInit 11 s

/-- ISEQ_12 (R128, R130). -/
def execIseq12 (s : State) : Result := issueInit 12 s

/-- ISEQ_13 (R128, R130). -/
def execIseq13 (s : State) : Result := issueInit 13 s

/-- ISEQ_14 (R128, R130). -/
def execIseq14 (s : State) : Result := issueInit 14 s

/-- ISEQ_15 (R128, R130). -/
def execIseq15 (s : State) : Result := issueInit 15 s

/-- ISEQ_16 (R128, R130). -/
def execIseq16 (s : State) : Result := issueInit 16 s

/-- ISEQ_17 (R128, R130). -/
def execIseq17 (s : State) : Result := issueInit 17 s

/-- ISEQ_18 (R128, R130). -/
def execIseq18 (s : State) : Result := issueInit 18 s

/-- ISEQ_19 (R128, R130). -/
def execIseq19 (s : State) : Result := issueInit 19 s

/-- ISEQ_20 (R128, R130). -/
def execIseq20 (s : State) : Result := issueInit 20 s

/-- ISEQ_21 (R128, R130). -/
def execIseq21 (s : State) : Result := issueInit 21 s

/-- ISEQ_22 (R128, R130). -/
def execIseq22 (s : State) : Result := issueInit 22 s

/-- ISEQ_23 (R128, R130). -/
def execIseq23 (s : State) : Result := issueInit 23 s

/-- ISEQ_24 (R128, R130). -/
def execIseq24 (s : State) : Result := issueInit 24 s

/-- ISEQ_25 (R128, R130). -/
def execIseq25 (s : State) : Result := issueInit 25 s

/-- ISEQ_26 (R128, R130). -/
def execIseq26 (s : State) : Result := issueInit 26 s

/-- ISEQ_27 (R128, R130). -/
def execIseq27 (s : State) : Result := issueInit 27 s

/-- PAGE_SEL: SEQ_P <- P; SEQ_PH <- 0; BusIssue(Cmd(0xB0 + P)) (R131, R132). -/
def execPageSel (p : Nat) (s : State) : Result :=
  .next (busIssue (.cmd (pageSelByte p)) { s with seqP := p, seqPh := 0 })

/-- COL_LO0: SEQ_PH <- 1; BusIssue(Cmd(0x00)) (R131, R132). -/
def execColLo0 (s : State) : Result := .next (busIssue (.cmd 0x00#8) { s with seqPh := 1 })

/-- COL_HI0: SEQ_PH <- 2; BusIssue(Cmd(0x10)) (R131, R132). -/
def execColHi0 (s : State) : Result := .next (busIssue (.cmd 0x10#8) { s with seqPh := 2 })

/-- PAGE_DATA: SEQ_PH <- 3; BusIssue(Data(MemRead(P*WIDTH, WIDTH))) of the page P in SEQ_P (R131, R132). A SEQ_P that is no page
would form an address outside FB (20_memory.md R66): a fault, in states no run reaches (log 17). -/
def execPageData (s : State) : Result :=
  match pageSlice s.seqP s.fb with
  | some ds => .next (busIssue (.data ds) { s with seqPh := 3 })
  | none => .fault (.fbAddress (Config.width * s.seqP))

end Sys2Proof.Machine
end

