-- ==== Sys2Proof/Machine/Dispatch.lean ====
section
/-! DEFINITION. One arm for each instruction. -/

namespace Sys2Proof.Machine

/-- The execution of an instruction, up to its first wait point (00_scope.md R27). -/
def exec (i : Instr) (s : State) : Host.Outcome State Fault Refusal :=
  match i with
  | .clear => Sys2Proof.Machine.execClear s
  | .setpix x y => Sys2Proof.Machine.execSetpix x y s
  | .pageslice p => Sys2Proof.Machine.execPageslice p s
  | .lookup c => Sys2Proof.Machine.execLookup c s
  | .drawchar c x y => Sys2Proof.Machine.execDrawchar c x y s
  | .drawtext len x y => Sys2Proof.Machine.execDrawtext len x y s
  | .init => Sys2Proof.Machine.execInit s
  | .present => Sys2Proof.Machine.execPresent s
  | .textbeat w => Sys2Proof.Machine.execTextbeat w s
  | .iseq00 => Sys2Proof.Machine.execIseq00 s
  | .iseq01 => Sys2Proof.Machine.execIseq01 s
  | .iseq02 => Sys2Proof.Machine.execIseq02 s
  | .iseq03 => Sys2Proof.Machine.execIseq03 s
  | .iseq04 => Sys2Proof.Machine.execIseq04 s
  | .iseq05 => Sys2Proof.Machine.execIseq05 s
  | .iseq06 => Sys2Proof.Machine.execIseq06 s
  | .iseq07 => Sys2Proof.Machine.execIseq07 s
  | .iseq08 => Sys2Proof.Machine.execIseq08 s
  | .iseq09 => Sys2Proof.Machine.execIseq09 s
  | .iseq10 => Sys2Proof.Machine.execIseq10 s
  | .iseq11 => Sys2Proof.Machine.execIseq11 s
  | .iseq12 => Sys2Proof.Machine.execIseq12 s
  | .iseq13 => Sys2Proof.Machine.execIseq13 s
  | .iseq14 => Sys2Proof.Machine.execIseq14 s
  | .iseq15 => Sys2Proof.Machine.execIseq15 s
  | .iseq16 => Sys2Proof.Machine.execIseq16 s
  | .iseq17 => Sys2Proof.Machine.execIseq17 s
  | .iseq18 => Sys2Proof.Machine.execIseq18 s
  | .iseq19 => Sys2Proof.Machine.execIseq19 s
  | .iseq20 => Sys2Proof.Machine.execIseq20 s
  | .iseq21 => Sys2Proof.Machine.execIseq21 s
  | .iseq22 => Sys2Proof.Machine.execIseq22 s
  | .iseq23 => Sys2Proof.Machine.execIseq23 s
  | .iseq24 => Sys2Proof.Machine.execIseq24 s
  | .iseq25 => Sys2Proof.Machine.execIseq25 s
  | .iseq26 => Sys2Proof.Machine.execIseq26 s
  | .iseq27 => Sys2Proof.Machine.execIseq27 s
  | .pageSel p => Sys2Proof.Machine.execPageSel p s
  | .colLo0 => Sys2Proof.Machine.execColLo0 s
  | .colHi0 => Sys2Proof.Machine.execColHi0 s
  | .pageData => Sys2Proof.Machine.execPageData s

end Sys2Proof.Machine
end

