-- ==== Sys2Proof/Machine/Agents.lean ====
section
/-! DEFINITION. The agents' moves (00_scope.md R26): the ODB's next stretch, whichever instruction or wait it stands at, and the
moves of the host, the transport and the reset input. A wait is a step that changes nothing (60_exceptions.md R158). -/

namespace Sys2Proof.Machine

/-- The dispatch of a command word just taken (30_encoding.md R87). A rejected word changes no state but ERR (R82;
60_exceptions.md R141, R142). Log 11. -/
def dispatchWord (w : Beat) (s : State) : Result :=
  match decode .command (.beat w) with
  | .instr i => exec i (accept w s)
  | .reject .illegalOpcode => .next (raise .illegal s)
  | .reject .reservedField => .next (rejectReserved w s)
  | .reject .wrongSize => .fault .noSuchStep
  | .reject .wrongByte => .fault .noSuchStep
  | .reject .noSuchStep => .fault .noSuchStep

/-- In EXPECT_CMD and idle: take the first beat offered as a command word, or wait for the host (R75, R76). -/
def takeCommand (s : State) : Result :=
  match s.offered with
  | [] => .next s
  | w :: ws => dispatchWord w { s with offered := ws }

/-- In EXPECT_TEXT: take the first beat offered as a text beat, or wait for the host (R75, R76). -/
def takeText (s : State) : Result :=
  match s.offered with
  | [] => .next s
  | w :: ws =>
    match decode .text (.beat w) with
    | .instr i => exec i { s with offered := ws }
    | .reject _ => .fault .noSuchStep

/-- The sequencer's next step: the byte that names it, read in its slot, and executed (42_sequencer.md R130, R131). -/
def runStep (sl : Slot) (b : Byte) (s : State) : Result :=
  match decode sl (.byte b) with
  | .instr i => exec i s
  | .reject _ => .fault .noSuchStep

/-- A running operation goes on, or waits: for the transport while a transaction is outstanding (10_state.md R49), for the delay
while STAB counts (42_sequencer.md R129), for the host while response bytes are left, after which the operation ends
(30_encoding.md R90). -/
def continueOp (s : State) : Result :=
  match s.txp with
  | some _ => .next s
  | none =>
    match s.cstate with
    | .initializing => if s.stab = 0 then runStep (.initSeq s.seqK) (iseqAt s.seqK) s else .next (delayTick s)
    | .updating => runStep (.page s.seqPh) (pageByte s.seqP s.seqPh) s
    | .uninit => .next (if s.rspq = [] then finish .ok s else s)
    | .ready => .next (if s.rspq = [] then finish .ok s else s)
    | .failed => .next (if s.rspq = [] then finish .ok s else s)

/-- The ODB's move: none while reset is asserted; else as PORT and BUSY say (30_encoding.md R75, R76). -/
def odbTurn (s : State) : Result :=
  if s.rst then .next s
  else
    match s.port with
    | .expectText _ => takeText s
    | .expectCmd => if s.busy then continueOp s else takeCommand s

/-- One agent's move. -/
def runTurn (t : Turn) (s : State) : Result :=
  match t with
  | .odb => odbTurn s
  | .offer w => .next { s with offered := s.offered ++ [w] }
  | .withdraw => .next { s with offered := [] }
  | .take => .next (takeResponse s)
  | .answer r => .next (busAnswer r s)
  | .lateAnswer n _ => .next (answerAbandoned n s)
  | .assertRst fbDraw txtDraw => .next (if s.rst then s else applyReset fbDraw txtDraw s)
  | .releaseRst => .next { s with rst := false }

/-- The move of the agent whose turn it is; with no turn listed, the ODB's. Log 5. -/
def nextTurn (s : State) : Result :=
  match s.turns with
  | [] => odbTurn s
  | t :: ts => runTurn t { s with turns := ts }

/-- The state in which the ODB's next move takes the word `c` from the slot `sl`, all else as in `s`. Log 14. -/
def placeWord (sl : Slot) (c : Code) (s : State) : State :=
  match sl, c with
  | .command, .beat w =>
    { s with
      turns := [], rst := false, busy := false, port := .expectCmd
      offered := w :: List.replicate (beatCount w - 1) 0#64 }
  | .text, .beat w =>
    { s with
      turns := [], rst := false, busy := true, port := .expectText 1, txtlen := 8
      opl := { opc := opcodeByte .drawtext, a8 := 8#8, x := 0#16, y := 0#16 }
      rsv := 0#16
      offered := [w] }
  | .initSeq k, .byte _ =>
    { s with
      turns := [], rst := false, busy := true, port := .expectCmd
      cstate := .initializing, stab := 0, seqK := k, txp := none
      opl := { opc := opcodeByte .init, a8 := 0#8, x := 0#16, y := 0#16 } }
  | .page ph, .byte b =>
    { s with
      turns := [], rst := false, busy := true, port := .expectCmd
      cstate := .updating, stab := 0, seqPh := ph, txp := none
      seqP := if ph = 0 then (b &&& 0x07#8).toNat else 0
      opl := { opc := opcodeByte .present, a8 := 0#8, x := 0#16, y := 0#16 } }
  | _, _ => s

/-- The state in which the next step runs a word of spec/opcode_table.json. Log 13, log 14. -/
def placeTableWord (s : State) (nbits w : Nat) : State :=
  match readTableWord nbits w with
  | none => s
  | some (.command, _) => placeWord .command (.beat (BitVec.ofNat 64 w)) s
  | some (.text, _) => placeWord .text (.beat (BitVec.ofNat 64 w)) s
  | some (.initSeq k, _) => placeWord (.initSeq k) (.byte (BitVec.ofNat 8 w)) s
  | some (.page ph, _) => placeWord (.page ph) (.byte (BitVec.ofNat 8 w)) s

end Sys2Proof.Machine
end

