-- ==== Sys2Proof/Machine/Step.lean ====
section
/-! DEFINITION. One step: one agent's move. -/

namespace Sys2Proof.Machine

/-- The machine's step. -/
def step : State → Host.Outcome State Fault Refusal := nextTurn

/-- `s` with a word of spec/opcode_table.json placed where the next step takes it. Log 13, log 14. -/
def State.withFetchWord (s : State) (nbits w : Nat) : State := placeTableWord s nbits w

end Sys2Proof.Machine
end

