-- ==== Sys2Proof/Machine/Assembler.lean ====
section
/-! DEFINITION. The assembler form of a command (30_encoding.md R95 to R98): one line of text, its command, and the beats the
command puts on the port. Text is a list of characters. Log 18. -/

namespace Sys2Proof.Machine

/-- What one line says: a command with its operands, a raw beat, or nothing (R95, R96). -/
inductive AsmLine where
  | empty
  | clear
  | setpix (x y : Int)
  | pageslice (p : Nat)
  | lookup (c : Byte)
  | drawchar (c : Byte) (x y : Int)
  | drawtext (x y : Int) (text : List Byte)
  | init
  | present
  | word (w : Beat)
  deriving DecidableEq, Repr

/-! ### From a command to its beats -/

/-- Text beat number `b` of a text: byte 8b + l in lane l, and 0 in the lanes past the end (R84, R97). -/
def packBeat (text : List Byte) (b : Nat) : Beat :=
  [0, 1, 2, 3, 4, 5, 6, 7].foldl (fun w l => w ||| ((text.getD (8 * b + l) 0#8).setWidth 64 <<< (8 * l))) 0#64

/-- The text beats of a text (R97). -/
def packText (text : List Byte) : List Beat := (List.range (textBeats text.length)).map (packBeat text)

/-- The beat of a one-beat command. -/
def beatOf (i : Instr) : List Beat :=
  match encode i with
  | .beat w => [w]
  | .byte _ => []

/-- The beats a line puts on the command port; only DRAWTEXT expands to more than one (R97, R98). -/
def assemble : AsmLine → List Beat
  | .empty => []
  | .clear => beatOf .clear
  | .setpix x y => beatOf (.setpix x y)
  | .pageslice p => beatOf (.pageslice p)
  | .lookup c => beatOf (.lookup c)
  | .drawchar c x y => beatOf (.drawchar c x y)
  | .drawtext x y text => beatOf (.drawtext text.length x y) ++ packText text
  | .init => beatOf .init
  | .present => beatOf .present
  | .word w => [w]

/-! ### Reading a line -/

/-- The text after leading spaces and tabs. -/
def skipBlanks : List Char → List Char
  | ' ' :: cs => skipBlanks cs
  | '\t' :: cs => skipBlanks cs
  | cs => cs

/-- The leading letters and dots in upper case, and what follows them: mnemonics are case-insensitive (R95). That
`.word` is so too is the model's choice (DESIGN CHOICE, log 18). -/
def readName : List Char → List Char × List Char
  | [] => ([], [])
  | c :: cs =>
    if c.isAlpha ∨ c = '.' then (c.toUpper :: (readName cs).1, (readName cs).2) else ([], c :: cs)

/-- The value of a decimal digit. -/
def decDigit (c : Char) : Option Nat := if '0' ≤ c ∧ c ≤ '9' then some (c.toNat - 0x30) else none

/-- The value of a hexadecimal digit, in either case. -/
def hexDigit (c : Char) : Option Nat :=
  if '0' ≤ c ∧ c ≤ '9' then some (c.toNat - 0x30)
  else if 'A' ≤ c ∧ c ≤ 'F' then some (c.toNat - 0x41 + 10)
  else if 'a' ≤ c ∧ c ≤ 'f' then some (c.toNat - 0x61 + 10)
  else none

/-- The leading digits of a base, as values, and what follows them. -/
def readDigits (digit : Char → Option Nat) : List Char → List Nat × List Char
  | [] => ([], [])
  | c :: cs =>
    match digit c with
    | some d => (d :: (readDigits digit cs).1, (readDigits digit cs).2)
    | none => ([], c :: cs)

/-- The number of a list of digits. -/
def ofDigits (base : Nat) (ds : List Nat) : Nat := ds.foldl (fun n d => base * n + d) 0

/-- A decimal or hexadecimal integer (R96). -/
def readInt : List Char → Option (Int × List Char)
  | '0' :: 'x' :: cs =>
    if (readDigits hexDigit cs).1 = [] then none
    else some ((ofDigits 16 (readDigits hexDigit cs).1 : Nat), (readDigits hexDigit cs).2)
  | '-' :: cs =>
    if (readDigits decDigit cs).1 = [] then none
    else some (-(ofDigits 10 (readDigits decDigit cs).1 : Nat), (readDigits decDigit cs).2)
  | cs =>
    if (readDigits decDigit cs).1 = [] then none
    else some ((ofDigits 10 (readDigits decDigit cs).1 : Nat), (readDigits decDigit cs).2)

/-- A coordinate: an integer in -32768..32767 (R95). -/
def readCoord (cs : List Char) : Option (Int × List Char) :=
  match readInt cs with
  | some (v, rest) => if coordOk v then some (v, rest) else none
  | none => none

/-- An integer in 0..255 (R95). -/
def readA8 (cs : List Char) : Option (Nat × List Char) :=
  match readInt cs with
  | some (v, rest) => if 0 ≤ v ∧ v ≤ 255 then some (v.toNat, rest) else none
  | none => none

/-- A character operand: a character literal or an integer 0..255 (R95). -/
def readCharOperand : List Char → Option (Byte × List Char)
  | '\'' :: c :: '\'' :: rest => if c.toNat < 128 then some (BitVec.ofNat 8 c.toNat, rest) else none
  | cs =>
    match readA8 cs with
    | some (n, rest) => some (BitVec.ofNat 8 n, rest)
    | none => none

/-- The rest of a string literal after its opening quote: its bytes and what follows its closing quote (R96). A backslash that begins
none of the four escapes is an assembly error: the model's choice (DESIGN CHOICE, log 18). -/
def readString : List Char → Option (List Byte × List Char)
  | [] => none
  | '"' :: rest => some ([], rest)
  | '\\' :: '0' :: cs => (readString cs).map (fun r => (0x00#8 :: r.1, r.2))
  | '\\' :: '\\' :: cs => (readString cs).map (fun r => (0x5C#8 :: r.1, r.2))
  | '\\' :: '"' :: cs => (readString cs).map (fun r => (0x22#8 :: r.1, r.2))
  | '\\' :: 'x' :: h :: l :: cs =>
    match hexDigit h, hexDigit l with
    | some a, some b => (readString cs).map (fun r => (BitVec.ofNat 8 (16 * a + b) :: r.1, r.2))
    | _, _ => none
  | '\\' :: _ => none
  | c :: cs => if c.toNat < 128 then (readString cs).map (fun r => (BitVec.ofNat 8 c.toNat :: r.1, r.2)) else none

/-- The operand separator: a comma, with blanks around it. -/
def readComma (cs : List Char) : Option (List Char) :=
  match skipBlanks cs with
  | ',' :: rest => some (skipBlanks rest)
  | _ => none

/-- Two coordinates separated by a comma. -/
def readPoint (cs : List Char) : Option ((Int × Int) × List Char) := do
  let (x, cs) ← readCoord cs
  let cs ← readComma cs
  let (y, cs) ← readCoord cs
  return ((x, y), cs)

/-- The operands of a mnemonic, given the text after it (R95, R96). A string longer than 255 bytes is an error (R97). -/
def readOperands (name cs : List Char) : Option (AsmLine × List Char) :=
  if name = [] then some (.empty, cs)
  else if name = ['C', 'L', 'E', 'A', 'R'] then some (.clear, cs)
  else if name = ['I', 'N', 'I', 'T'] then some (.init, cs)
  else if name = ['P', 'R', 'E', 'S', 'E', 'N', 'T'] then some (.present, cs)
  else if name = ['S', 'E', 'T', 'P', 'I', 'X'] then do
    let (p, cs) ← readPoint cs
    return (.setpix p.1 p.2, cs)
  else if name = ['P', 'A', 'G', 'E', 'S', 'L', 'I', 'C', 'E'] then do
    let (p, cs) ← readA8 cs
    return (.pageslice p, cs)
  else if name = ['L', 'O', 'O', 'K', 'U', 'P'] then do
    let (c, cs) ← readCharOperand cs
    return (.lookup c, cs)
  else if name = ['D', 'R', 'A', 'W', 'C', 'H', 'A', 'R'] then do
    let (c, cs) ← readCharOperand cs
    let cs ← readComma cs
    let (p, cs) ← readPoint cs
    return (.drawchar c p.1 p.2, cs)
  else if name = ['D', 'R', 'A', 'W', 'T', 'E', 'X', 'T'] then do
    let (p, cs) ← readPoint cs
    let cs ← readComma cs
    match cs with
    | '"' :: rest => do
      let (text, rest) ← readString rest
      if fieldA8Ok text.length then return (.drawtext p.1 p.2 text, rest) else none
    | _ => none
  else if name = ['.', 'W', 'O', 'R', 'D'] then
    match cs with
    | '0' :: 'x' :: rest =>
      if (readDigits hexDigit rest).1.length = 16 then
        some (.word (BitVec.ofNat 64 (ofDigits 16 (readDigits hexDigit rest).1)), (readDigits hexDigit rest).2)
      else none
    | _ => none
  else none

/-- One line: a mnemonic and its operands, then at most blanks and a comment from `;` to the end (R95). -/
def parseLine (cs : List Char) : Option AsmLine :=
  match readOperands (readName (skipBlanks cs)).1 (skipBlanks (readName (skipBlanks cs)).2) with
  | none => none
  | some (line, rest) =>
    match skipBlanks rest with
    | [] => some line
    | ';' :: _ => some line
    | _ => none

/-- The beats of a line of text, or nothing where the line is an assembly error. -/
def assembleText (cs : List Char) : Option (List Beat) := (parseLine cs).map assemble

end Sys2Proof.Machine
end

