-- ==== Sys2Proof/Safety.lean ====
section
/-! DEFINITION. The terms claims are stated in: the invariant of the states a run reaches, the whole-machine rules of the
lifecycle, and the entries a whole operation leaves in the log. -/

namespace Sys2Proof.Machine

/-- The machine waits for the host's next command word (30_encoding.md R75). -/
abbrev Idle (s : State) : Prop := s.rst = false ∧ s.busy = false ∧ s.port = .expectCmd

/-- FB and TXTBUF are in canonical form and inside their spaces, TXTLEN inside its range (20_memory.md R56; 10_state.md R44). -/
abbrev MemoryInv (s : State) : Prop :=
  s.fb.wf ∧ s.fb.within Config.fbBytes ∧ s.txtbuf.wf ∧ s.txtbuf.within Config.textMax ∧ s.txtlen ≤ Config.textMax

/-- The sequencer counters always select a step, and the response stream stays in its range (10_state.md R45, R47; 42_sequencer.md R130,
R131). -/
abbrev RangeInv (s : State) : Prop :=
  s.seqK < initLen ∧ s.seqP < Config.pages ∧ s.seqPh ≤ 3 ∧ s.rspq.length ≤ Config.width

/-- While BUSY is 0 nothing is pending (10_state.md R47, R49), and no operation is collecting text (30_encoding.md R87). -/
abbrev IdleInv (s : State) : Prop := s.busy = false → s.port = .expectCmd ∧ s.rspq = [] ∧ s.txp = none

/-- While text is collected BUSY is 1 and between 1 and NB beats are missing (10_state.md R37, R40; 30_encoding.md R83); at all other
times no RSV bits wait to be checked (log 12). -/
abbrev TextInv (s : State) : Prop :=
  match s.port with
  | .expectCmd => s.rsv = 0#16
  | .expectText n => s.busy = true ∧ 1 ≤ n ∧ n ≤ textBeats s.txtlen ∧ s.rspq = [] ∧ s.txp = none

/-- The transaction of step `ph` of page `p` (42_sequencer.md R131, R132). -/
def pageTx (p ph : Nat) (fb : Memory) : Tx :=
  match ph with
  | 0 => .cmd (pageSelByte p)
  | 1 => .cmd 0x00#8
  | 2 => .cmd 0x10#8
  | _ => .data (fb.readRange (Config.width * p) Config.width)

/-- INITIALIZING and UPDATING occur only while BUSY = 1 (42_sequencer.md R134); a transaction is outstanding only then, and it is the
one the counters select (R130, R131); the delay counts only with none outstanding (R129). -/
abbrev RunInv (s : State) : Prop :=
  match s.cstate with
  | .initializing =>
    s.busy = true ∧ s.port = .expectCmd ∧ s.rspq = [] ∧ (s.stab = 0 ∨ s.txp = none) ∧
    (s.txp = none ∨ s.txp = some (.cmd (iseqAt s.seqK)))
  | .updating =>
    s.busy = true ∧ s.port = .expectCmd ∧ s.rspq = [] ∧ s.stab = 0 ∧
    (s.txp = none ∨ s.txp = some (pageTx s.seqP s.seqPh s.fb))
  | .uninit => s.txp = none ∧ s.stab = 0
  | .ready => s.txp = none ∧ s.stab = 0
  | .failed => s.txp = none ∧ s.stab = 0

/-- The transaction of a Pending entry. -/
def pendingTx : LogEntry → Option Tx
  | .tx t .pending => some t
  | .tx _ .ok => none
  | .tx _ .fail => none
  | .delay _ => none
  | .reset => none

/-- A Pending entry of the log is the outstanding transaction, and the last entry, or was cut off by a reset (42_sequencer.md R125;
70_reset_and_hazards.md R162). -/
def pendingOk : List LogEntry → Option Tx → Bool
  | [], txp => txp = none
  | [e], txp => txp = pendingTx e
  | e :: e' :: es, txp => (pendingTx e = none ∨ e' = .reset) ∧ pendingOk (e' :: es) txp

/-- The log agrees with TXP. -/
abbrev LogInv (s : State) : Prop := pendingOk s.log s.txp = true

/-- While reset is asserted no operation runs (70_reset_and_hazards.md R160, R162). -/
abbrev ResetInv (s : State) : Prop := s.rst = true → s.busy = false

/-- The invariant of every state a run reaches. -/
abbrev Inv (s : State) : Prop :=
  MemoryInv s ∧ RangeInv s ∧ IdleInv s ∧ TextInv s ∧ RunInv s ∧ LogInv s ∧ ResetInv s

/-- The transitions of CSTATE other than reset, and no change (42_sequencer.md R134). -/
def cstateEdge : CState → CState → Bool
  | .uninit, .initializing => true
  | .ready, .initializing => true
  | .failed, .initializing => true
  | .initializing, .ready => true
  | .initializing, .failed => true
  | .ready, .updating => true
  | .updating, .ready => true
  | .updating, .failed => true
  | a, b => a = b

/-- The next move is the assertion of reset. -/
def resetting (s : State) : Bool :=
  match s.turns with
  | .assertRst _ _ :: _ => !s.rst
  | _ => false

/-- The log entries of a whole initialization sequence (42_sequencer.md R138). -/
def initLog : List LogEntry := iseq.map (fun b => .tx (.cmd b) .ok)

/-- The log entries of one page of a PRESENT (42_sequencer.md R132, R138). -/
def pageLog (p : Nat) (fb : Memory) : List LogEntry :=
  [.tx (pageTx p 0 fb) .ok, .tx (pageTx p 1 fb) .ok, .tx (pageTx p 2 fb) .ok, .tx (pageTx p 3 fb) .ok]

/-- The log entries of a whole PRESENT (42_sequencer.md R138). -/
def presentLog (fb : Memory) : List LogEntry := (List.range Config.pages).flatMap (fun p => pageLog p fb)

/-- The moves of an INIT up to its first transaction: it is taken, and the delay passes. -/
def startTurns (delay : Nat) : List Turn := List.replicate (1 + delay) .odb

/-- The moves of `n` transactions each answered Ok: the ODB issues, the transport answers. -/
def okTurns (n : Nat) : List Turn := (List.replicate n [Turn.odb, Turn.answer .ok]).flatten

/-- `n` steps. -/
abbrev runSteps (n : Nat) (s : State) : Result := Host.Core.run Sys2Proof.core n s

/-- The executions of a list of instructions one after another, each to its first wait point. -/
def execAll : List Instr → State → Result
  | [], s => .next s
  | i :: is, s =>
    match exec i s with
    | .next t => execAll is t
    | .fault r => .fault r
    | .refused r => .refused r

/-- The signed value of a 16-bit field's unsigned value (00_scope.md R24). -/
def signed16 (n : Nat) : Int := if n < 32768 then n else n - 65536

/-- The text that a list of text beats carries: byte t is lane t mod 8 of beat t div 8 (30_encoding.md R84). -/
def textOf (beats : List Beat) (len : Nat) : List Byte :=
  (List.range len).map (fun t => (beats.getD (t / 8) 0#64).extractLsb' (8 * (t % 8)) 8)

/-- What a glyph column byte drawn from row `y` down puts into page `q`, in closed form (41_raster.md R114). -/
def columnInPage (col : Byte) (y : Int) (q : Nat) : Byte :=
  if (q : Int) = y / 8 then col <<< (y % 8).toNat
  else if (q : Int) = y / 8 + 1 ∧ y % 8 ≠ 0 then col >>> (8 - y % 8).toNat
  else 0x00#8

/-- The number of characters a DRAWTEXT starting at column `x` processes (41_raster.md R122). -/
def charCount (cs : List Byte) (x : Int) : Nat :=
  min (cs.takeWhile (fun c => c != 0x00#8)).length (max 0 ((122 - x + 5) / 6)).toNat

end Sys2Proof.Machine
end

