-- ==== Sys2Proof/Certificates/Slice0/Obligations.lean ====
section
/-! DEFINITION. The statements for the provers. Each docstring names the rules of spec/ it formalises, and the log entry where it
rests on a choice of the model. -/

open Sys2Proof Sys2Proof.Machine

/-! ### Encoding (30_encoding.md) -/

/-- Every well-formed instruction's word decodes, in its slot, to the instruction with every operand. -/
def Obligations.DecodeEncodeAgree : Prop :=
  ∀ i : Instr, i.wellFormed = true → decode (slotOf i) (encode i) = .instr i

/-- A word that decodes is the word of the instruction it decodes to, which is well formed and stands in that slot: no two words of a
slot mean the same instruction. -/
def Obligations.DecodedWordIsEncoded : Prop :=
  ∀ (sl : Slot) (c : Code) (i : Instr), decode sl c = .instr i →
    encode i = c ∧ slotOf i = sl ∧ i.wellFormed = true

/-- R78, R81: the match and mask of each command, written out from the rule's table, and the operands of a word that matches. -/
def Obligations.CommandRowsAndOperands : Prop :=
  ∀ w : Beat,
    (w &&& 0xFFFFFFFFFFFFFFFF#64 = 0x0100000000000000#64 ↔ decode .command (.beat w) = .instr .clear) ∧
    (w &&& 0xFFFFFFFF00000000#64 = 0x0200000000000000#64 ↔ decode .command (.beat w) =
      .instr (.setpix (signed16 (w.toNat / 65536 % 65536)) (signed16 (w.toNat % 65536)))) ∧
    (w &&& 0xFF00FFFFFFFFFFFF#64 = 0x0300000000000000#64 ↔ decode .command (.beat w) =
      .instr (.pageslice (w.toNat / 2 ^ 48 % 256))) ∧
    (w &&& 0xFF00FFFFFFFFFFFF#64 = 0x0400000000000000#64 ↔ decode .command (.beat w) =
      .instr (.lookup (BitVec.ofNat 8 (w.toNat / 2 ^ 48)))) ∧
    (w &&& 0xFF00FFFF00000000#64 = 0x0500000000000000#64 ↔ decode .command (.beat w) =
      .instr (.drawchar (BitVec.ofNat 8 (w.toNat / 2 ^ 48)) (signed16 (w.toNat / 65536 % 65536)) (signed16 (w.toNat % 65536)))) ∧
    (w &&& 0xFF00FFFF00000000#64 = 0x0600000000000000#64 ↔ decode .command (.beat w) =
      .instr (.drawtext (w.toNat / 2 ^ 48 % 256) (signed16 (w.toNat / 65536 % 65536)) (signed16 (w.toNat % 65536)))) ∧
    (w &&& 0xFFFFFFFFFFFFFFFF#64 = 0x1000000000000000#64 ↔ decode .command (.beat w) = .instr .init) ∧
    (w &&& 0xFFFFFFFFFFFFFFFF#64 = 0x1100000000000000#64 ↔ decode .command (.beat w) = .instr .present)

/-- R82: the illegal opcodes are 0x00, 0x07..0x0F and 0x12..0xFF, whatever the rest of the word. -/
def Obligations.IllegalOpcodes : Prop :=
  ∀ w : Beat, decode .command (.beat w) = .reject .illegalOpcode ↔
    w.toNat / 2 ^ 56 = 0 ∨ (7 ≤ w.toNat / 2 ^ 56 ∧ w.toNat / 2 ^ 56 ≤ 0x0F) ∨ 0x12 ≤ w.toNat / 2 ^ 56

/-- A few words written out from the spec's encodings decode to their instructions. -/
def Obligations.SampleWordsDecode : Prop :=
  decode .command (.beat 0x0201000000050009#64) = .reject .reservedField ∧
  decode .command (.beat 0x0200000000050009#64) = .instr (.setpix 5 9) ∧
  decode .command (.beat 0x05410000FFFEFFFD#64) = .instr (.drawchar 0x41#8 (-2) (-3)) ∧
  decode .command (.beat 0x06030000FFFA0010#64) = .instr (.drawtext 3 (-6) 16) ∧
  decode .text (.beat 0x0000000000006948#64) = .instr (.textbeat 0x0000000000006948#64) ∧
  decode (.initSeq 4) (.byte 0xC8#8) = .instr .iseq04 ∧
  decode (.page 0) (.byte 0xB7#8) = .instr (.pageSel 7) ∧
  decode (.page 3) (.byte 0x40#8) = .instr .pageData

/-- R97: an assembled DRAWTEXT is its command word, then (L+7) div 8 text beats whose lane l of beat b is byte 8b + l of the text, and
0 past its end. -/
def Obligations.AssembledDrawtext : Prop :=
  ∀ (x y : Int) (text : List Byte), text.length ≤ 255 →
    ∃ bs : List Beat, assemble (.drawtext x y text) =
        (0x06#8 ++ BitVec.ofNat 8 text.length ++ 0x0000#16 ++ BitVec.ofInt 16 x ++ BitVec.ofInt 16 y : BitVec 64) :: bs ∧
      bs.length = (text.length + 7) / 8 ∧
      ∀ b l, b < bs.length → l < 8 → (bs.getD b 0#64).extractLsb' (8 * l) 8 = text.getD (8 * b + l) 0x00#8

/-! ### Dispatch and the step -/

/-- A STEP RUNS THE BEAT OFFERED. In EXPECT_CMD and idle, a beat that decodes to a command is executed after BUSY <- 1 and the
latching of its fields (R87); in EXPECT_TEXT a beat is executed as a text beat, whatever its bits (R76). The state is otherwise
the one before, with the beat consumed. -/
def Obligations.StepRunsOfferedBeat : Prop :=
  ∀ (s : State) (w : Beat) (ws : List Beat), s.rst = false → s.turns = [] → s.offered = w :: ws →
    (∀ i, s.busy = false → s.port = .expectCmd → decode .command (.beat w) = .instr i →
      step s = exec i { s with
        offered := ws
        busy := true
        opl := { opc := w.extractLsb' 56 8, a8 := w.extractLsb' 48 8, x := w.extractLsb' 16 16, y := w.extractLsb' 0 16 } }) ∧
    (∀ n, s.port = .expectText n → decode .text (.beat w) = .instr (.textbeat w) ∧
      step s = exec (.textbeat w) { s with offered := ws })

/-- While INIT or PRESENT runs and no transaction is outstanding, a step executes the instruction that the sequencer's byte decodes to
in the slot the counters select. -/
def Obligations.StepRunsSequencerStep : Prop :=
  ∀ (s : State) (i : Instr), s.rst = false → s.busy = true → s.port = .expectCmd → s.txp = none → s.turns = [] →
    ((s.cstate = .initializing ∧ s.stab = 0 ∧ decode (.initSeq s.seqK) (.byte (iseqAt s.seqK)) = .instr i) ∨
     (s.cstate = .updating ∧ decode (.page s.seqPh) (.byte (pageByte s.seqP s.seqPh)) = .instr i)) →
    step s = exec i s

/-- A listed turn is made by its agent and taken off the list: the ODB moves as it would with no turn listed; the host offers a
beat after those it offers or withdraws them all (log 6), or takes the first response byte (R90); an answer with nothing
outstanding, a take with no byte and an assertion of reset while it is asserted change nothing; reset is released. The turn list
is the model's (log 5); that a second assertion changes nothing is its reading (log 15). The other answers and the first assertion
have statements of their own. -/
def Obligations.TurnsAreMadeInOrder : Prop :=
  ∀ (s : State) (us : List Turn),
    (s.turns = .odb :: us → ∀ t, step { s with turns := [] } = .next t → step s = .next { t with turns := us }) ∧
    (∀ w, s.turns = .offer w :: us → step s = .next { s with turns := us, offered := s.offered ++ [w] }) ∧
    (s.turns = .withdraw :: us → step s = .next { s with turns := us, offered := [] }) ∧
    (∀ b bs, s.turns = .take :: us → s.rspq = b :: bs →
      step s = .next { s with turns := us, rspq := bs, rspTaken := s.rspTaken ++ [b] }) ∧
    (s.turns = .take :: us → s.rspq = [] → step s = .next { s with turns := us }) ∧
    (∀ r, s.turns = .answer r :: us → s.txp = none → step s = .next { s with turns := us }) ∧
    (∀ f x, s.turns = .assertRst f x :: us → s.rst = true → step s = .next { s with turns := us }) ∧
    (s.turns = .releaseRst :: us → step s = .next { s with turns := us, rst := false })

/-- R82, R141: an illegal opcode ends with E_ILLEGAL after one beat; no state but ERR changes. That this includes the operand
latch, which R87 writes before it checks the word, is the model's reading (log 11). -/
def Obligations.IllegalWordEnds : Prop :=
  ∀ (s : State) (w : Beat) (ws : List Beat), Idle s → s.turns = [] → s.offered = w :: ws →
    decode .command (.beat w) = .reject .illegalOpcode →
    step s = .next { s with offered := ws, err := .illegal }

/-- R81, R142: a nonzero reserved or unused field of any command but DRAWTEXT ends with E_RESERVED at once; no state but ERR
changes. That this includes the operand latch, which R87 writes before it checks the word, is the model's reading (log 11). -/
def Obligations.ReservedWordEnds : Prop :=
  ∀ (s : State) (w : Beat) (ws : List Beat), Idle s → s.turns = [] → s.offered = w :: ws →
    decode .command (.beat w) = .reject .reservedField → w.extractLsb' 56 8 ≠ 0x06#8 →
    step s = .next { s with offered := ws, err := .reserved }

/-- R83, R142: a DRAWTEXT with a nonzero RSV consumes all its text beats, which are written to TXTBUF and TXTLEN, then ends with
E_RESERVED; no other state but ERR changes, and the beats after it are still offered. That this includes the operand latch, which
R87 writes before it checks the word, is the model's reading (log 11). -/
def Obligations.ReservedDrawtextTakesItsBeats : Prop :=
  ∀ (s : State) (w : Beat) (beats ws : List Beat), Inv s → Idle s → s.turns = [] → w.extractLsb' 56 8 = 0x06#8 →
    w.extractLsb' 32 16 ≠ 0#16 → beats.length = ((w.extractLsb' 48 8).toNat + 7) / 8 → s.offered = w :: (beats ++ ws) →
    ∃ t, runSteps (1 + beats.length) s = .next t ∧
      (∀ j, t.txtbuf.read j =
        if j < (w.extractLsb' 48 8).toNat then (textOf beats (w.extractLsb' 48 8).toNat).getD j 0x00#8 else s.txtbuf.read j) ∧
      t = { s with offered := ws, err := .reserved, txtlen := (w.extractLsb' 48 8).toNat, txtbuf := t.txtbuf }

/-- R75: `cmd_ready` is 1 exactly when the ODB is out of reset and either idle in EXPECT_CMD or in EXPECT_TEXT; while it is 0 no beat is
taken: a beat the host offers waits. -/
def Obligations.BeatsWaitForReady : Prop :=
  (∀ s : State, cmdReady s = true ↔
    s.rst = false ∧ ((s.busy = false ∧ s.port = .expectCmd) ∨ ∃ n, s.port = .expectText n)) ∧
  ∀ (s t : State), cmdReady s = false → s.turns = [] → step s = .next t → t.offered = s.offered

/-! ### Status (10_state.md) -/

/-- R36, R39: the fields of STATUS, with the codes of R35 and R140; its bits 15:8 read 0. -/
def Obligations.StatusLayout : Prop :=
  ∀ s : State, (status s).extractLsb' 8 8 = 0#8 ∧ (status s).toNat =
    (match s.cstate with | .uninit => 0 | .initializing => 1 | .ready => 2 | .updating => 3 | .failed => 4) +
    (if s.busy then 8 else 0) +
    16 * (match s.err with | .ok => 0 | .illegal => 1 | .reserved => 2 | .state => 3 | .page => 4 | .transport => 5)

/-- R38: ERR holds its previous value while an operation runs. -/
def Obligations.ErrHeldWhileBusy : Prop :=
  ∀ s t : State, Inv s → step s = .next t → t.busy = true → t.err = s.err

/-! ### Framebuffer (40_framebuffer.md) -/

/-- R101: CLEAR, the word 0x0100000000000000, sets every framebuffer byte to 0 and ends with E_OK; nothing else changes. -/
def Obligations.ClearZeroesFramebuffer : Prop :=
  decode .command (.beat 0x0100000000000000#64) = .instr .clear ∧
  ∀ s : State, ∃ t, exec .clear s = .next t ∧ (∀ a, t.fb.read a = 0x00#8) ∧
    t = { s with fb := t.fb, err := .ok, busy := false, port := .expectCmd }

/-- R102, R59: SETPIX ORs bit y mod 8 into byte x + (y div 8) * 128 when the pixel is on the display and writes nothing when it is
not; it ends with E_OK either way, and nothing else changes. -/
def Obligations.SetpixOrsOneBit : Prop :=
  ∀ (s : State) (x y : Int), s.fb.wf → ∃ t, exec (.setpix x y) s = .next t ∧
    t = { s with fb := t.fb, err := .ok, busy := false, port := .expectCmd } ∧
    ∀ a, t.fb.read a =
      if 0 ≤ x ∧ x < 128 ∧ 0 ≤ y ∧ y < 64 ∧ (a : Int) = x + (y / 8) * 128 then s.fb.read a ||| (1#8 <<< (y % 8).toNat)
      else s.fb.read a

/-- R105: in the unpacked view, SETPIX lights its pixel and leaves every other as it was. -/
def Obligations.SetpixUnpackedView : Prop :=
  ∀ (s : State) (x y : Int), s.fb.wf → ∃ t, exec (.setpix x y) s = .next t ∧
    ∀ u v, pixel t.fb u v = (pixel s.fb u v).map (fun b => b || decide ((u : Int) = x ∧ (v : Int) = y))

/-- R60: byte a holds page a div 128 at column a mod 128, its bit k is row 8p + k; the packer is a bijection between the in-range
pixels and the 8192 (byte, bit) pairs; and a pixel is observed as bit y mod 8 of byte x + (y div 8) * 128, and has no value out of
range. -/
def Obligations.PackerIsBijection : Prop :=
  (∀ x y : Nat, x < 128 → y < 64 → pixelAddr x y < 1024 ∧ pixelBit y < 8 ∧
    pixelAddr x y / 128 = y / 8 ∧ pixelAddr x y % 128 = x ∧ 8 * (pixelAddr x y / 128) + pixelBit y = y) ∧
  (∀ a k : Nat, a < 1024 → k < 8 → ∃! q : Nat × Nat, q.1 < 128 ∧ q.2 < 64 ∧ pixelAddr q.1 q.2 = a ∧ pixelBit q.2 = k) ∧
  (∀ (m : Memory) (x y : Nat), x < 128 → y < 64 →
    pixel m x y = some ((m.read (x + (y / 8) * 128) >>> (y % 8)) &&& 1#8 == 1#8)) ∧
  (∀ (m : Memory) (x y : Nat), 128 ≤ x ∨ 64 ≤ y → pixel m x y = none)

/-- R106: two SETPIX of the same pixel leave what one leaves; any permutation of a run of SETPIX commands leaves the same state;
and the framebuffer a run leaves is the one before with the in-range pixels of the run lit. -/
def Obligations.SetpixRuns : Prop :=
  ∀ (s : State) (ps : List (Int × Int)), s.fb.wf →
    (∀ x y, execAll [.setpix x y, .setpix x y] s = execAll [.setpix x y] s) ∧
    (∀ qs, ps.Perm qs → execAll (ps.map fun p => .setpix p.1 p.2) s = execAll (qs.map fun p => .setpix p.1 p.2) s) ∧
    ∃ t, execAll (ps.map fun p => .setpix p.1 p.2) s = .next t ∧
      ∀ u v : Nat, pixel t.fb u v = (pixel s.fb u v).map (fun b => b || decide (((u : Int), (v : Int)) ∈ ps))

/-- R104, R88: PAGESLICE of a page of the display puts its 128 bytes on the response stream, in column order, and changes nothing
else; the operation has not ended. That all the bytes join in one step is the model's reading (log 10). -/
def Obligations.PagesliceEmitsPage : Prop :=
  ∀ (s : State) (p : Nat), p < 8 → exec (.pageslice p) s =
    .next { s with rspq := s.rspq ++ (List.range 128).map (fun c => s.fb.read (128 * p + c)) }

/-- R104, R144: PAGESLICE of any other page ends with E_PAGE and puts no byte on the stream. -/
def Obligations.PagesliceOutsideEnds : Prop :=
  ∀ (s : State) (p : Nat), 8 ≤ p → exec (.pageslice p) s =
    .next { s with err := .page, busy := false, port := .expectCmd }

/-- R88, R90, R37: a whole PAGESLICE, the host taking each byte: the host gets the page's 128 bytes in order, and only then the
operation ends with E_OK. The turns are the model's (log 5, log 10). -/
def Obligations.PagesliceWholeOperation : Prop :=
  ∀ (s : State) (p : Nat) (w : Beat) (ws : List Beat) (us : List Turn), Inv s → Idle s → p < 8 →
    encode (.pageslice p) = .beat w → s.offered = w :: ws →
    s.turns = [.odb] ++ List.replicate 128 .take ++ [.odb] ++ us →
    runSteps 130 s = .next { s with
      offered := ws, turns := us, opl := (accept w s).opl, err := .ok
      rspTaken := s.rspTaken ++ (List.range 128).map (fun c => s.fb.read (128 * p + c)) } ∧
    ∀ n t, 1 ≤ n → n < 130 → runSteps n s = .next t → t.busy = true

/-- R100: outside a reset, no step turns a lit framebuffer bit off but the taking of a CLEAR. -/
def Obligations.OnlyClearTurnsBitsOff : Prop :=
  ∀ s t : State, Inv s → step s = .next t → resetting s = false →
    ¬ (Idle s ∧ s.offered.head? = some 0x0100000000000000#64) →
    ∀ a k, (s.fb.read a).getLsbD k = true → (t.fb.read a).getLsbD k = true

/-- R116, R108: (a) an unsupported character leaves FB byte for byte as it was; (b) drawing twice with SETPIX or DRAWCHAR leaves
what drawing once leaves; (c) drawing after a CLEAR leaves what drawing on an all-zero FB leaves, whatever was drawn before the
CLEAR, for SETPIX, for DRAWCHAR, and for a whole DRAWTEXT with its text beats. -/
def Obligations.RedrawLaws : Prop :=
  (∀ s : State, s.fb.wf →
    (∀ (c : Byte) (x y : Int), c.toNat < 0x41 ∨ (0x5A < c.toNat ∧ c.toNat < 0x61) ∨ 0x7A < c.toNat →
      ∃ t, exec (.drawchar c x y) s = .next t ∧ t.fb = s.fb) ∧
    ∀ d : Instr, (∃ x y, d = .setpix x y) ∨ (∃ c x y, d = .drawchar c x y) →
      (∃ t, execAll [d, d] s = .next t ∧ exec d s = .next t) ∧
      (∃ t, execAll [.clear, d] s = .next t ∧ exec d { s with fb := [] } = .next t ∧ execAll [d, .clear, d] s = .next t)) ∧
  ∀ (s : State) (len : Nat) (x y : Int) (w : Beat) (beats ws : List Beat), Inv s → Idle s → s.turns = [] →
    (Instr.drawtext len x y).wellFormed = true → encode (.drawtext len x y) = .beat w → beats.length = (len + 7) / 8 →
    ∃ t u v,
      runSteps (1 + beats.length) { s with fb := [], offered := w :: (beats ++ ws) } = .next t ∧
      runSteps (2 + beats.length) { s with offered := 0x0100000000000000#64 :: w :: (beats ++ ws) } = .next u ∧
      runSteps (3 + 2 * beats.length) { s with
        offered := w :: (beats ++ 0x0100000000000000#64 :: w :: (beats ++ ws)) } = .next v ∧
      Idle t ∧ Idle u ∧ Idle v ∧ u.fb = t.fb ∧ v.fb = t.fb

/-! ### Rasterizer (41_raster.md) -/

/-- R110, R112, R89: LOOKUP of a letter puts 0x01 and the five column bytes of its glyph on the response stream, LOOKUP of any
other byte six zeros, and changes nothing else; the operation has not ended. That all the bytes join in one step is the model's
reading (log 10), that byte (n, i) of the table stands at 5n + i its layout (log 3). -/
def Obligations.LookupResponses : Prop :=
  ∀ (s : State) (c : Byte),
    (∀ n : Nat, (0x41 ≤ c.toNat ∧ c.toNat ≤ 0x5A ∧ n = c.toNat - 0x41) ∨
        (0x61 ≤ c.toNat ∧ c.toNat ≤ 0x7A ∧ n = c.toNat - 0x61 + 26) →
      exec (.lookup c) s = .next { s with
        rspq := s.rspq ++ 0x01#8 :: (List.range 5).map (fun i => s.glyphRom.toList.getD (5 * n + i) 0x00#8) }) ∧
    (c.toNat < 0x41 ∨ (0x5A < c.toNat ∧ c.toNat < 0x61) ∨ 0x7A < c.toNat →
      exec (.lookup c) s = .next { s with rspq := s.rspq ++ List.replicate 6 0x00#8 })

/-- R114: the closed form of DRAWCHAR's writes, for every glyph table: for each glyph column i, the byte at column x + i of page q
gets the part of GROM(n, i) that falls into that page; every other byte, on the display or outside FB, and everything else stays
as it was, but for the end with E_OK. The table is read with the model's GROM (its layout: log 3). -/
def Obligations.DrawcharClosedForm : Prop :=
  ∀ (s : State) (c : Byte) (x y : Int) (n : Fin 52), s.fb.wf → glyphIndex c = some n →
    ∃ t, exec (.drawchar c x y) s = .next t ∧
      t = { s with fb := t.fb, err := .ok, busy := false, port := .expectCmd } ∧
      (∀ u q : Nat, u < 128 → q < 8 →
        (∀ i : Fin 5, (u : Int) = x + i.val →
          t.fb.read (u + 128 * q) = s.fb.read (u + 128 * q) ||| columnInPage (grom s.glyphRom n i) y q) ∧
        ((u : Int) < x ∨ x + 5 ≤ u → t.fb.read (u + 128 * q) = s.fb.read (u + 128 * q))) ∧
      ∀ a, 1024 ≤ a → t.fb.read a = s.fb.read a

/-- R116: an unsupported character leaves FB as it was, and ends with E_OK. -/
def Obligations.UnsupportedDrawsNothing : Prop :=
  ∀ (s : State) (c : Byte) (x y : Int), c.toNat < 0x41 ∨ (0x5A < c.toNat ∧ c.toNat < 0x61) ∨ 0x7A < c.toNat →
    exec (.drawchar c x y) s = .next { s with err := .ok, busy := false, port := .expectCmd }

/-- R117, R83: DRAWTEXT's first stretch: TXTLEN is set, and PORT expects the text beats; with no text it ends with E_OK at once,
the cursor at (x, y). That DRAWTEXT's own execution latches its operands in OPL again, after the dispatch, and sets `rsv` to 0 is
the model's (log 12). -/
def Obligations.DrawtextBegins : Prop :=
  ∀ (s : State) (len : Nat) (x y : Int), (Instr.drawtext len x y).wellFormed = true →
    (0 < len → exec (.drawtext len x y) s = .next { s with
      opl := { opc := 0x06#8, a8 := BitVec.ofNat 8 len, x := BitVec.ofInt 16 x, y := BitVec.ofInt 16 y }
      rsv := 0#16, txtlen := len, port := .expectText ((len + 7) / 8) }) ∧
    (len = 0 → exec (.drawtext len x y) s = .next { s with
      opl := { opc := 0x06#8, a8 := 0x00#8, x := BitVec.ofInt 16 x, y := BitVec.ofInt 16 y }
      rsv := 0#16, txtlen := 0, cx := x, cy := y, err := .ok, busy := false, port := .expectCmd })

/-- R84, R76: a text beat that is not the last: lane l goes to byte 8b + l of TXTBUF when that is below the text's length, PORT counts
down, and nothing else changes. -/
def Obligations.TextbeatStoresLanes : Prop :=
  ∀ (s : State) (w : Beat) (n b : Nat), s.txtbuf.wf → s.port = .expectText n → 2 ≤ n → b + n = (s.txtlen + 7) / 8 →
    ∃ t, exec (.textbeat w) s = .next t ∧ t = { s with txtbuf := t.txtbuf, port := .expectText (n - 1) } ∧
      ∀ j, t.txtbuf.read j =
        if 8 * b ≤ j ∧ j < 8 * b + 8 ∧ j < s.txtlen then w.extractLsb' (8 * (j - 8 * b)) 8 else s.txtbuf.read j

/-- R84, R87, R117: the last text beat: its lanes are stored, and with RSV zero the text in TXTBUF[0 .. TXTLEN-1] is drawn at (X, Y) and
the operation ends with E_OK; nothing else changes. -/
def Obligations.LastTextbeatDraws : Prop :=
  ∀ (s : State) (w : Beat) (b : Nat), s.txtbuf.wf → s.port = .expectText 1 → b + 1 = (s.txtlen + 7) / 8 → s.rsv = 0#16 →
    ∃ t, exec (.textbeat w) s = .next t ∧
      (∀ j, t.txtbuf.read j =
        if 8 * b ≤ j ∧ j < s.txtlen then w.extractLsb' (8 * (j - 8 * b)) 8 else s.txtbuf.read j) ∧
      (t.cx, t.fb) = drawText s.glyphRom ((List.range s.txtlen).map t.txtbuf.read) s.opl.x.toInt s.opl.y.toInt s.fb ∧
      t = { s with
        txtbuf := t.txtbuf, fb := t.fb, cx := t.cx, cy := s.opl.y.toInt, err := .ok, busy := false, port := .expectCmd }

/-- R118 to R122: DRAWTEXT processes exactly min(L', K) characters, character k at column x + 6k and row y, and its cursor ends behind
the last. -/
def Obligations.DrawtextCharacters : Prop :=
  ∀ (rom : Vector Byte 260) (cs : List Byte) (x y : Int) (fb : Memory),
    drawText rom cs x y fb = (x + 6 * (charCount cs x : Int),
      (List.range (charCount cs x)).foldl (fun m k => drawChar rom (cs.getD k 0x00#8) (x + 6 * (k : Int)) y m) fb)

/-- R123, R107: DRAWTEXT writes no byte of the display columns 126 and 127, since every character starts at column 121 at most, and no
byte outside FB. -/
def Obligations.TextNeverReachesRightEdge : Prop :=
  ∀ (rom : Vector Byte 260) (cs : List Byte) (x y : Int) (fb : Memory), fb.wf →
    ∀ a, 126 ≤ a % 128 ∨ 1024 ≤ a → (drawText rom cs x y fb).2.read a = fb.read a

/-- R83, R84, R117: a whole DRAWTEXT with its text beats: its text is drawn at (x, y), it ends with E_OK, and exactly its beats
are consumed; TXTBUF changes only below the text's length, and nothing else changes. -/
def Obligations.DrawtextWholeOperation : Prop :=
  ∀ (s : State) (len : Nat) (x y : Int) (w : Beat) (beats ws : List Beat), Inv s → Idle s → s.turns = [] →
    (Instr.drawtext len x y).wellFormed = true → encode (.drawtext len x y) = .beat w → beats.length = (len + 7) / 8 →
    s.offered = w :: (beats ++ ws) →
    ∃ t, runSteps (1 + beats.length) s = .next t ∧
      (t.cx, t.fb) = drawText s.glyphRom (textOf beats len) x y s.fb ∧
      (∀ j, t.txtbuf.read j = if j < len then (textOf beats len).getD j 0x00#8 else s.txtbuf.read j) ∧
      t = { s with
        offered := ws, opl := (accept w s).opl, txtbuf := t.txtbuf, txtlen := len, fb := t.fb, cx := t.cx, cy := y, err := .ok }

/-! ### Sequencer (42_sequencer.md) -/

/-- R129, R130: INIT's first stretch: CSTATE <- INITIALIZING, and the delay of T_STAB begins. A delay of 0 is over at once: it is
logged, and SEQ_K <- 0. That the entry is appended when the delay is over is the model's reading (log 9), that the stretch ends
before the first issue even then its choice (log 20). -/
def Obligations.InitStarts : Prop :=
  ∀ s : State, exec .init s = .next { s with
    cstate := .initializing, stab := s.tStab, seqK := if s.tStab = 0 then 0 else s.seqK
    log := if s.tStab = 0 then s.log ++ [.delay 0] else s.log }

/-- R128: the 28 bytes of the initialization sequence, written out from the rule's table; each step sets SEQ_K and issues its byte as one
command transaction, and nothing else changes. -/
def Obligations.IseqStepsIssueTheirBytes : Prop :=
  ∀ e ∈ [(Instr.iseq00, 0, 0xAE#8), (.iseq01, 1, 0x20#8), (.iseq02, 2, 0x00#8), (.iseq03, 3, 0xB0#8), (.iseq04, 4, 0xC8#8),
         (.iseq05, 5, 0x00#8), (.iseq06, 6, 0x10#8), (.iseq07, 7, 0x40#8), (.iseq08, 8, 0x81#8), (.iseq09, 9, 0xFF#8),
         (.iseq10, 10, 0xA1#8), (.iseq11, 11, 0xA6#8), (.iseq12, 12, 0xA8#8), (.iseq13, 13, 0x3F#8)] ++
        [(Instr.iseq14, 14, 0xA4#8), (.iseq15, 15, 0xD3#8), (.iseq16, 16, 0x00#8), (.iseq17, 17, 0xD5#8), (.iseq18, 18, 0xF0#8),
         (.iseq19, 19, 0xD9#8), (.iseq20, 20, 0x22#8), (.iseq21, 21, 0xDA#8), (.iseq22, 22, 0x12#8), (.iseq23, 23, 0xDB#8),
         (.iseq24, 24, 0x20#8), (.iseq25, 25, 0x8D#8), (.iseq26, 26, 0x14#8), (.iseq27, 27, 0xAF#8)],
    ∀ s : State, exec e.1 s = .next { s with
      seqK := e.2.1, txp := some (.cmd e.2.2), log := s.log ++ [.tx (.cmd e.2.2) .pending] }

/-- R132, R131: the four steps of a page issue 0xB0 + P, 0x00, 0x10 and the 128 bytes FB[128P] .. FB[128P+127]; nothing else changes but
the counters. -/
def Obligations.PageStepsIssueTheirTransactions : Prop :=
  ∀ (s : State) (p : Nat), p < 8 →
    exec (.pageSel p) s = .next { s with
      seqP := p, seqPh := 0, txp := some (.cmd (BitVec.ofNat 8 (0xB0 + p)))
      log := s.log ++ [.tx (.cmd (BitVec.ofNat 8 (0xB0 + p))) .pending] } ∧
    exec .colLo0 s = .next { s with
      seqPh := 1, txp := some (.cmd 0x00#8), log := s.log ++ [.tx (.cmd 0x00#8) .pending] } ∧
    exec .colHi0 s = .next { s with
      seqPh := 2, txp := some (.cmd 0x10#8), log := s.log ++ [.tx (.cmd 0x10#8) .pending] } ∧
    (s.seqP = p → exec .pageData s = .next { s with
      seqPh := 3, txp := some (.data ((List.range 128).map fun c => s.fb.read (128 * p + c)))
      log := s.log ++ [.tx (.data ((List.range 128).map fun c => s.fb.read (128 * p + c))) .pending] })

/-- The model's own three faults, in states no run reaches (log 17): PAGE_DATA where SEQ_P is no page; TEXTBEAT where PORT expects
no text; and the ODB's move where the sequencer counters select no step: SEQ_K past 27 in INIT, SEQ_PH past 3 in PRESENT, or SEQ_P
past 7 at its page-select step. -/
def Obligations.ModelsOwnStops : Prop :=
  ∀ (s : State) (w : Beat),
    (8 ≤ s.seqP → exec .pageData s = .fault (.fbAddress (128 * s.seqP))) ∧
    (s.port = .expectCmd → exec (.textbeat w) s = .fault .noTextExpected) ∧
    (s.rst = false → s.busy = true → s.port = .expectCmd → s.txp = none → s.turns = [] →
      (s.cstate = .initializing → s.stab = 0 → 28 ≤ s.seqK → step s = .fault .noSuchStep) ∧
      (s.cstate = .updating → 4 ≤ s.seqPh → step s = .fault .noSuchStep) ∧
      (s.cstate = .updating → s.seqPh = 0 → 8 ≤ s.seqP → s.seqP < 16 → step s = .fault .noSuchStep))

/-- R91: the frames of the transactions, the address they go to, and that every data transaction the ODB issues has exactly 128
bytes. R90: outside reset `rsp_valid` is 1 while RSPQ is not empty, with its first byte as `rsp_data`. R94: `tx_valid` rises with
a transaction; that it stays 1 until the transport's answer is the model's choice (log 19). All are down in reset. -/
def Obligations.FramesAndOutputs : Prop :=
  ((∀ b, txFrame (.cmd b) = [0x00#8, b]) ∧ (∀ ds, txFrame (.data ds) = 0x40#8 :: ds) ∧ (∀ t, txAddr t = 0x3C#7)) ∧
  (∀ s t : State, Inv s → step s = .next t → ∀ ds, t.txp = some (.data ds) → ds.length = 128) ∧
  ∀ s : State,
    (rspValid s = true ↔ s.rst = false ∧ s.rspq ≠ []) ∧
    (∀ b bs, s.rst = false → s.rspq = b :: bs → rspData s = some b) ∧
    (rspValid s = false → rspData s = none) ∧
    (txValid s = true ↔ s.rst = false ∧ ∃ t, s.txp = some t)

/-- R131: in READY, PRESENT sets CSTATE <- UPDATING and begins at page 0, phase 0. That its first stretch ends there, with nothing
else changed and the first transaction issued by a turn of its own, is the model's choice (log 20): R27 and R131 run it on to
BusIssue's wait. -/
def Obligations.PresentStarts : Prop :=
  ∀ s : State, s.cstate = .ready → exec .present s = .next { s with cstate := .updating, seqP := 0, seqPh := 0 }

/-- R135, R143: in any other state PRESENT ends with E_STATE, issues nothing and leaves CSTATE and FB unchanged. -/
def Obligations.PresentNeedsReady : Prop :=
  ∀ s : State, s.cstate ≠ .ready → exec .present s = .next { s with err := .state, busy := false, port := .expectCmd }

/-- R133, R145: a Fail ends the operation with E_TRANSPORT and CSTATE = FAILED; the log's last entry becomes Fail, and nothing else
changes. -/
def Obligations.FailEndsOperation : Prop :=
  ∀ (s : State) (us : List Turn) (t : Tx) (l : List LogEntry), s.turns = .answer .fail :: us → s.txp = some t →
    s.log = l ++ [.tx t .pending] →
    step s = .next { s with
      turns := us, txp := none, log := l ++ [.tx t .fail], cstate := .failed, err := .transport, busy := false
      port := .expectCmd }

/-- R125, R130, R131: an Ok settles the log's last entry, and the counters take the values of the loop's next turn; after the last
one they stay, CSTATE becomes READY and the operation ends with E_OK. That the counters move with the answer is the model's
reading (log 8), that the next issue is a turn of its own its choice (log 20). -/
def Obligations.OkAdvancesSequencer : Prop :=
  ∀ (s : State) (us : List Turn) (t : Tx) (l : List LogEntry), s.turns = .answer .ok :: us → s.txp = some t →
    s.log = l ++ [.tx t .pending] →
    (s.cstate = .initializing → s.seqK < 27 →
      step s = .next { s with turns := us, txp := none, log := l ++ [.tx t .ok], seqK := s.seqK + 1 }) ∧
    (s.cstate = .initializing → s.seqK = 27 →
      step s = .next { s with
        turns := us, txp := none, log := l ++ [.tx t .ok], cstate := .ready, err := .ok, busy := false
        port := .expectCmd }) ∧
    (s.cstate = .updating → s.seqPh < 3 →
      step s = .next { s with turns := us, txp := none, log := l ++ [.tx t .ok], seqPh := s.seqPh + 1 }) ∧
    (s.cstate = .updating → s.seqPh = 3 → s.seqP < 7 →
      step s = .next { s with turns := us, txp := none, log := l ++ [.tx t .ok], seqP := s.seqP + 1, seqPh := 0 }) ∧
    (s.cstate = .updating → s.seqPh = 3 → s.seqP = 7 →
      step s = .next { s with
        turns := us, txp := none, log := l ++ [.tx t .ok], cstate := .ready, err := .ok, busy := false
        port := .expectCmd })

/-- R126, R158: the ODB's three waits: for the transport's answer, for text beats the host does not offer, and for response bytes the
host does not take. -/
def Obligations.OdbWaits : Prop :=
  ∀ s : State, Inv s → s.turns = [] →
    (s.txp ≠ none → step s = .next s) ∧
    (∀ n, s.port = .expectText n → s.offered = [] → step s = .next s) ∧
    (s.rspq ≠ [] → step s = .next s)

/-- R137: no command but INIT and PRESENT issues a transaction, and neither does the ODB on its own. -/
def Obligations.OnlyInitAndPresentIssue : Prop :=
  (∀ s t : State, ∀ i : Instr,
    (i = .clear ∨ (∃ x y, i = .setpix x y) ∨ (∃ p, i = .pageslice p) ∨ (∃ c, i = .lookup c) ∨ (∃ c x y, i = .drawchar c x y) ∨
      (∃ n x y, i = .drawtext n x y) ∨ (∃ w, i = .textbeat w)) →
    exec i s = .next t → t.txp = s.txp ∧ t.log = s.log) ∧
  (∀ s t : State, Inv s → step s = .next t → t.txp ≠ none → t.txp ≠ s.txp →
    s.cstate = .initializing ∨ s.cstate = .updating)

/-- R138, R130: a whole INIT with every answer Ok: exactly the delay and the 28 Ok entries join the log, and it ends in READY with
E_OK, SEQ_K at 27. The turns (log 5) and one of them for each unit of the delay (log 9) are the model's. -/
def Obligations.InitWholeOperation : Prop :=
  ∀ (s : State) (ws : List Beat) (us : List Turn), Inv s → Idle s → s.offered = 0x1000000000000000#64 :: ws →
    s.turns = startTurns s.tStab ++ okTurns 28 ++ us →
    runSteps (1 + s.tStab + 56) s = .next { s with
      offered := ws, turns := us, opl := { opc := 0x10#8, a8 := 0#8, x := 0#16, y := 0#16 }
      cstate := .ready, err := .ok, seqK := 27
      log := s.log ++ [.delay s.tStab] ++ initLog }

/-- R138, R133: an INIT whose transaction m = j + 1 fails: the delay, j Ok entries and one Fail entry join the log, and it ends in
FAILED with E_TRANSPORT. The turns are the model's (log 5, log 9). -/
def Obligations.InitFailsAtTransaction : Prop :=
  ∀ (s : State) (j : Nat) (ws : List Beat) (us : List Turn), Inv s → Idle s → j < 28 →
    s.offered = 0x1000000000000000#64 :: ws →
    s.turns = startTurns s.tStab ++ okTurns j ++ [.odb, .answer .fail] ++ us →
    ∃ t, runSteps (1 + s.tStab + 2 * j + 2) s = .next t ∧ Idle t ∧ t.cstate = .failed ∧ t.err = .transport ∧ t.fb = s.fb ∧
      t.offered = ws ∧ t.turns = us ∧ t.txp = none ∧
      t.log = s.log ++ [.delay s.tStab] ++ initLog.take j ++ [.tx (.cmd (iseqAt j)) .fail]

/-- R138, R131, R132: a whole PRESENT with every answer Ok: exactly the 32 Ok entries join the log, page by page, FB in address
order, and it ends in READY with E_OK, SEQ_P at 7 and SEQ_PH at 3. The turns are the model's (log 5). -/
def Obligations.PresentWholeOperation : Prop :=
  ∀ (s : State) (ws : List Beat) (us : List Turn), Inv s → Idle s → s.cstate = .ready →
    s.offered = 0x1100000000000000#64 :: ws → s.turns = [.odb] ++ okTurns 32 ++ us →
    runSteps 65 s = .next { s with
      offered := ws, turns := us, opl := { opc := 0x11#8, a8 := 0#8, x := 0#16, y := 0#16 }
      err := .ok, seqP := 7, seqPh := 3
      log := s.log ++ presentLog s.fb }

/-- R138, R133: a PRESENT whose transaction m = j + 1 fails: j Ok entries and one Fail entry join the log, and it ends in FAILED
with E_TRANSPORT. The turns are the model's (log 5). -/
def Obligations.PresentFailsAtTransaction : Prop :=
  ∀ (s : State) (j : Nat) (ws : List Beat) (us : List Turn), Inv s → Idle s → s.cstate = .ready → j < 32 →
    s.offered = 0x1100000000000000#64 :: ws → s.turns = [.odb] ++ okTurns j ++ [.odb, .answer .fail] ++ us →
    ∃ t, runSteps (1 + 2 * j + 2) s = .next t ∧ Idle t ∧ t.cstate = .failed ∧ t.err = .transport ∧ t.fb = s.fb ∧
      t.offered = ws ∧ t.turns = us ∧ t.txp = none ∧
      t.log = s.log ++ (presentLog s.fb).take j ++ [.tx (pageTx (j / 4) (j % 4) s.fb) .fail]

/-- R74: from the start of a PRESENT to its end FB is constant. -/
def Obligations.PresentSnapshot : Prop :=
  ∀ s t : State, Inv s → s.cstate = .updating → step s = .next t → resetting s = false → t.fb = s.fb

/-- R134: every change of CSTATE is a row of the rule's table. -/
def Obligations.LifecycleTransitions : Prop :=
  ∀ s t : State, Inv s → step s = .next t →
    cstateEdge s.cstate t.cstate = true ∨ (resetting s = true ∧ t.cstate = .uninit)

/-- R161: reset is the only event that sets CSTATE to UNINIT. -/
def Obligations.OnlyResetUninitializes : Prop :=
  ∀ s t : State, step s = .next t → t.cstate = .uninit → s.cstate = .uninit ∨ resetting s = true

/-! ### Reset and the whole machine (70_reset_and_hazards.md, 10_state.md) -/

/-- R160: while reset is asserted `cmd_ready`, `rsp_valid` and `tx_valid` are 0; when it is released every element holds its reset value,
FB and TXTBUF the bytes drawn; and the reset appends Reset to the log. -/
def Obligations.ResetValues : Prop :=
  (∀ s : State, s.rst = true → cmdReady s = false ∧ rspValid s = false ∧ txValid s = false) ∧
  ∀ (s : State) (fbDraw txtDraw : List Host.Cell) (us : List Turn), s.rst = false →
    s.turns = .assertRst fbDraw txtDraw :: .releaseRst :: us →
    ∃ t', step s = .next t' ∧ t'.rst = true ∧
      ∃ t, step t' = .next t ∧ t.rst = false ∧ status t = 0x0000#16 ∧ t.cstate = .uninit ∧ t.busy = false ∧ t.err = .ok ∧
        t.port = .expectCmd ∧ t.opl = { opc := 0#8, a8 := 0#8, x := 0#16, y := 0#16 } ∧ t.cx = 0 ∧ t.cy = 0 ∧ t.txtlen = 0 ∧
        t.seqK = 0 ∧ t.seqP = 0 ∧ t.seqPh = 0 ∧ t.stab = 0 ∧ t.rspq = [] ∧ t.txp = none ∧ t.glyphRom = s.glyphRom ∧
        t.fb = Memory.ofCells 1024 fbDraw ∧ t.txtbuf = Memory.ofCells 255 txtDraw ∧ t.log = s.log ++ [.reset]

/-- I3, R31: a reset can leave FB at any contents: for every byte wanted at every address there is a draw that leaves it. -/
def Obligations.ResetDrawsAnyFramebuffer : Prop :=
  ∀ (s : State) (want : Nat → Byte) (us : List Turn), s.rst = false → ∃ fbDraw : List Host.Cell, ∃ t,
    step { s with turns := .assertRst fbDraw [] :: us } = .next t ∧ ∀ a, a < 1024 → t.fb.read a = want a

/-- R162: a transaction outstanding at reset stays Pending in the log, and the transport's answer to it after the reset is
ignored, whatever transaction is outstanding then; the host's offers stay. When the log gains Reset is the model's reading (log
15); the list of abandoned transactions is its own (log 21). -/
def Obligations.ResetAbandonsTransaction : Prop :=
  (∀ (s : State) (fbDraw txtDraw : List Host.Cell) (us : List Turn) (t : Tx) (l : List LogEntry), s.rst = false →
    s.txp = some t → s.log = l ++ [.tx t .pending] → s.turns = .assertRst fbDraw txtDraw :: .releaseRst :: us →
    ∃ t', runSteps 2 s = .next t' ∧ Idle t' ∧ t'.txp = none ∧ t'.cstate = .uninit ∧ t'.abandoned = s.abandoned ++ [t] ∧
      t'.log = l ++ [.tx t .pending, .reset] ∧ t'.offered = s.offered ∧ t'.turns = us) ∧
  ∀ (s : State) (n : Nat) (r : Answer) (us : List Turn), s.turns = .lateAnswer n r :: us →
    step s = .next { s with turns := us, abandoned := s.abandoned.eraseIdx n }

/-- R33, R50: nothing writes GLYPH_ROM, nor T_STAB. -/
def Obligations.ParametersNeverChange : Prop :=
  ∀ s t : State, step s = .next t → t.glyphRom = s.glyphRom ∧ t.tStab = s.tStab

/-- The state after reset meets the invariant. Its FB and TXTBUF contents are the model's choice (log 1, log 2). -/
def Obligations.ResetMeetsInvariant : Prop := Inv State.reset

/-- Every step keeps the invariant: memories canonical and in range (R56, R66), counters in range (R45), nothing pending while idle
(R47, R49), INITIALIZING and UPDATING only while BUSY with the transaction their counters select (R130, R131, R134), the log in
agreement with TXP (R125, R162). -/
def Obligations.StepKeepsInvariant : Prop :=
  ∀ s t : State, Inv s → step s = .next t → Inv t

/-- From every state that meets the invariant the step answers a next state: the ODB has no trap and no stop (R148, R149, R158). -/
def Obligations.MachineNeverStops : Prop :=
  ∀ s : State, Inv s → ∃ t, step s = .next t

/-! ### The twin of PagesliceWholeOperation -/

/-- R89, R90, R112: a whole LOOKUP, the host taking each byte: the host gets the six bytes in order (0x01 and GROM(n, 0) to GROM(n, 4) for
a character with a glyph, six zeros for any other), and only then the operation ends with E_OK. The turns are the model's (log 5, log
10), the table is read with the model's GROM (its layout: log 3). -/
def Obligations.LookupWholeOperation : Prop :=
  ∀ (s : State) (c : Byte) (bs : List Byte) (w : Beat) (ws : List Beat) (us : List Turn), Inv s → Idle s →
    ((∃ n, glyphIndex c = some n ∧ bs = 0x01#8 :: [0, 1, 2, 3, 4].map (grom s.glyphRom n)) ∨
      (glyphIndex c = none ∧ bs = List.replicate 6 0x00#8)) →
    encode (.lookup c) = .beat w → s.offered = w :: ws → s.turns = [.odb] ++ List.replicate 6 .take ++ [.odb] ++ us →
    runSteps 8 s = .next { s with
      offered := ws, turns := us, opl := (accept w s).opl, err := .ok, rspTaken := s.rspTaken ++ bs } ∧
    ∀ n t, 1 ≤ n → n < 8 → runSteps n s = .next t → t.busy = true
end

