-- ==== Sys2Proof/Laws/Decode.lean ====
section
/-! SUPPORT. The decoder's and the encoder's small laws: the fields of an assembled command word, operand ranges, and what a
decoded command word can be. -/

namespace Sys2Proof

section Fields

variable (opc a8 : Byte) (x y : Half)

@[simp] theorem fieldOpc_commandWord : fieldOpc (commandWord opc a8 x y) = opc := by
  unfold fieldOpc commandWord
  ext i hi
  simp [BitVec.getElem_extractLsb', BitVec.getLsbD_setWidth]
  interval_cases i <;> simp

@[simp] theorem fieldA8_commandWord : fieldA8 (commandWord opc a8 x y) = a8 := by
  unfold fieldA8 commandWord
  ext i hi
  simp [BitVec.getElem_extractLsb', BitVec.getLsbD_setWidth]
  interval_cases i <;> simp

@[simp] theorem fieldRsv_commandWord : fieldRsv (commandWord opc a8 x y) = 0#16 := by
  unfold fieldRsv commandWord
  ext i hi
  simp [BitVec.getElem_extractLsb', BitVec.getLsbD_setWidth]
  interval_cases i <;> simp

@[simp] theorem fieldX_commandWord : fieldX (commandWord opc a8 x y) = x := by
  unfold fieldX commandWord
  ext i hi
  simp [BitVec.getElem_extractLsb', BitVec.getLsbD_setWidth]
  interval_cases i <;> simp

@[simp] theorem fieldY_commandWord : fieldY (commandWord opc a8 x y) = y := by
  unfold fieldY commandWord
  ext i hi
  simp [BitVec.getElem_extractLsb', BitVec.getLsbD_setWidth]
  interval_cases i <;> simp

end Fields

/-- A word is determined by its five fields (R77). -/
theorem word_ext {v w : Beat} (h1 : fieldOpc v = fieldOpc w) (h2 : fieldA8 v = fieldA8 w) (h3 : fieldRsv v = fieldRsv w)
    (h4 : fieldX v = fieldX w) (h5 : fieldY v = fieldY w) : v = w := by
  have bit : ∀ (lo n : Nat), v.extractLsb' lo n = w.extractLsb' lo n → ∀ i, lo ≤ i → i < lo + n →
      v.getLsbD i = w.getLsbD i := by
    intro lo n h i hlo hi
    have := congrArg (fun b => b.getLsbD (i - lo)) h
    simpa [BitVec.getLsbD_extractLsb', show i - lo < n by omega, show lo + (i - lo) = i by omega] using this
  apply BitVec.eq_of_getLsbD_eq
  intro i hi
  by_cases c1 : i < 16
  · exact bit 0 16 h5 i (by omega) (by omega)
  by_cases c2 : i < 32
  · exact bit 16 16 h4 i (by omega) (by omega)
  by_cases c3 : i < 48
  · exact bit 32 16 h3 i (by omega) (by omega)
  by_cases c4 : i < 56
  · exact bit 48 8 h2 i (by omega) (by omega)
  · exact bit 56 8 h1 i (by omega) (by omega)

/-- A word whose reserved field is 0 is the word its fields assemble to. -/
theorem commandWord_fields {w : Beat} (h : fieldRsv w = 0#16) :
    commandWord (fieldOpc w) (fieldA8 w) (fieldX w) (fieldY w) = w := by
  apply word_ext <;> simp [h]

section Masks

variable (v w : Beat)

@[simp] theorem fieldOpc_and : fieldOpc (v &&& w) = fieldOpc v &&& fieldOpc w := BitVec.extractLsb'_and
@[simp] theorem fieldA8_and : fieldA8 (v &&& w) = fieldA8 v &&& fieldA8 w := BitVec.extractLsb'_and
@[simp] theorem fieldRsv_and : fieldRsv (v &&& w) = fieldRsv v &&& fieldRsv w := BitVec.extractLsb'_and
@[simp] theorem fieldX_and : fieldX (v &&& w) = fieldX v &&& fieldX w := BitVec.extractLsb'_and
@[simp] theorem fieldY_and : fieldY (v &&& w) = fieldY v &&& fieldY w := BitVec.extractLsb'_and

end Masks

/-- Which fields an opcode uses (R81): A8, and X and Y. -/
def usesA8 : Opcode → Bool
  | .pageslice => true
  | .lookup => true
  | .drawchar => true
  | .drawtext => true
  | .clear => false
  | .setpix => false
  | .init => false
  | .present => false

/-- Which opcodes use X and Y (R81). -/
def usesXY : Opcode → Bool
  | .setpix => true
  | .drawchar => true
  | .drawtext => true
  | .clear => false
  | .pageslice => false
  | .lookup => false
  | .init => false
  | .present => false

/-- A word matches its opcode's row exactly when RSV and every field the opcode does not use are 0 (R81). -/
theorem matches_iff (o : Opcode) (w : Beat) :
    w &&& maskOf o = patternOf o ↔
      fieldOpc w = opcodeByte o ∧ fieldRsv w = 0#16 ∧ (usesA8 o = false → fieldA8 w = 0#8) ∧
      (usesXY o = false → fieldX w = 0#16 ∧ fieldY w = 0#16) := by
  constructor
  · intro h
    have h1 := congrArg fieldOpc h
    have h2 := congrArg fieldA8 h
    have h3 := congrArg fieldRsv h
    have h4 := congrArg fieldX h
    have h5 := congrArg fieldY h
    simp only [fieldOpc_and, fieldA8_and, fieldRsv_and, fieldX_and, fieldY_and] at h1 h2 h3 h4 h5
    have m8 : ∀ b : Byte, b &&& 0xFF#8 = b := fun b => BitVec.and_allOnes
    have m16 : ∀ b : Half, b &&& 0xFFFF#16 = b := fun b => BitVec.and_allOnes
    cases o <;>
      simp only [maskOf, patternOf, usesA8, usesXY, opcodeByte, fieldOpc, fieldA8, fieldRsv, fieldX, fieldY,
        BitVec.reduceExtractLsb', m8, m16] at * <;> simp_all
  · rintro ⟨h1, h3, h2, h45⟩
    cases o <;> simp only [usesA8, usesXY] at h2 h45 <;> apply word_ext <;>
      simp_all [maskOf, patternOf, opcodeByte] <;> simp [fieldOpc, fieldA8, fieldRsv, fieldX, fieldY]

/-- The match of an opcode is its word with all operands 0. -/
theorem commandWord_pattern (o : Opcode) : commandWord (opcodeByte o) 0#8 0#16 0#16 = patternOf o := by
  cases o <;> decide

@[simp] theorem opcodeOf_opcodeByte (o : Opcode) : opcodeOf (opcodeByte o) = some o := by
  cases o <;> rfl

theorem opcodeOf_eq_some {b : Byte} {o : Opcode} (h : opcodeOf b = some o) : b = opcodeByte o := by
  have key : ∀ b : BitVec 8, ∀ o, opcodeOf b = some o → b = opcodeByte o := by
    intro b o h
    unfold opcodeOf at h
    apply BitVec.eq_of_toNat_eq
    split at h <;> simp_all [opcodeByte]
    all_goals subst h; rfl
  exact key b o h

/-- A coordinate in range is its field, sign-extended (R78). -/
theorem sext16_coordField {v : Int} (h : coordOk v) : sext16 (coordField v) = v := by
  unfold sext16 coordField
  rw [BitVec.toInt_ofInt]
  obtain ⟨h1, h2⟩ := h
  rw [Int.bmod_def]
  omega

theorem coordField_sext16 (v : Half) : coordField (sext16 v) = v := by simp [coordField, sext16]

theorem coordOk_sext16 (v : Half) : coordOk (sext16 v) := by
  unfold sext16
  have h1 := BitVec.le_toInt v
  have h2 := BitVec.toInt_lt (x := v)
  constructor <;> omega

/-- An A8 operand in range is its field (R78). -/
theorem toNat_ofNat_a8 {n : Nat} (h : fieldA8Ok n) : (BitVec.ofNat 8 n).toNat = n := by
  simp only [BitVec.toNat_ofNat]
  have : n ≤ 255 := h
  omega

/-- A decoded command word: its opcode is legal, its reserved and unused fields are 0, and it is the instruction its fields name. -/
theorem decodeCommand_instr {w : Beat} {i : Instr} (h : decodeCommand w = .instr i) :
    ∃ o, opcodeOf (fieldOpc w) = some o ∧ w &&& maskOf o = patternOf o ∧ i = buildCommand o w := by
  unfold decodeCommand at h
  cases ho : opcodeOf (fieldOpc w) with
  | none => simp [ho] at h
  | some o =>
    simp only [ho] at h
    split at h
    · exact ⟨o, rfl, ‹_›, by simpa using h.symm⟩
    · simp at h

/-- A rejected command word has an illegal opcode, or a legal one with a nonzero reserved or unused field; nothing else rejects it. -/
theorem decodeCommand_reject {w : Beat} {r : Reject} (h : decodeCommand w = .reject r) :
    (r = .illegalOpcode ∧ opcodeOf (fieldOpc w) = none) ∨
    (r = .reservedField ∧ ∃ o, opcodeOf (fieldOpc w) = some o ∧ w &&& maskOf o ≠ patternOf o) := by
  unfold decodeCommand at h
  cases ho : opcodeOf (fieldOpc w) with
  | none => simp [ho] at h; exact .inl ⟨h.symm, rfl⟩
  | some o =>
    simp only [ho] at h
    split at h
    · simp at h
    · exact .inr ⟨by simpa using h.symm, o, rfl, ‹_›⟩

/-- The ISEQ steps and no others. -/
theorem iseqInstr_isSome {k : Nat} : (iseqInstr k).isSome ↔ k < initLen := by
  unfold iseqInstr initLen
  split <;> simp_all
  omega

/-- The byte of ISEQ at an index decodes there to the index's step. -/
theorem decodeInit_iseqAt {k : Nat} {i : Instr} (h : iseqInstr k = some i) : decodeInit k (iseqAt k) = .instr i := by
  simp [decodeInit, h]

/-- The byte that names a step of a page decodes to that step. -/
theorem decodePage_pageByte {p ph : Nat} (hp : p < Config.pages) (hph : ph ≤ 3) :
    decodePage ph (pageByte p ph) = .instr (match ph with | 0 => .pageSel p | 1 => .colLo0 | 2 => .colHi0 | _ => .pageData) := by
  simp only [Config.pages] at hp
  interval_cases ph
  · interval_cases p <;> rfl
  · rfl
  · rfl
  · rfl

end Sys2Proof
end

