-- ==== Sys2Proof/Laws/Memory.lean ====
section
/-! SUPPORT. The laws of the byte spaces: read after write, the canonical form and the bound are kept, and a memory in canonical form
is determined by what it reads as. -/

namespace Sys2Proof.Machine

@[simp] theorem Memory.read_nil (x : Nat) : Memory.read [] x = Memory.blank := rfl

@[simp] theorem Memory.read_zero (x : Nat) : Memory.zero.read x = 0x00#8 := rfl

theorem Memory.read_cons (a : Nat) (b : Byte) (m : Memory) (x : Nat) :
    Memory.read ((a, b) :: m) x = if a = x then b else m.read x := rfl

@[simp] theorem Memory.wf_nil : Memory.wf [] := ⟨.nil, by simp⟩

theorem Memory.wf_zero : Memory.zero.wf := Memory.wf_nil

theorem Memory.within_zero (n : Nat) : Memory.zero.within n := by simp [Memory.zero]

/-- The head of a canonical memory lies below the rest, and is not blank. -/
theorem Memory.wf_cons {a : Nat} {b : Byte} {m : Memory} :
    Memory.wf ((a, b) :: m) ↔ (∀ c ∈ m, a < c.1) ∧ b ≠ Memory.blank ∧ m.wf := by
  simp only [Memory.wf, List.pairwise_cons, List.mem_cons, forall_eq_or_imp]
  tauto

/-- An address below every listed one reads as blank. -/
theorem Memory.read_of_lt {m : Memory} {x : Nat} (h : ∀ c ∈ m, x < c.1) : m.read x = Memory.blank := by
  induction m with
  | nil => rfl
  | cons c m ih =>
    have hc : x < c.1 := h c (by simp)
    obtain ⟨a, b⟩ := c
    rw [Memory.read_cons, if_neg (by simp at hc; omega)]
    exact ih fun d hd => h d (by simp [hd])

/-- A canonical memory whose listed addresses are below `n` reads as blank from `n` on. -/
theorem Memory.read_of_within {m : Memory} {n x : Nat} (h : m.within n) (hx : n ≤ x) : m.read x = Memory.blank := by
  induction m with
  | nil => rfl
  | cons c m ih =>
    have hc : c.1 < n := h c (by simp)
    obtain ⟨a, b⟩ := c
    rw [Memory.read_cons, if_neg (by simp at hc; omega)]
    exact ih fun d hd => h d (by simp [hd])

/-- Every address a write lists was listed before or is the one written. -/
theorem Memory.mem_write {m : Memory} {x : Nat} {v : Byte} {c : Host.Cell} (h : c ∈ m.write x v) :
    c ∈ m ∨ (c = (x, v) ∧ v ≠ Memory.blank) := by
  induction m with
  | nil =>
    simp only [Memory.write] at h
    split at h <;> simp_all
  | cons d m ih =>
    obtain ⟨a, b⟩ := d
    simp only [Memory.write] at h
    split at h
    · split at h
      · exact .inl h
      · rcases List.mem_cons.1 h with rfl | h
        · exact .inr ⟨rfl, ‹_›⟩
        · exact .inl h
    · split at h
      · split at h
        · exact .inl (List.mem_cons_of_mem _ h)
        · rcases List.mem_cons.1 h with rfl | h
          · exact .inr ⟨rfl, ‹_›⟩
          · exact .inl (List.mem_cons_of_mem _ h)
      · simp only [List.mem_cons] at h ⊢
        rcases h with h | h
        · exact .inl (.inl h)
        · rcases ih h with h | h
          · exact .inl (.inr h)
          · exact .inr h

/-- A write keeps the canonical form. -/
theorem Memory.write_wf {m : Memory} (h : m.wf) (x : Nat) (v : Byte) : (m.write x v).wf := by
  induction m with
  | nil =>
    simp only [Memory.write]
    split
    · exact h
    · exact Memory.wf_cons.2 ⟨by simp, ‹_›, Memory.wf_nil⟩
  | cons d m ih =>
    obtain ⟨a, b⟩ := d
    obtain ⟨hlt, hb, hm⟩ := Memory.wf_cons.1 h
    simp only [Memory.write]
    split
    · split
      · exact h
      · refine Memory.wf_cons.2 ⟨?_, ‹_›, h⟩
        intro c hc
        rcases List.mem_cons.1 hc with rfl | hc
        · simpa
        · have := hlt c hc; omega
    · split
      · subst x
        split
        · exact hm
        · exact Memory.wf_cons.2 ⟨hlt, ‹_›, hm⟩
      · refine Memory.wf_cons.2 ⟨?_, hb, ih hm⟩
        intro c hc
        rcases Memory.mem_write hc with hc | ⟨rfl, -⟩
        · exact hlt c hc
        · simp; omega

/-- A write inside the space keeps every listed address inside it. -/
theorem Memory.write_within {m : Memory} {n : Nat} (h : m.within n) {x : Nat} (hx : x < n) (v : Byte) :
    (m.write x v).within n := by
  intro c hc
  rcases Memory.mem_write hc with hc | ⟨rfl, -⟩
  · exact h c hc
  · exact hx

/-- A read after a write, in canonical form. -/
theorem Memory.read_write {m : Memory} (h : m.wf) (x : Nat) (v : Byte) (y : Nat) :
    (m.write x v).read y = if y = x then v else m.read y := by
  induction m with
  | nil =>
    simp only [Memory.write]
    by_cases hv : v = Memory.blank
    · simp [hv]
    · simp [hv, Memory.read_cons, eq_comm]
  | cons d m ih =>
    obtain ⟨a, b⟩ := d
    obtain ⟨hlt, hb, hm⟩ := Memory.wf_cons.1 h
    simp only [Memory.write]
    split
    · rename_i hxa
      have hx : Memory.read ((a, b) :: m) x = Memory.blank := by
        apply Memory.read_of_lt
        intro c hc
        rcases List.mem_cons.1 hc with rfl | hc
        · exact hxa
        · exact hxa.trans (hlt c hc)
      split
      · by_cases hy : y = x
        · subst y; simp [*]
        · simp [hy]
      · simp [Memory.read_cons, eq_comm]
    · split
      · subst x
        have hx : Memory.read m a = Memory.blank := Memory.read_of_lt hlt
        split
        · by_cases hy : y = a
          · subst y; simp [*]
          · simp [hy, Memory.read_cons, Ne.symm hy]
        · by_cases hy : y = a
          · simp [hy, Memory.read_cons]
          · simp [hy, Memory.read_cons, Ne.symm hy]
      · by_cases hy : y = a
        · subst y
          have : a ≠ x := by omega
          simp [Memory.read_cons, this]
        · simp [Memory.read_cons, Ne.symm hy, ih hm]

theorem Memory.read_write_same {m : Memory} (h : m.wf) (x : Nat) (v : Byte) : (m.write x v).read x = v := by
  simp [Memory.read_write h]

theorem Memory.read_write_other {m : Memory} (h : m.wf) {x y : Nat} (hy : y ≠ x) (v : Byte) :
    (m.write x v).read y = m.read y := by simp [Memory.read_write h, hy]

/-- Two memories in canonical form that read alike are equal. -/
theorem Memory.ext {m m' : Memory} (h : m.wf) (h' : m'.wf) (he : ∀ x, m.read x = m'.read x) : m = m' := by
  induction m generalizing m' with
  | nil =>
    cases m' with
    | nil => rfl
    | cons d m' =>
      obtain ⟨a, b⟩ := d
      have := he a
      simp [Memory.read_cons] at this
      exact absurd this.symm (Memory.wf_cons.1 h').2.1
  | cons d m ih =>
    obtain ⟨a, b⟩ := d
    obtain ⟨hlt, hb, hm⟩ := Memory.wf_cons.1 h
    cases m' with
    | nil =>
      have := he a
      simp [Memory.read_cons] at this
      exact absurd this hb
    | cons d' m' =>
      obtain ⟨a', b'⟩ := d'
      obtain ⟨hlt', hb', hm'⟩ := Memory.wf_cons.1 h'
      have haa : a = a' := by
        rcases Nat.lt_trichotomy a a' with hl | hl | hl
        · have e := he a
          rw [Memory.read_of_lt (m := (a', b') :: m') (x := a)] at e
          · simp [Memory.read_cons] at e; exact absurd e hb
          · intro c hc
            rcases List.mem_cons.1 hc with rfl | hc
            · exact hl
            · exact hl.trans (hlt' c hc)
        · exact hl
        · have e := he a'
          rw [Memory.read_of_lt (m := (a, b) :: m) (x := a')] at e
          · simp [Memory.read_cons] at e; exact absurd e.symm hb'
          · intro c hc
            rcases List.mem_cons.1 hc with rfl | hc
            · exact hl
            · exact hl.trans (hlt c hc)
      subst a'
      have hbb : b = b' := by simpa [Memory.read_cons] using he a
      subst b'
      congr 1
      refine ih hm hm' fun x => ?_
      by_cases hx : x = a
      · subst x; rw [Memory.read_of_lt hlt, Memory.read_of_lt hlt']
      · simpa [Memory.read_cons, Ne.symm hx] using he x

/-- Whatever cells are drawn, the memory they make is canonical and inside its space. -/
theorem Memory.ofCells_ok (n : Nat) (cells : List Host.Cell) :
    (Memory.ofCells n cells).wf ∧ (Memory.ofCells n cells).within n := by
  have key : ∀ (cells : List Host.Cell) (m : Memory), m.wf ∧ m.within n →
      (cells.foldl (fun m c => if c.1 < n then m.write c.1 c.2 else m) m).wf ∧
      Memory.within n (cells.foldl (fun m c => if c.1 < n then m.write c.1 c.2 else m) m) := by
    intro cells
    induction cells with
    | nil => exact fun m h => h
    | cons c cells ih =>
      intro m h
      rw [List.foldl_cons]
      refine ih _ ?_
      split
      · exact ⟨Memory.write_wf h.1 _ _, Memory.write_within h.2 ‹_› _⟩
      · exact h
  exact key cells _ ⟨Memory.wf_zero, Memory.within_zero n⟩

@[simp] theorem Memory.readRange_length (m : Memory) (base len : Nat) : (m.readRange base len).length = len := by
  simp [Memory.readRange]

theorem Memory.readRange_getElem (m : Memory) (base len : Nat) (c : Nat) (h : c < (m.readRange base len).length) :
    (m.readRange base len)[c] = m.read (base + c) := by
  simp [Memory.readRange]

end Sys2Proof.Machine
end

