-- ==== Sys2Proof/Laws/Drawing.lean ====
section
/-! SUPPORT. What drawing can do: every drawing operation is a run of SetPixels, and a SetPixel ORs one bit into one byte of the
framebuffer or does nothing (40_framebuffer.md R100, R102). -/

namespace Sys2Proof.Machine

/-- A pixel on the display has its byte inside FB (20_memory.md R66). -/
theorem pixelAddr_lt {x y : Int} (h : onDisplay x y) : pixelAddr x y < Config.fbBytes := by
  simp only [onDisplay, Config.width, Config.height, Nat.cast_ofNat] at h
  simp only [pixelAddr, Config.width, Config.fbBytes]
  omega

theorem setPixel_off {x y : Int} (h : ¬ onDisplay x y) (m : Memory) : setPixel x y m = m := by
  simp only [setPixel, if_neg h]

theorem setPixel_on {x y : Int} (h : onDisplay x y) (m : Memory) :
    setPixel x y m = m.write (pixelAddr x y) (m.read (pixelAddr x y) ||| bitMask (pixelBit y)) := by
  simp only [setPixel, if_pos h]

/-- What SetPixel leaves at every address. -/
theorem setPixel_read {m : Memory} (h : m.wf) (x y : Int) (a : Nat) :
    (setPixel x y m).read a =
      if onDisplay x y ∧ a = pixelAddr x y then m.read a ||| bitMask (pixelBit y) else m.read a := by
  by_cases hd : onDisplay x y
  · rw [setPixel_on hd, Memory.read_write h]
    by_cases ha : a = pixelAddr x y
    · rw [if_pos ha, if_pos ⟨hd, ha⟩, ha]
    · rw [if_neg ha, if_neg fun h => ha h.2]
  · rw [setPixel_off hd, if_neg fun h => hd h.1]

/-- On the display the unpacked view is a bit of FB (20_memory.md R60). -/
theorem pixel_on {x y : Nat} (hx : x < 128) (hy : y < 64) (m : Memory) :
    pixel m x y = some ((m.read (x + (y / 8) * 128)).getLsbD (y % 8)) :=
  if_pos ⟨hx, hy⟩

/-- Off the display the unpacked view has no value (20_memory.md R60). -/
theorem pixel_off {x y : Nat} (h : ¬ (x < 128 ∧ y < 64)) (m : Memory) : pixel m x y = none := if_neg h

theorem setPixel_wf {m : Memory} (h : m.wf) (x y : Int) : (setPixel x y m).wf := by
  unfold setPixel
  split
  · exact Memory.write_wf h _ _
  · exact h

theorem setPixel_within {m : Memory} (h : m.within Config.fbBytes) (x y : Int) :
    (setPixel x y m).within Config.fbBytes := by
  unfold setPixel
  split
  · exact Memory.write_within h (pixelAddr_lt ‹_›) _
  · exact h

/-- What every SetPixel keeps, a run of SetPixels chosen by a list keeps. -/
theorem foldl_keeps {α : Type} {P : Memory → Prop} (f : Memory → α → Memory) (hf : ∀ m a, P m → P (f m a))
    (l : List α) {m : Memory} (h : P m) : P (l.foldl f m) := by
  induction l generalizing m with
  | nil => exact h
  | cons a l ih => exact ih (hf m a h)

section Induction

variable {P : Memory → Prop} (hP : ∀ x y m, P m → P (setPixel x y m))
include hP

theorem drawColumn_keeps (col : Byte) (x y : Int) {m : Memory} (h : P m) : P (drawColumn col x y m) := by
  refine foldl_keeps _ (fun m j hm => ?_) _ h
  split
  · exact hP _ _ _ hm
  · exact hm

theorem drawGlyph_keeps (rom : Vector Byte Config.glyphBytes) (n : Fin Config.nGlyph) (x y : Int) {m : Memory} (h : P m) :
    P (drawGlyph rom n x y m) :=
  foldl_keeps _ (fun _ _ hm => drawColumn_keeps hP _ _ _ hm) _ h

/-- DrawChar is a run of SetPixels. -/
theorem drawChar_keeps (rom : Vector Byte Config.glyphBytes) (c : Byte) (x y : Int) {m : Memory} (h : P m) :
    P (drawChar rom c x y m) := by
  unfold drawChar
  split
  · exact h
  · exact drawGlyph_keeps hP _ _ _ _ h

/-- DrawText is a run of SetPixels. -/
theorem drawText_keeps (rom : Vector Byte Config.glyphBytes) (cs : List Byte) (x y : Int) {m : Memory} (h : P m) :
    P (drawText rom cs x y m).2 := by
  induction cs generalizing x m with
  | nil => exact h
  | cons c cs ih =>
    simp only [drawText]
    split
    · exact h
    · split
      · exact h
      · exact ih _ (drawChar_keeps hP _ _ _ _ h)

end Induction

/-- The canonical form and the bound of FB. -/
abbrev Memory.okFb (m : Memory) : Prop := m.wf ∧ m.within Config.fbBytes

theorem setPixel_okFb (x y : Int) (m : Memory) (h : m.okFb) : (setPixel x y m).okFb :=
  ⟨setPixel_wf h.1 x y, setPixel_within h.2 x y⟩

theorem drawChar_okFb (rom : Vector Byte Config.glyphBytes) (c : Byte) (x y : Int) {m : Memory} (h : m.okFb) :
    (drawChar rom c x y m).okFb :=
  drawChar_keeps setPixel_okFb rom c x y h

theorem drawText_okFb (rom : Vector Byte Config.glyphBytes) (cs : List Byte) (x y : Int) {m : Memory} (h : m.okFb) :
    (drawText rom cs x y m).2.okFb :=
  drawText_keeps setPixel_okFb rom cs x y h

/-- Storing the lanes of a text beat keeps TXTBUF's canonical form and bound. -/
theorem storeLanes_ok (b : Nat) (w : Beat) (len : Nat) (hl : len ≤ Config.textMax) {m : Memory}
    (h : m.wf ∧ m.within Config.textMax) : (storeLanes b w len m).wf ∧ (storeLanes b w len m).within Config.textMax := by
  refine foldl_keeps (P := fun m => m.wf ∧ m.within Config.textMax) _ (fun m l hm => ?_) _ h
  split
  · exact ⟨Memory.write_wf hm.1 _ _, Memory.write_within hm.2 (by omega) _⟩
  · exact hm

end Sys2Proof.Machine
end

