-- ==== Sys2Proof/Laws/State.lean ====
section
/-! SUPPORT. One lemma for each field of each state update, so that no proof unfolds an update; and what each update is in other
fields' terms. -/

namespace Sys2Proof.Machine

@[simp] theorem finish_fb (e : ErrCode) (s : State) : (finish e s).fb = s.fb := rfl
@[simp] theorem finish_glyphRom (e : ErrCode) (s : State) : (finish e s).glyphRom = s.glyphRom := rfl
@[simp] theorem finish_cstate (e : ErrCode) (s : State) : (finish e s).cstate = s.cstate := rfl
@[simp] theorem finish_busy (e : ErrCode) (s : State) : (finish e s).busy = false := rfl
@[simp] theorem finish_err (e : ErrCode) (s : State) : (finish e s).err = e := rfl
@[simp] theorem finish_port (e : ErrCode) (s : State) : (finish e s).port = .expectCmd := rfl
@[simp] theorem finish_opl (e : ErrCode) (s : State) : (finish e s).opl = s.opl := rfl
@[simp] theorem finish_rsv (e : ErrCode) (s : State) : (finish e s).rsv = s.rsv := rfl
@[simp] theorem finish_cx (e : ErrCode) (s : State) : (finish e s).cx = s.cx := rfl
@[simp] theorem finish_cy (e : ErrCode) (s : State) : (finish e s).cy = s.cy := rfl
@[simp] theorem finish_txtbuf (e : ErrCode) (s : State) : (finish e s).txtbuf = s.txtbuf := rfl
@[simp] theorem finish_txtlen (e : ErrCode) (s : State) : (finish e s).txtlen = s.txtlen := rfl
@[simp] theorem finish_seqK (e : ErrCode) (s : State) : (finish e s).seqK = s.seqK := rfl
@[simp] theorem finish_seqP (e : ErrCode) (s : State) : (finish e s).seqP = s.seqP := rfl
@[simp] theorem finish_seqPh (e : ErrCode) (s : State) : (finish e s).seqPh = s.seqPh := rfl
@[simp] theorem finish_stab (e : ErrCode) (s : State) : (finish e s).stab = s.stab := rfl
@[simp] theorem finish_tStab (e : ErrCode) (s : State) : (finish e s).tStab = s.tStab := rfl
@[simp] theorem finish_rspq (e : ErrCode) (s : State) : (finish e s).rspq = s.rspq := rfl
@[simp] theorem finish_txp (e : ErrCode) (s : State) : (finish e s).txp = s.txp := rfl
@[simp] theorem finish_abandoned (e : ErrCode) (s : State) : (finish e s).abandoned = s.abandoned := rfl
@[simp] theorem finish_rst (e : ErrCode) (s : State) : (finish e s).rst = s.rst := rfl
@[simp] theorem finish_offered (e : ErrCode) (s : State) : (finish e s).offered = s.offered := rfl
@[simp] theorem finish_turns (e : ErrCode) (s : State) : (finish e s).turns = s.turns := rfl
@[simp] theorem finish_log (e : ErrCode) (s : State) : (finish e s).log = s.log := rfl
@[simp] theorem finish_rspTaken (e : ErrCode) (s : State) : (finish e s).rspTaken = s.rspTaken := rfl

@[simp] theorem raise_fb (e : ErrCode) (s : State) : (raise e s).fb = s.fb := rfl
@[simp] theorem raise_glyphRom (e : ErrCode) (s : State) : (raise e s).glyphRom = s.glyphRom := rfl
@[simp] theorem raise_cstate (e : ErrCode) (s : State) : (raise e s).cstate = if e = .transport then .failed else s.cstate := rfl
@[simp] theorem raise_busy (e : ErrCode) (s : State) : (raise e s).busy = false := rfl
@[simp] theorem raise_err (e : ErrCode) (s : State) : (raise e s).err = e := rfl
@[simp] theorem raise_port (e : ErrCode) (s : State) : (raise e s).port = .expectCmd := rfl
@[simp] theorem raise_opl (e : ErrCode) (s : State) : (raise e s).opl = s.opl := rfl
@[simp] theorem raise_rsv (e : ErrCode) (s : State) : (raise e s).rsv = s.rsv := rfl
@[simp] theorem raise_cx (e : ErrCode) (s : State) : (raise e s).cx = s.cx := rfl
@[simp] theorem raise_cy (e : ErrCode) (s : State) : (raise e s).cy = s.cy := rfl
@[simp] theorem raise_txtbuf (e : ErrCode) (s : State) : (raise e s).txtbuf = s.txtbuf := rfl
@[simp] theorem raise_txtlen (e : ErrCode) (s : State) : (raise e s).txtlen = s.txtlen := rfl
@[simp] theorem raise_seqK (e : ErrCode) (s : State) : (raise e s).seqK = s.seqK := rfl
@[simp] theorem raise_seqP (e : ErrCode) (s : State) : (raise e s).seqP = s.seqP := rfl
@[simp] theorem raise_seqPh (e : ErrCode) (s : State) : (raise e s).seqPh = s.seqPh := rfl
@[simp] theorem raise_stab (e : ErrCode) (s : State) : (raise e s).stab = s.stab := rfl
@[simp] theorem raise_tStab (e : ErrCode) (s : State) : (raise e s).tStab = s.tStab := rfl
@[simp] theorem raise_rspq (e : ErrCode) (s : State) : (raise e s).rspq = s.rspq := rfl
@[simp] theorem raise_txp (e : ErrCode) (s : State) : (raise e s).txp = s.txp := rfl
@[simp] theorem raise_abandoned (e : ErrCode) (s : State) : (raise e s).abandoned = s.abandoned := rfl
@[simp] theorem raise_rst (e : ErrCode) (s : State) : (raise e s).rst = s.rst := rfl
@[simp] theorem raise_offered (e : ErrCode) (s : State) : (raise e s).offered = s.offered := rfl
@[simp] theorem raise_turns (e : ErrCode) (s : State) : (raise e s).turns = s.turns := rfl
@[simp] theorem raise_log (e : ErrCode) (s : State) : (raise e s).log = s.log := rfl
@[simp] theorem raise_rspTaken (e : ErrCode) (s : State) : (raise e s).rspTaken = s.rspTaken := rfl

@[simp] theorem emit_fb (bs : List Byte) (s : State) : (emit bs s).fb = s.fb := rfl
@[simp] theorem emit_glyphRom (bs : List Byte) (s : State) : (emit bs s).glyphRom = s.glyphRom := rfl
@[simp] theorem emit_cstate (bs : List Byte) (s : State) : (emit bs s).cstate = s.cstate := rfl
@[simp] theorem emit_busy (bs : List Byte) (s : State) : (emit bs s).busy = s.busy := rfl
@[simp] theorem emit_err (bs : List Byte) (s : State) : (emit bs s).err = s.err := rfl
@[simp] theorem emit_port (bs : List Byte) (s : State) : (emit bs s).port = s.port := rfl
@[simp] theorem emit_opl (bs : List Byte) (s : State) : (emit bs s).opl = s.opl := rfl
@[simp] theorem emit_rsv (bs : List Byte) (s : State) : (emit bs s).rsv = s.rsv := rfl
@[simp] theorem emit_cx (bs : List Byte) (s : State) : (emit bs s).cx = s.cx := rfl
@[simp] theorem emit_cy (bs : List Byte) (s : State) : (emit bs s).cy = s.cy := rfl
@[simp] theorem emit_txtbuf (bs : List Byte) (s : State) : (emit bs s).txtbuf = s.txtbuf := rfl
@[simp] theorem emit_txtlen (bs : List Byte) (s : State) : (emit bs s).txtlen = s.txtlen := rfl
@[simp] theorem emit_seqK (bs : List Byte) (s : State) : (emit bs s).seqK = s.seqK := rfl
@[simp] theorem emit_seqP (bs : List Byte) (s : State) : (emit bs s).seqP = s.seqP := rfl
@[simp] theorem emit_seqPh (bs : List Byte) (s : State) : (emit bs s).seqPh = s.seqPh := rfl
@[simp] theorem emit_stab (bs : List Byte) (s : State) : (emit bs s).stab = s.stab := rfl
@[simp] theorem emit_tStab (bs : List Byte) (s : State) : (emit bs s).tStab = s.tStab := rfl
@[simp] theorem emit_rspq (bs : List Byte) (s : State) : (emit bs s).rspq = s.rspq ++ bs := rfl
@[simp] theorem emit_txp (bs : List Byte) (s : State) : (emit bs s).txp = s.txp := rfl
@[simp] theorem emit_abandoned (bs : List Byte) (s : State) : (emit bs s).abandoned = s.abandoned := rfl
@[simp] theorem emit_rst (bs : List Byte) (s : State) : (emit bs s).rst = s.rst := rfl
@[simp] theorem emit_offered (bs : List Byte) (s : State) : (emit bs s).offered = s.offered := rfl
@[simp] theorem emit_turns (bs : List Byte) (s : State) : (emit bs s).turns = s.turns := rfl
@[simp] theorem emit_log (bs : List Byte) (s : State) : (emit bs s).log = s.log := rfl
@[simp] theorem emit_rspTaken (bs : List Byte) (s : State) : (emit bs s).rspTaken = s.rspTaken := rfl

@[simp] theorem busIssue_fb (t : Tx) (s : State) : (busIssue t s).fb = s.fb := rfl
@[simp] theorem busIssue_glyphRom (t : Tx) (s : State) : (busIssue t s).glyphRom = s.glyphRom := rfl
@[simp] theorem busIssue_cstate (t : Tx) (s : State) : (busIssue t s).cstate = s.cstate := rfl
@[simp] theorem busIssue_busy (t : Tx) (s : State) : (busIssue t s).busy = s.busy := rfl
@[simp] theorem busIssue_err (t : Tx) (s : State) : (busIssue t s).err = s.err := rfl
@[simp] theorem busIssue_port (t : Tx) (s : State) : (busIssue t s).port = s.port := rfl
@[simp] theorem busIssue_opl (t : Tx) (s : State) : (busIssue t s).opl = s.opl := rfl
@[simp] theorem busIssue_rsv (t : Tx) (s : State) : (busIssue t s).rsv = s.rsv := rfl
@[simp] theorem busIssue_cx (t : Tx) (s : State) : (busIssue t s).cx = s.cx := rfl
@[simp] theorem busIssue_cy (t : Tx) (s : State) : (busIssue t s).cy = s.cy := rfl
@[simp] theorem busIssue_txtbuf (t : Tx) (s : State) : (busIssue t s).txtbuf = s.txtbuf := rfl
@[simp] theorem busIssue_txtlen (t : Tx) (s : State) : (busIssue t s).txtlen = s.txtlen := rfl
@[simp] theorem busIssue_seqK (t : Tx) (s : State) : (busIssue t s).seqK = s.seqK := rfl
@[simp] theorem busIssue_seqP (t : Tx) (s : State) : (busIssue t s).seqP = s.seqP := rfl
@[simp] theorem busIssue_seqPh (t : Tx) (s : State) : (busIssue t s).seqPh = s.seqPh := rfl
@[simp] theorem busIssue_stab (t : Tx) (s : State) : (busIssue t s).stab = s.stab := rfl
@[simp] theorem busIssue_tStab (t : Tx) (s : State) : (busIssue t s).tStab = s.tStab := rfl
@[simp] theorem busIssue_rspq (t : Tx) (s : State) : (busIssue t s).rspq = s.rspq := rfl
@[simp] theorem busIssue_txp (t : Tx) (s : State) : (busIssue t s).txp = some t := rfl
@[simp] theorem busIssue_abandoned (t : Tx) (s : State) : (busIssue t s).abandoned = s.abandoned := rfl
@[simp] theorem busIssue_rst (t : Tx) (s : State) : (busIssue t s).rst = s.rst := rfl
@[simp] theorem busIssue_offered (t : Tx) (s : State) : (busIssue t s).offered = s.offered := rfl
@[simp] theorem busIssue_turns (t : Tx) (s : State) : (busIssue t s).turns = s.turns := rfl
@[simp] theorem busIssue_log (t : Tx) (s : State) : (busIssue t s).log = s.log ++ [.tx t .pending] := rfl
@[simp] theorem busIssue_rspTaken (t : Tx) (s : State) : (busIssue t s).rspTaken = s.rspTaken := rfl

@[simp] theorem startDelay_fb (s : State) : (startDelay s).fb = s.fb := rfl
@[simp] theorem startDelay_glyphRom (s : State) : (startDelay s).glyphRom = s.glyphRom := rfl
@[simp] theorem startDelay_cstate (s : State) : (startDelay s).cstate = s.cstate := rfl
@[simp] theorem startDelay_busy (s : State) : (startDelay s).busy = s.busy := rfl
@[simp] theorem startDelay_err (s : State) : (startDelay s).err = s.err := rfl
@[simp] theorem startDelay_port (s : State) : (startDelay s).port = s.port := rfl
@[simp] theorem startDelay_opl (s : State) : (startDelay s).opl = s.opl := rfl
@[simp] theorem startDelay_rsv (s : State) : (startDelay s).rsv = s.rsv := rfl
@[simp] theorem startDelay_cx (s : State) : (startDelay s).cx = s.cx := rfl
@[simp] theorem startDelay_cy (s : State) : (startDelay s).cy = s.cy := rfl
@[simp] theorem startDelay_txtbuf (s : State) : (startDelay s).txtbuf = s.txtbuf := rfl
@[simp] theorem startDelay_txtlen (s : State) : (startDelay s).txtlen = s.txtlen := rfl
@[simp] theorem startDelay_seqK (s : State) : (startDelay s).seqK = if s.tStab = 0 then 0 else s.seqK := rfl
@[simp] theorem startDelay_seqP (s : State) : (startDelay s).seqP = s.seqP := rfl
@[simp] theorem startDelay_seqPh (s : State) : (startDelay s).seqPh = s.seqPh := rfl
@[simp] theorem startDelay_stab (s : State) : (startDelay s).stab = s.tStab := rfl
@[simp] theorem startDelay_tStab (s : State) : (startDelay s).tStab = s.tStab := rfl
@[simp] theorem startDelay_rspq (s : State) : (startDelay s).rspq = s.rspq := rfl
@[simp] theorem startDelay_txp (s : State) : (startDelay s).txp = s.txp := rfl
@[simp] theorem startDelay_abandoned (s : State) : (startDelay s).abandoned = s.abandoned := rfl
@[simp] theorem startDelay_rst (s : State) : (startDelay s).rst = s.rst := rfl
@[simp] theorem startDelay_offered (s : State) : (startDelay s).offered = s.offered := rfl
@[simp] theorem startDelay_turns (s : State) : (startDelay s).turns = s.turns := rfl
@[simp] theorem startDelay_log (s : State) : (startDelay s).log = if s.tStab = 0 then s.log ++ [.delay s.tStab] else s.log := rfl
@[simp] theorem startDelay_rspTaken (s : State) : (startDelay s).rspTaken = s.rspTaken := rfl

@[simp] theorem delayTick_fb (s : State) : (delayTick s).fb = s.fb := rfl
@[simp] theorem delayTick_glyphRom (s : State) : (delayTick s).glyphRom = s.glyphRom := rfl
@[simp] theorem delayTick_cstate (s : State) : (delayTick s).cstate = s.cstate := rfl
@[simp] theorem delayTick_busy (s : State) : (delayTick s).busy = s.busy := rfl
@[simp] theorem delayTick_err (s : State) : (delayTick s).err = s.err := rfl
@[simp] theorem delayTick_port (s : State) : (delayTick s).port = s.port := rfl
@[simp] theorem delayTick_opl (s : State) : (delayTick s).opl = s.opl := rfl
@[simp] theorem delayTick_rsv (s : State) : (delayTick s).rsv = s.rsv := rfl
@[simp] theorem delayTick_cx (s : State) : (delayTick s).cx = s.cx := rfl
@[simp] theorem delayTick_cy (s : State) : (delayTick s).cy = s.cy := rfl
@[simp] theorem delayTick_txtbuf (s : State) : (delayTick s).txtbuf = s.txtbuf := rfl
@[simp] theorem delayTick_txtlen (s : State) : (delayTick s).txtlen = s.txtlen := rfl
@[simp] theorem delayTick_seqK (s : State) : (delayTick s).seqK = if s.stab = 1 then 0 else s.seqK := rfl
@[simp] theorem delayTick_seqP (s : State) : (delayTick s).seqP = s.seqP := rfl
@[simp] theorem delayTick_seqPh (s : State) : (delayTick s).seqPh = s.seqPh := rfl
@[simp] theorem delayTick_stab (s : State) : (delayTick s).stab = s.stab - 1 := rfl
@[simp] theorem delayTick_tStab (s : State) : (delayTick s).tStab = s.tStab := rfl
@[simp] theorem delayTick_rspq (s : State) : (delayTick s).rspq = s.rspq := rfl
@[simp] theorem delayTick_txp (s : State) : (delayTick s).txp = s.txp := rfl
@[simp] theorem delayTick_abandoned (s : State) : (delayTick s).abandoned = s.abandoned := rfl
@[simp] theorem delayTick_rst (s : State) : (delayTick s).rst = s.rst := rfl
@[simp] theorem delayTick_offered (s : State) : (delayTick s).offered = s.offered := rfl
@[simp] theorem delayTick_turns (s : State) : (delayTick s).turns = s.turns := rfl
@[simp] theorem delayTick_log (s : State) : (delayTick s).log = if s.stab = 1 then s.log ++ [.delay s.tStab] else s.log := rfl
@[simp] theorem delayTick_rspTaken (s : State) : (delayTick s).rspTaken = s.rspTaken := rfl

@[simp] theorem accept_fb (w : Beat) (s : State) : (accept w s).fb = s.fb := rfl
@[simp] theorem accept_glyphRom (w : Beat) (s : State) : (accept w s).glyphRom = s.glyphRom := rfl
@[simp] theorem accept_cstate (w : Beat) (s : State) : (accept w s).cstate = s.cstate := rfl
@[simp] theorem accept_busy (w : Beat) (s : State) : (accept w s).busy = true := rfl
@[simp] theorem accept_err (w : Beat) (s : State) : (accept w s).err = s.err := rfl
@[simp] theorem accept_port (w : Beat) (s : State) : (accept w s).port = s.port := rfl
@[simp] theorem accept_opl (w : Beat) (s : State) : (accept w s).opl = wordLatch w := rfl
@[simp] theorem accept_rsv (w : Beat) (s : State) : (accept w s).rsv = s.rsv := rfl
@[simp] theorem accept_cx (w : Beat) (s : State) : (accept w s).cx = s.cx := rfl
@[simp] theorem accept_cy (w : Beat) (s : State) : (accept w s).cy = s.cy := rfl
@[simp] theorem accept_txtbuf (w : Beat) (s : State) : (accept w s).txtbuf = s.txtbuf := rfl
@[simp] theorem accept_txtlen (w : Beat) (s : State) : (accept w s).txtlen = s.txtlen := rfl
@[simp] theorem accept_seqK (w : Beat) (s : State) : (accept w s).seqK = s.seqK := rfl
@[simp] theorem accept_seqP (w : Beat) (s : State) : (accept w s).seqP = s.seqP := rfl
@[simp] theorem accept_seqPh (w : Beat) (s : State) : (accept w s).seqPh = s.seqPh := rfl
@[simp] theorem accept_stab (w : Beat) (s : State) : (accept w s).stab = s.stab := rfl
@[simp] theorem accept_tStab (w : Beat) (s : State) : (accept w s).tStab = s.tStab := rfl
@[simp] theorem accept_rspq (w : Beat) (s : State) : (accept w s).rspq = s.rspq := rfl
@[simp] theorem accept_txp (w : Beat) (s : State) : (accept w s).txp = s.txp := rfl
@[simp] theorem accept_abandoned (w : Beat) (s : State) : (accept w s).abandoned = s.abandoned := rfl
@[simp] theorem accept_rst (w : Beat) (s : State) : (accept w s).rst = s.rst := rfl
@[simp] theorem accept_offered (w : Beat) (s : State) : (accept w s).offered = s.offered := rfl
@[simp] theorem accept_turns (w : Beat) (s : State) : (accept w s).turns = s.turns := rfl
@[simp] theorem accept_log (w : Beat) (s : State) : (accept w s).log = s.log := rfl
@[simp] theorem accept_rspTaken (w : Beat) (s : State) : (accept w s).rspTaken = s.rspTaken := rfl

@[simp] theorem latchText_fb (len : Nat) (x y : Int) (s : State) : (latchText len x y s).fb = s.fb := rfl
@[simp] theorem latchText_glyphRom (len : Nat) (x y : Int) (s : State) : (latchText len x y s).glyphRom = s.glyphRom := rfl
@[simp] theorem latchText_cstate (len : Nat) (x y : Int) (s : State) : (latchText len x y s).cstate = s.cstate := rfl
@[simp] theorem latchText_busy (len : Nat) (x y : Int) (s : State) : (latchText len x y s).busy = s.busy := rfl
@[simp] theorem latchText_err (len : Nat) (x y : Int) (s : State) : (latchText len x y s).err = s.err := rfl
@[simp] theorem latchText_port (len : Nat) (x y : Int) (s : State) : (latchText len x y s).port = s.port := rfl
@[simp] theorem latchText_opl (len : Nat) (x y : Int) (s : State) : (latchText len x y s).opl = ⟨opcodeByte .drawtext, BitVec.ofNat 8 len, coordField x, coordField y⟩ := rfl
@[simp] theorem latchText_rsv (len : Nat) (x y : Int) (s : State) : (latchText len x y s).rsv = 0#16 := rfl
@[simp] theorem latchText_cx (len : Nat) (x y : Int) (s : State) : (latchText len x y s).cx = s.cx := rfl
@[simp] theorem latchText_cy (len : Nat) (x y : Int) (s : State) : (latchText len x y s).cy = s.cy := rfl
@[simp] theorem latchText_txtbuf (len : Nat) (x y : Int) (s : State) : (latchText len x y s).txtbuf = s.txtbuf := rfl
@[simp] theorem latchText_txtlen (len : Nat) (x y : Int) (s : State) : (latchText len x y s).txtlen = s.txtlen := rfl
@[simp] theorem latchText_seqK (len : Nat) (x y : Int) (s : State) : (latchText len x y s).seqK = s.seqK := rfl
@[simp] theorem latchText_seqP (len : Nat) (x y : Int) (s : State) : (latchText len x y s).seqP = s.seqP := rfl
@[simp] theorem latchText_seqPh (len : Nat) (x y : Int) (s : State) : (latchText len x y s).seqPh = s.seqPh := rfl
@[simp] theorem latchText_stab (len : Nat) (x y : Int) (s : State) : (latchText len x y s).stab = s.stab := rfl
@[simp] theorem latchText_tStab (len : Nat) (x y : Int) (s : State) : (latchText len x y s).tStab = s.tStab := rfl
@[simp] theorem latchText_rspq (len : Nat) (x y : Int) (s : State) : (latchText len x y s).rspq = s.rspq := rfl
@[simp] theorem latchText_txp (len : Nat) (x y : Int) (s : State) : (latchText len x y s).txp = s.txp := rfl
@[simp] theorem latchText_abandoned (len : Nat) (x y : Int) (s : State) : (latchText len x y s).abandoned = s.abandoned := rfl
@[simp] theorem latchText_rst (len : Nat) (x y : Int) (s : State) : (latchText len x y s).rst = s.rst := rfl
@[simp] theorem latchText_offered (len : Nat) (x y : Int) (s : State) : (latchText len x y s).offered = s.offered := rfl
@[simp] theorem latchText_turns (len : Nat) (x y : Int) (s : State) : (latchText len x y s).turns = s.turns := rfl
@[simp] theorem latchText_log (len : Nat) (x y : Int) (s : State) : (latchText len x y s).log = s.log := rfl
@[simp] theorem latchText_rspTaken (len : Nat) (x y : Int) (s : State) : (latchText len x y s).rspTaken = s.rspTaken := rfl

@[simp] theorem layoutText_fb (x y : Int) (s : State) : (layoutText x y s).fb = (drawText s.glyphRom (collectedText s) x y s.fb).2 := rfl
@[simp] theorem layoutText_glyphRom (x y : Int) (s : State) : (layoutText x y s).glyphRom = s.glyphRom := rfl
@[simp] theorem layoutText_cstate (x y : Int) (s : State) : (layoutText x y s).cstate = s.cstate := rfl
@[simp] theorem layoutText_busy (x y : Int) (s : State) : (layoutText x y s).busy = false := rfl
@[simp] theorem layoutText_err (x y : Int) (s : State) : (layoutText x y s).err = .ok := rfl
@[simp] theorem layoutText_port (x y : Int) (s : State) : (layoutText x y s).port = .expectCmd := rfl
@[simp] theorem layoutText_opl (x y : Int) (s : State) : (layoutText x y s).opl = s.opl := rfl
@[simp] theorem layoutText_rsv (x y : Int) (s : State) : (layoutText x y s).rsv = s.rsv := rfl
@[simp] theorem layoutText_cx (x y : Int) (s : State) : (layoutText x y s).cx = (drawText s.glyphRom (collectedText s) x y s.fb).1 := rfl
@[simp] theorem layoutText_cy (x y : Int) (s : State) : (layoutText x y s).cy = y := rfl
@[simp] theorem layoutText_txtbuf (x y : Int) (s : State) : (layoutText x y s).txtbuf = s.txtbuf := rfl
@[simp] theorem layoutText_txtlen (x y : Int) (s : State) : (layoutText x y s).txtlen = s.txtlen := rfl
@[simp] theorem layoutText_seqK (x y : Int) (s : State) : (layoutText x y s).seqK = s.seqK := rfl
@[simp] theorem layoutText_seqP (x y : Int) (s : State) : (layoutText x y s).seqP = s.seqP := rfl
@[simp] theorem layoutText_seqPh (x y : Int) (s : State) : (layoutText x y s).seqPh = s.seqPh := rfl
@[simp] theorem layoutText_stab (x y : Int) (s : State) : (layoutText x y s).stab = s.stab := rfl
@[simp] theorem layoutText_tStab (x y : Int) (s : State) : (layoutText x y s).tStab = s.tStab := rfl
@[simp] theorem layoutText_rspq (x y : Int) (s : State) : (layoutText x y s).rspq = s.rspq := rfl
@[simp] theorem layoutText_txp (x y : Int) (s : State) : (layoutText x y s).txp = s.txp := rfl
@[simp] theorem layoutText_abandoned (x y : Int) (s : State) : (layoutText x y s).abandoned = s.abandoned := rfl
@[simp] theorem layoutText_rst (x y : Int) (s : State) : (layoutText x y s).rst = s.rst := rfl
@[simp] theorem layoutText_offered (x y : Int) (s : State) : (layoutText x y s).offered = s.offered := rfl
@[simp] theorem layoutText_turns (x y : Int) (s : State) : (layoutText x y s).turns = s.turns := rfl
@[simp] theorem layoutText_log (x y : Int) (s : State) : (layoutText x y s).log = s.log := rfl
@[simp] theorem layoutText_rspTaken (x y : Int) (s : State) : (layoutText x y s).rspTaken = s.rspTaken := rfl

@[simp] theorem answerAbandoned_fb (n : Nat) (s : State) : (answerAbandoned n s).fb = s.fb := rfl
@[simp] theorem answerAbandoned_glyphRom (n : Nat) (s : State) : (answerAbandoned n s).glyphRom = s.glyphRom := rfl
@[simp] theorem answerAbandoned_cstate (n : Nat) (s : State) : (answerAbandoned n s).cstate = s.cstate := rfl
@[simp] theorem answerAbandoned_busy (n : Nat) (s : State) : (answerAbandoned n s).busy = s.busy := rfl
@[simp] theorem answerAbandoned_err (n : Nat) (s : State) : (answerAbandoned n s).err = s.err := rfl
@[simp] theorem answerAbandoned_port (n : Nat) (s : State) : (answerAbandoned n s).port = s.port := rfl
@[simp] theorem answerAbandoned_opl (n : Nat) (s : State) : (answerAbandoned n s).opl = s.opl := rfl
@[simp] theorem answerAbandoned_rsv (n : Nat) (s : State) : (answerAbandoned n s).rsv = s.rsv := rfl
@[simp] theorem answerAbandoned_cx (n : Nat) (s : State) : (answerAbandoned n s).cx = s.cx := rfl
@[simp] theorem answerAbandoned_cy (n : Nat) (s : State) : (answerAbandoned n s).cy = s.cy := rfl
@[simp] theorem answerAbandoned_txtbuf (n : Nat) (s : State) : (answerAbandoned n s).txtbuf = s.txtbuf := rfl
@[simp] theorem answerAbandoned_txtlen (n : Nat) (s : State) : (answerAbandoned n s).txtlen = s.txtlen := rfl
@[simp] theorem answerAbandoned_seqK (n : Nat) (s : State) : (answerAbandoned n s).seqK = s.seqK := rfl
@[simp] theorem answerAbandoned_seqP (n : Nat) (s : State) : (answerAbandoned n s).seqP = s.seqP := rfl
@[simp] theorem answerAbandoned_seqPh (n : Nat) (s : State) : (answerAbandoned n s).seqPh = s.seqPh := rfl
@[simp] theorem answerAbandoned_stab (n : Nat) (s : State) : (answerAbandoned n s).stab = s.stab := rfl
@[simp] theorem answerAbandoned_tStab (n : Nat) (s : State) : (answerAbandoned n s).tStab = s.tStab := rfl
@[simp] theorem answerAbandoned_rspq (n : Nat) (s : State) : (answerAbandoned n s).rspq = s.rspq := rfl
@[simp] theorem answerAbandoned_txp (n : Nat) (s : State) : (answerAbandoned n s).txp = s.txp := rfl
@[simp] theorem answerAbandoned_abandoned (n : Nat) (s : State) : (answerAbandoned n s).abandoned = s.abandoned.eraseIdx n := rfl
@[simp] theorem answerAbandoned_rst (n : Nat) (s : State) : (answerAbandoned n s).rst = s.rst := rfl
@[simp] theorem answerAbandoned_offered (n : Nat) (s : State) : (answerAbandoned n s).offered = s.offered := rfl
@[simp] theorem answerAbandoned_turns (n : Nat) (s : State) : (answerAbandoned n s).turns = s.turns := rfl
@[simp] theorem answerAbandoned_log (n : Nat) (s : State) : (answerAbandoned n s).log = s.log := rfl
@[simp] theorem answerAbandoned_rspTaken (n : Nat) (s : State) : (answerAbandoned n s).rspTaken = s.rspTaken := rfl

@[simp] theorem applyReset_fb (f t : List Host.Cell) (s : State) : (applyReset f t s).fb = Memory.ofCells Config.fbBytes f := rfl
@[simp] theorem applyReset_glyphRom (f t : List Host.Cell) (s : State) : (applyReset f t s).glyphRom = s.glyphRom := rfl
@[simp] theorem applyReset_cstate (f t : List Host.Cell) (s : State) : (applyReset f t s).cstate = .uninit := rfl
@[simp] theorem applyReset_busy (f t : List Host.Cell) (s : State) : (applyReset f t s).busy = false := rfl
@[simp] theorem applyReset_err (f t : List Host.Cell) (s : State) : (applyReset f t s).err = .ok := rfl
@[simp] theorem applyReset_port (f t : List Host.Cell) (s : State) : (applyReset f t s).port = .expectCmd := rfl
@[simp] theorem applyReset_opl (f t : List Host.Cell) (s : State) : (applyReset f t s).opl = ⟨0#8, 0#8, 0#16, 0#16⟩ := rfl
@[simp] theorem applyReset_rsv (f t : List Host.Cell) (s : State) : (applyReset f t s).rsv = 0#16 := rfl
@[simp] theorem applyReset_cx (f t : List Host.Cell) (s : State) : (applyReset f t s).cx = 0 := rfl
@[simp] theorem applyReset_cy (f t : List Host.Cell) (s : State) : (applyReset f t s).cy = 0 := rfl
@[simp] theorem applyReset_txtbuf (f t : List Host.Cell) (s : State) : (applyReset f t s).txtbuf = Memory.ofCells Config.textMax t := rfl
@[simp] theorem applyReset_txtlen (f t : List Host.Cell) (s : State) : (applyReset f t s).txtlen = 0 := rfl
@[simp] theorem applyReset_seqK (f t : List Host.Cell) (s : State) : (applyReset f t s).seqK = 0 := rfl
@[simp] theorem applyReset_seqP (f t : List Host.Cell) (s : State) : (applyReset f t s).seqP = 0 := rfl
@[simp] theorem applyReset_seqPh (f t : List Host.Cell) (s : State) : (applyReset f t s).seqPh = 0 := rfl
@[simp] theorem applyReset_stab (f t : List Host.Cell) (s : State) : (applyReset f t s).stab = 0 := rfl
@[simp] theorem applyReset_tStab (f t : List Host.Cell) (s : State) : (applyReset f t s).tStab = s.tStab := rfl
@[simp] theorem applyReset_rspq (f t : List Host.Cell) (s : State) : (applyReset f t s).rspq = [] := rfl
@[simp] theorem applyReset_txp (f t : List Host.Cell) (s : State) : (applyReset f t s).txp = none := rfl
@[simp] theorem applyReset_abandoned (f t : List Host.Cell) (s : State) : (applyReset f t s).abandoned = s.abandoned ++ s.txp.toList := rfl
@[simp] theorem applyReset_rst (f t : List Host.Cell) (s : State) : (applyReset f t s).rst = true := rfl
@[simp] theorem applyReset_offered (f t : List Host.Cell) (s : State) : (applyReset f t s).offered = s.offered := rfl
@[simp] theorem applyReset_turns (f t : List Host.Cell) (s : State) : (applyReset f t s).turns = s.turns := rfl
@[simp] theorem applyReset_log (f t : List Host.Cell) (s : State) : (applyReset f t s).log = s.log ++ [.reset] := rfl
@[simp] theorem applyReset_rspTaken (f t : List Host.Cell) (s : State) : (applyReset f t s).rspTaken = s.rspTaken := rfl

end Sys2Proof.Machine
end

