-- ==== Sys2Proof/Laws/Operation.lean ====
section
/-! SUPPORT. One lemma for each shared operation that says all it can do: ending text, answers, the log. -/

namespace Sys2Proof.Machine

/-! ### The log -/

/-- Settling the last entry of a log. -/
theorem settleLast_append (r r' : TxResult) (t : Tx) (l : List LogEntry) :
    settleLast r (l ++ [.tx t r']) = l ++ [.tx t r] := by
  induction l with
  | nil => rfl
  | cons e l ih =>
    cases l with
    | nil => rfl
    | cons e' l => exact congrArg (e :: ·) ih

theorem pendingOk_cons (e e' : LogEntry) (l : List LogEntry) (o : Option Tx) :
    pendingOk (e :: e' :: l) o = true ↔ (pendingTx e = none ∨ e' = .reset) ∧ pendingOk (e' :: l) o = true := by
  simp [pendingOk]

/-- With nothing outstanding, a log that agrees may take any entry after it; TXP is then that entry's pending transaction. -/
theorem pendingOk_append {l : List LogEntry} (h : pendingOk l none = true) (e : LogEntry) :
    pendingOk (l ++ [e]) (pendingTx e) = true := by
  induction l with
  | nil => simp [pendingOk]
  | cons d l ih =>
    cases l with
    | nil =>
      have hd : pendingTx d = none := by simpa [pendingOk, eq_comm] using h
      exact (pendingOk_cons d e [] _).2 ⟨.inl hd, by simp [pendingOk]⟩
    | cons d' l =>
      obtain ⟨hd, h⟩ := (pendingOk_cons d d' l none).1 h
      exact (pendingOk_cons d d' (l ++ [e]) _).2 ⟨hd, ih h⟩

/-- A reset may follow any log that agrees with TXP. -/
theorem pendingOk_reset {l : List LogEntry} {o : Option Tx} (h : pendingOk l o = true) :
    pendingOk (l ++ [.reset]) none = true := by
  induction l with
  | nil => simp [pendingOk, pendingTx]
  | cons d l ih =>
    cases l with
    | nil => exact (pendingOk_cons d .reset [] none).2 ⟨.inr rfl, by simp [pendingOk, pendingTx]⟩
    | cons d' l =>
      obtain ⟨hd, h⟩ := (pendingOk_cons d d' l o).1 h
      exact (pendingOk_cons d d' (l ++ [LogEntry.reset]) none).2 ⟨hd, ih h⟩

/-- With a transaction outstanding, the log ends with its Pending entry, and settling that entry leaves nothing outstanding. -/
theorem pendingOk_settle {l : List LogEntry} {t : Tx} (h : pendingOk l (some t) = true) (r : TxResult) (hr : r ≠ .pending) :
    ∃ l', l = l' ++ [.tx t .pending] ∧ settleLast r l = l' ++ [.tx t r] ∧ pendingOk (settleLast r l) none = true := by
  have hp : pendingTx (.tx t r) = none := by cases r <;> simp_all [pendingTx]
  induction l with
  | nil => simp [pendingOk] at h
  | cons d l ih =>
    cases l with
    | nil =>
      have hd : d = .tx t .pending := by
        simp only [pendingOk, decide_eq_true_eq] at h
        cases d with
        | tx t' r' => cases r' <;> simp_all [pendingTx]
        | delay => simp [pendingTx] at h
        | reset => simp [pendingTx] at h
      subst hd
      exact ⟨[], rfl, rfl, by simp [settleLast, settleEntry, pendingOk, hp]⟩
    | cons d' l =>
      obtain ⟨hd, h⟩ := (pendingOk_cons d d' l _).1 h
      obtain ⟨l', e1, e2, e3⟩ := ih h
      refine ⟨d :: l', by rw [e1]; rfl, by rw [settleLast, e2]; rfl, ?_⟩
      rcases hd with hd | rfl
      · rw [settleLast]
        cases hs : settleLast r (d' :: l) with
        | nil => simp [hs] at e2
        | cons x xs => exact (pendingOk_cons d x xs none).2 ⟨.inl hd, hs ▸ e3⟩
      · cases l with
        | nil => simp [pendingOk, pendingTx] at h
        | cons d'' l => exact (pendingOk_cons d .reset _ none).2 ⟨.inr rfl, e3⟩

/-! ### Text -/

/-- All that can follow the last text beat. -/
theorem endText_cases (s : State) :
    (s.rsv = 0#16 ∧ endText s = layoutText (sext16 s.opl.x) (sext16 s.opl.y) s) ∨
    (s.rsv ≠ 0#16 ∧ endText s = raise .reserved { s with rsv := 0#16 }) := by
  unfold endText
  split <;> simp_all

/-- All that the beginning of a DRAWTEXT can do. -/
theorem beginText_cases (len : Nat) (s : State) :
    (len = 0 ∧ beginText len s = endText { s with txtlen := 0 }) ∨
    (0 < len ∧ beginText len s = { s with txtlen := len, port := .expectText (textBeats len) }) := by
  unfold beginText textBeats
  split
  · left
    have : len = 0 := by omega
    exact ⟨this, by rw [this]⟩
  · right
    exact ⟨by omega, rfl⟩

/-- All that a word with a nonzero reserved or unused field can do: a DRAWTEXT begins with its RSV bits waiting to be checked, any
other ends at once. -/
theorem rejectReserved_cases (w : Beat) (s : State) :
    (fieldOpc w = opcodeByte .drawtext ∧
      rejectReserved w s = beginText (fieldA8 w).toNat { s with busy := true, rsv := fieldRsv w }) ∨
    (fieldOpc w ≠ opcodeByte .drawtext ∧ rejectReserved w s = raise .reserved s) := by
  unfold rejectReserved
  split
  · exact .inl ⟨‹_›, rfl⟩
  · exact .inr ⟨‹_›, rfl⟩

/-! ### Answers -/

/-- All that an answer can do. -/
theorem busAnswer_cases (r : Answer) (s : State) :
    (s.txp = none ∧ busAnswer r s = s) ∨
    (∃ t, s.txp = some t ∧ r = .ok ∧ busAnswer r s = advance { s with txp := none, log := settleLast .ok s.log }) ∨
    (∃ t, s.txp = some t ∧ r = .fail ∧
      busAnswer r s = raise .transport { s with txp := none, log := settleLast .fail s.log }) := by
  unfold busAnswer
  cases h : s.txp with
  | none => simp
  | some t => cases r <;> simp [answerResult]

/-- All that the counters can do after an Ok. -/
theorem advance_cases (s : State) :
    (s.cstate = .initializing ∧ s.seqK + 1 < initLen ∧ advance s = { s with seqK := s.seqK + 1 }) ∨
    (s.cstate = .initializing ∧ initLen ≤ s.seqK + 1 ∧
      advance s = finish .ok { s with cstate := .ready }) ∨
    (s.cstate = .updating ∧ s.seqPh < 3 ∧ advance s = { s with seqPh := s.seqPh + 1 }) ∨
    (s.cstate = .updating ∧ 3 ≤ s.seqPh ∧ s.seqP + 1 < Config.pages ∧
      advance s = { s with seqP := s.seqP + 1, seqPh := 0 }) ∨
    (s.cstate = .updating ∧ 3 ≤ s.seqPh ∧ Config.pages ≤ s.seqP + 1 ∧
      advance s = finish .ok { s with cstate := .ready }) ∨
    (s.cstate.running = false ∧ advance s = s) := by
  unfold advance
  cases h : s.cstate with
  | uninit => simp [CState.running]
  | ready => simp [CState.running]
  | failed => simp [CState.running]
  | initializing =>
    dsimp only
    split
    · exact .inl ⟨rfl, ‹_›, rfl⟩
    · exact .inr (.inl ⟨rfl, by omega, rfl⟩)
  | updating =>
    dsimp only
    split
    · exact .inr (.inr (.inl ⟨rfl, ‹_›, rfl⟩))
    · split
      · exact .inr (.inr (.inr (.inl ⟨rfl, by omega, ‹_›, rfl⟩)))
      · exact .inr (.inr (.inr (.inr (.inl ⟨rfl, by omega, by omega, rfl⟩))))

/-- All that the host's taking of a byte can do. -/
theorem takeResponse_cases (s : State) :
    (s.rspq = [] ∧ takeResponse s = s) ∨
    (∃ b bs, s.rspq = b :: bs ∧ takeResponse s = { s with rspq := bs, rspTaken := s.rspTaken ++ [b] }) := by
  unfold takeResponse
  cases h : s.rspq with
  | nil => simp
  | cons b bs => exact .inr ⟨b, bs, rfl, rfl⟩

/-- A page slice exists for the eight pages and no other. -/
theorem pageSlice_cases (p : Nat) (m : Memory) :
    (p < 8 ∧ pageSlice p m = some (m.readRange (128 * p) 128)) ∨ (8 ≤ p ∧ pageSlice p m = none) := by
  unfold pageSlice
  simp only [Config.pages, Config.width]
  split
  · exact .inl ⟨‹_›, rfl⟩
  · exact .inr ⟨by omega, rfl⟩

end Sys2Proof.Machine
end

