-- ==== Sys2Proof/Laws/PerInstr.lean ====
section
/-! SUPPORT. One lemma for each instruction: its word decodes, in its slot, to it. -/

namespace Sys2Proof.Laws.RoundTrip

/-- Decoding the word of a well-formed instruction where it stands gives the instruction back (30_encoding.md R77 to R84). -/
def Statement (i : Instr) : Prop := i.wellFormed = true → decode (slotOf i) (encode i) = .instr i

/-- An assembled word that matches its opcode's row decodes to what its fields name. -/
theorem decodeCommand_commandWord (o : Opcode) (a8 : Byte) (x y : Half) (h8 : usesA8 o = false → a8 = 0#8)
    (hxy : usesXY o = false → x = 0#16 ∧ y = 0#16) :
    decodeCommand (commandWord (opcodeByte o) a8 x y) = .instr (buildCommand o (commandWord (opcodeByte o) a8 x y)) := by
  have hm : commandWord (opcodeByte o) a8 x y &&& maskOf o = patternOf o := by
    rw [matches_iff]
    simpa using ⟨h8, hxy⟩
  simp [decodeCommand, hm]

theorem clear : Statement .clear := fun _ => rfl

theorem setpix (x y : Int) : Statement (.setpix x y) := by
  intro h
  simp only [Instr.wellFormed, decide_eq_true_eq] at h
  simp only [slotOf, encode, decode, decodeCommand_commandWord .setpix 0#8 _ _ (fun _ => rfl) (by simp [usesXY]),
    buildCommand, fieldX_commandWord, fieldY_commandWord, sext16_coordField h.1, sext16_coordField h.2]

theorem pageslice (p : Nat) : Statement (.pageslice p) := by
  intro h
  simp only [Instr.wellFormed, decide_eq_true_eq] at h
  simp only [slotOf, encode, decode, decodeCommand_commandWord .pageslice _ 0#16 0#16 (by simp [usesA8]) (fun _ => ⟨rfl, rfl⟩),
    buildCommand, fieldA8_commandWord, toNat_ofNat_a8 h]

theorem lookup (c : Byte) : Statement (.lookup c) := by
  intro _
  simp only [slotOf, encode, decode, decodeCommand_commandWord .lookup _ 0#16 0#16 (by simp [usesA8]) (fun _ => ⟨rfl, rfl⟩),
    buildCommand, fieldA8_commandWord]

theorem drawchar (c : Byte) (x y : Int) : Statement (.drawchar c x y) := by
  intro h
  simp only [Instr.wellFormed, decide_eq_true_eq] at h
  simp only [slotOf, encode, decode, decodeCommand_commandWord .drawchar _ _ _ (by simp [usesA8]) (by simp [usesXY]),
    buildCommand, fieldA8_commandWord, fieldX_commandWord, fieldY_commandWord, sext16_coordField h.1, sext16_coordField h.2]

theorem drawtext (len : Nat) (x y : Int) : Statement (.drawtext len x y) := by
  intro h
  simp only [Instr.wellFormed, decide_eq_true_eq] at h
  simp only [slotOf, encode, decode, decodeCommand_commandWord .drawtext _ _ _ (by simp [usesA8]) (by simp [usesXY]),
    buildCommand, fieldA8_commandWord, fieldX_commandWord, fieldY_commandWord, toNat_ofNat_a8 h.1, sext16_coordField h.2.1,
    sext16_coordField h.2.2]

theorem init : Statement .init := fun _ => rfl

theorem present : Statement .present := fun _ => rfl

theorem textbeat (w : Beat) : Statement (.textbeat w) := fun _ => rfl

theorem iseq00 : Statement .iseq00 := fun _ => rfl
theorem iseq01 : Statement .iseq01 := fun _ => rfl
theorem iseq02 : Statement .iseq02 := fun _ => rfl
theorem iseq03 : Statement .iseq03 := fun _ => rfl
theorem iseq04 : Statement .iseq04 := fun _ => rfl
theorem iseq05 : Statement .iseq05 := fun _ => rfl
theorem iseq06 : Statement .iseq06 := fun _ => rfl
theorem iseq07 : Statement .iseq07 := fun _ => rfl
theorem iseq08 : Statement .iseq08 := fun _ => rfl
theorem iseq09 : Statement .iseq09 := fun _ => rfl
theorem iseq10 : Statement .iseq10 := fun _ => rfl
theorem iseq11 : Statement .iseq11 := fun _ => rfl
theorem iseq12 : Statement .iseq12 := fun _ => rfl
theorem iseq13 : Statement .iseq13 := fun _ => rfl
theorem iseq14 : Statement .iseq14 := fun _ => rfl
theorem iseq15 : Statement .iseq15 := fun _ => rfl
theorem iseq16 : Statement .iseq16 := fun _ => rfl
theorem iseq17 : Statement .iseq17 := fun _ => rfl
theorem iseq18 : Statement .iseq18 := fun _ => rfl
theorem iseq19 : Statement .iseq19 := fun _ => rfl
theorem iseq20 : Statement .iseq20 := fun _ => rfl
theorem iseq21 : Statement .iseq21 := fun _ => rfl
theorem iseq22 : Statement .iseq22 := fun _ => rfl
theorem iseq23 : Statement .iseq23 := fun _ => rfl
theorem iseq24 : Statement .iseq24 := fun _ => rfl
theorem iseq25 : Statement .iseq25 := fun _ => rfl
theorem iseq26 : Statement .iseq26 := fun _ => rfl
theorem iseq27 : Statement .iseq27 := fun _ => rfl

theorem pageSel (p : Nat) : Statement (.pageSel p) := by
  intro h
  simp only [Instr.wellFormed, decide_eq_true_eq] at h
  exact decodePage_pageByte h (by omega : 0 ≤ 3)

theorem colLo0 : Statement .colLo0 := fun _ => rfl

theorem colHi0 : Statement .colHi0 := fun _ => rfl

theorem pageData : Statement .pageData := fun _ => rfl

end Sys2Proof.Laws.RoundTrip
end

