-- ==== Sys2Proof/Laws/Step.lean ====
section
/-! SUPPORT. What one step can do, said once: `OdbMove` lists every move of the ODB, `TurnMove` every agent's move, and `step_move`
says that a step that answers a next state made one of them. -/

namespace Sys2Proof.Machine

/-- The steps that the table's sequencer rows stand for. -/
def seqStep : Instr → Bool
  | .clear => false
  | .setpix _ _ => false
  | .pageslice _ => false
  | .lookup _ => false
  | .drawchar _ _ _ => false
  | .drawtext _ _ _ => false
  | .init => false
  | .present => false
  | .textbeat _ => false
  | .pageSel _ => true
  | .colLo0 => true
  | .colHi0 => true
  | .pageData => true
  | .iseq00 => true | .iseq01 => true | .iseq02 => true | .iseq03 => true | .iseq04 => true | .iseq05 => true | .iseq06 => true
  | .iseq07 => true | .iseq08 => true | .iseq09 => true | .iseq10 => true | .iseq11 => true | .iseq12 => true | .iseq13 => true
  | .iseq14 => true | .iseq15 => true | .iseq16 => true | .iseq17 => true | .iseq18 => true | .iseq19 => true | .iseq20 => true
  | .iseq21 => true | .iseq22 => true | .iseq23 => true | .iseq24 => true | .iseq25 => true | .iseq26 => true | .iseq27 => true

/-- The ISEQ step of an index issues that index's byte (42_sequencer.md R130). -/
theorem exec_iseqInstr {k : Nat} {i : Instr} (h : iseqInstr k = some i) (s : State) :
    exec i s = .next (busIssue (.cmd (iseqAt k)) { s with seqK := k }) := by
  unfold iseqInstr at h
  split at h <;> first | (cases h; rfl) | simp at h

/-- The step of a page issues the page's transaction of that phase (42_sequencer.md R131). -/
theorem exec_pageInstr {ph : Nat} {p : Nat} (hp : p < Config.pages) (hph : ph ≤ 3) {i : Instr}
    (h : decodePage ph (pageByte p ph) = .instr i) (s : State) (hs : s.seqP = p) (hs' : s.seqPh = ph) :
    exec i s = .next (busIssue (pageTx p ph s.fb) s) := by
  rw [decodePage_pageByte hp hph] at h
  have e1 : { s with seqP := p, seqPh := ph } = s := by cases s; simp_all
  have e2 : { s with seqPh := ph } = s := by cases s; simp_all
  interval_cases ph <;> simp only [Decoded.instr.injEq] at h <;> subst h
  · show Host.Outcome.next _ = _
    rw [e1]; rfl
  · show Host.Outcome.next _ = _
    rw [e2]; rfl
  · show Host.Outcome.next _ = _
    rw [e2]; rfl
  · show execPageData s = _
    unfold execPageData
    rcases pageSlice_cases s.seqP s.fb with ⟨-, hsl⟩ | ⟨hge, -⟩
    · subst hs
      rw [hsl]
      show Host.Outcome.next (busIssue _ { s with seqPh := 3 }) = _
      rw [e2]; rfl
    · simp only [Config.pages] at hp; omega

/-- Every move of the ODB that answers a next state, with what it needs. -/
inductive OdbMove (s : State) : State → Prop
  /-- Reset is asserted, or the ODB waits for the host or the transport. -/
  | wait (h : s.rst = true ∨ (cmdReady s = true ∧ s.offered = []) ∨ (s.busy = true ∧ s.port = .expectCmd ∧ s.txp.isSome) ∨
      (s.busy = true ∧ s.port = .expectCmd ∧ s.txp = none ∧ s.cstate.running = false ∧ s.rspq ≠ [])) : OdbMove s s
  /-- A legal command word is taken and executed. -/
  | command (w : Beat) (ws : List Beat) (o : Opcode) (t : State) (hr : s.rst = false) (hb : s.busy = false)
      (hp : s.port = .expectCmd) (ho : s.offered = w :: ws) (hop : opcodeOf (fieldOpc w) = some o)
      (hm : w &&& maskOf o = patternOf o) (he : exec (buildCommand o w) (accept w { s with offered := ws }) = .next t) : OdbMove s t
  /-- A word with an illegal opcode is taken. -/
  | illegal (w : Beat) (ws : List Beat) (hr : s.rst = false) (hb : s.busy = false) (hp : s.port = .expectCmd)
      (ho : s.offered = w :: ws) (hop : opcodeOf (fieldOpc w) = none) :
      OdbMove s (raise .illegal { s with offered := ws })
  /-- A word with a nonzero reserved or unused field is taken. -/
  | reserved (w : Beat) (ws : List Beat) (o : Opcode) (hr : s.rst = false) (hb : s.busy = false) (hp : s.port = .expectCmd)
      (ho : s.offered = w :: ws) (hop : opcodeOf (fieldOpc w) = some o) (hm : w &&& maskOf o ≠ patternOf o) :
      OdbMove s (rejectReserved w { s with offered := ws })
  /-- A text beat is taken. -/
  | text (w : Beat) (ws : List Beat) (n : Nat) (t : State) (hr : s.rst = false) (hp : s.port = .expectText n)
      (ho : s.offered = w :: ws) (he : exec (.textbeat w) { s with offered := ws } = .next t) : OdbMove s t
  /-- One unit of the stabilization delay passes. -/
  | tick (hr : s.rst = false) (hb : s.busy = true) (hp : s.port = .expectCmd) (hx : s.txp = none)
      (hc : s.cstate = .initializing) (hs : s.stab ≠ 0) : OdbMove s (delayTick s)
  /-- INIT issues its next byte. -/
  | initStep (hr : s.rst = false) (hb : s.busy = true) (hp : s.port = .expectCmd) (hx : s.txp = none)
      (hc : s.cstate = .initializing) (hs : s.stab = 0) (hk : s.seqK < initLen) :
      OdbMove s (busIssue (.cmd (iseqAt s.seqK)) s)
  /-- PRESENT runs the step its counters select. -/
  | pageStep (i : Instr) (t : State) (hr : s.rst = false) (hb : s.busy = true) (hp : s.port = .expectCmd) (hx : s.txp = none)
      (hc : s.cstate = .updating) (hd : decodePage s.seqPh (pageByte s.seqP s.seqPh) = .instr i)
      (he : exec i s = .next t) : OdbMove s t
  /-- PAGESLICE or LOOKUP ends, its response taken. -/
  | drained (hr : s.rst = false) (hb : s.busy = true) (hp : s.port = .expectCmd) (hx : s.txp = none)
      (hc : s.cstate.running = false) (hq : s.rspq = []) : OdbMove s (finish .ok s)

/-- The ODB's move is one of those listed. -/
theorem odbTurn_move {s t : State} (h : odbTurn s = .next t) : OdbMove s t := by
  unfold odbTurn at h
  cases hr : s.rst with
  | true => simp only [hr, if_true, Host.Outcome.next.injEq] at h; subst h; exact .wait (.inl hr)
  | false =>
    simp only [hr, Bool.false_eq_true, if_false] at h
    cases hp : s.port with
    | expectText n =>
      simp only [hp] at h
      unfold takeText at h
      cases ho : s.offered with
      | nil =>
        simp only [ho, Host.Outcome.next.injEq] at h
        subst h
        exact .wait (.inr (.inl ⟨by simp [cmdReady, hr, hp], ho⟩))
      | cons w ws =>
        simp only [ho, decode] at h
        exact .text w ws n t hr hp ho h
    | expectCmd =>
      simp only [hp] at h
      cases hb : s.busy with
      | false =>
        simp only [hb, Bool.false_eq_true, if_false, takeCommand] at h
        cases ho : s.offered with
        | nil =>
          simp only [ho, Host.Outcome.next.injEq] at h
          subst h
          exact .wait (.inr (.inl ⟨by simp [cmdReady, hr, hp, hb], ho⟩))
        | cons w ws =>
          simp only [ho, dispatchWord, decode] at h
          cases hd : decodeCommand w with
          | instr i =>
            obtain ⟨o, hop, hm, rfl⟩ := decodeCommand_instr hd
            simp only [hd] at h
            exact .command w ws o t hr hb hp ho hop hm h
          | reject r =>
            rcases decodeCommand_reject hd with ⟨rfl, hop⟩ | ⟨rfl, o, hop, hm⟩
            · simp only [hd, Host.Outcome.next.injEq] at h
              subst h
              exact .illegal w ws hr hb hp ho hop
            · simp only [hd, Host.Outcome.next.injEq] at h
              subst h
              exact .reserved w ws o hr hb hp ho hop hm
      | true =>
        simp only [hb, if_true, continueOp] at h
        cases hx : s.txp with
        | some x =>
          simp only [hx, Host.Outcome.next.injEq] at h
          subst h
          exact .wait (.inr (.inr (.inl ⟨hb, hp, by simp [hx]⟩)))
        | none =>
          have idle : s.cstate.running = false → Host.Outcome.next (φ := Fault) (ρ := Refusal)
              (if s.rspq = [] then finish .ok s else s) = .next t → OdbMove s t := by
            intro hc h
            simp only [Host.Outcome.next.injEq] at h
            subst h
            split
            · exact .drained hr hb hp hx hc ‹_›
            · exact .wait (.inr (.inr (.inr ⟨hb, hp, hx, hc, ‹_›⟩)))
          cases hc : s.cstate with
          | uninit => simp only [hx, hc] at h; exact idle (by simp [hc, CState.running]) h
          | ready => simp only [hx, hc] at h; exact idle (by simp [hc, CState.running]) h
          | failed => simp only [hx, hc] at h; exact idle (by simp [hc, CState.running]) h
          | initializing =>
            simp only [hx, hc] at h
            split at h
            · rename_i hs
              simp only [runStep, decode] at h
              cases hi : iseqInstr s.seqK with
              | none => simp [decodeInit, hi] at h
              | some i =>
                simp only [decodeInit_iseqAt hi, exec_iseqInstr hi, Host.Outcome.next.injEq] at h
                subst h
                exact .initStep hr hb hp hx hc hs (iseqInstr_isSome.1 (by simp [hi]))
            · simp only [Host.Outcome.next.injEq] at h
              subst h
              exact .tick hr hb hp hx hc ‹_›
          | updating =>
            simp only [hx, hc, runStep, decode] at h
            cases hd : decodePage s.seqPh (pageByte s.seqP s.seqPh) with
            | instr i => simp only [hd] at h; exact .pageStep i t hr hb hp hx hc hd h
            | reject r => simp [hd] at h

/-- Every agent's move that answers a next state. -/
inductive TurnMove (s : State) : Turn → State → Prop
  | odb (t : State) (h : OdbMove s t) : TurnMove s .odb t
  | offer (w : Beat) : TurnMove s (.offer w) { s with offered := s.offered ++ [w] }
  | withdraw : TurnMove s .withdraw { s with offered := [] }
  | take : TurnMove s .take (takeResponse s)
  | answer (r : Answer) : TurnMove s (.answer r) (busAnswer r s)
  | lateAnswer (n : Nat) (r : Answer) : TurnMove s (.lateAnswer n r) (answerAbandoned n s)
  | assertRst (f x : List Host.Cell) (h : s.rst = false) : TurnMove s (.assertRst f x) (applyReset f x s)
  | stillRst (f x : List Host.Cell) (h : s.rst = true) : TurnMove s (.assertRst f x) s
  | releaseRst : TurnMove s .releaseRst { s with rst := false }

/-- An agent's move is one of those listed. -/
theorem runTurn_move {u : Turn} {s t : State} (h : runTurn u s = .next t) : TurnMove s u t := by
  cases u with
  | odb => exact .odb t (odbTurn_move h)
  | offer w => simp only [runTurn, Host.Outcome.next.injEq] at h; subst h; exact .offer w
  | withdraw => simp only [runTurn, Host.Outcome.next.injEq] at h; subst h; exact .withdraw
  | take => simp only [runTurn, Host.Outcome.next.injEq] at h; subst h; exact .take
  | answer r => simp only [runTurn, Host.Outcome.next.injEq] at h; subst h; exact .answer r
  | lateAnswer n r => simp only [runTurn, Host.Outcome.next.injEq] at h; subst h; exact .lateAnswer n r
  | releaseRst => simp only [runTurn, Host.Outcome.next.injEq] at h; subst h; exact .releaseRst
  | assertRst f x =>
    simp only [runTurn, Host.Outcome.next.injEq] at h
    subst h
    cases hr : s.rst with
    | true => exact .stillRst f x hr
    | false => exact .assertRst f x hr

/-- The inversion of the step: the agent whose turn it is made one of its moves. -/
theorem step_move {s t : State} (h : step s = .next t) :
    (s.turns = [] ∧ OdbMove s t) ∨ (∃ u us, s.turns = u :: us ∧ TurnMove { s with turns := us } u t) := by
  unfold step nextTurn at h
  cases hu : s.turns with
  | nil => simp only [hu] at h; exact .inl ⟨rfl, odbTurn_move h⟩
  | cons u us => simp only [hu] at h; exact .inr ⟨u, us, rfl, runTurn_move h⟩

end Sys2Proof.Machine
end

