-- ==== Sys2Proof/Tests/Slice0.lean ====
section
/-! SUPPORT. Tests. Expected values come from the rules' tables and from spec/95_test_vectors.md, named at each theorem. Theorems
named `witness_<Obligation>` show a concrete state and operands that meet that obligation's hypotheses. -/

set_option maxRecDepth 100000

namespace Sys2Proof.Tests

open Sys2Proof.Machine

/-- TR_SOLID of 95_test_vectors.md: every column byte 0xFF. -/
abbrev solid : Vector Byte Config.glyphBytes := Vector.replicate 260 0xFF#8

/-- TR_DIAG of 95_test_vectors.md: column `i` has only row `i` lit. -/
def diag : Vector Byte Config.glyphBytes :=
  ⟨((List.replicate 52 [0x01#8, 0x02#8, 0x04#8, 0x08#8, 0x10#8]).flatten).toArray, by decide⟩

/-- The state after reset with TR_SOLID and a delay of 2 units, the fields that the witnesses look at written out. -/
abbrev base : State := { State.reset with
  glyphRom := solid, tStab := 2
  fb := [], txtbuf := [], txtlen := 0, cstate := .uninit, busy := false, port := .expectCmd, seqK := 0, seqP := 0, seqPh := 0
  stab := 0, rspq := [], txp := none, rst := false, turns := [], offered := [], log := [.reset] }

/-- `base` with TR_DIAG. -/
abbrev diagBase : State := { base with glyphRom := diag }

/-- `base` with these beats offered. -/
abbrev offering (ws : List Beat) : State := { base with offered := ws }

/-- The answer is a next state with this property. -/
def next (r : Result) (p : State → Bool) : Bool :=
  match r with
  | .next t => p t
  | .fault _ => false
  | .refused _ => false

/-- The answer is a next state with this framebuffer and STATUS. -/
def shows (r : Result) (fb : Memory) (st : Nat) : Bool := next r (fun t => t.fb == fb && (status t).toNat == st)

/-- The answer is a next state in which these bytes wait on the response stream. -/
def emits (r : Result) (bs : List Byte) : Bool := next r (fun t => t.rspq == bs)

/-- One step takes the beat; STATUS after it, with FB untouched and no response byte (95_test_vectors.md V1). -/
def endsAt (w : Beat) (st : Nat) : Bool :=
  next (step { base with offered := [w], fb := [(3, 0x55#8)] }) (fun t =>
    (status t).toNat == st && t.fb == [(3, 0x55#8)] && t.offered == [] && t.rspq == [] && t.log == [.reset])

/-- The step issues this transaction. -/
def issues (r : Result) (t : Tx) : Bool := next r (fun s => s.txp == some t && s.log == [.reset, .tx t .pending])

/-! ### WellFormed: each check refuses an ill-formed term -/

theorem test_wf_setpix : Instr.wellFormed (.setpix 32768 0) = false ∧
    Instr.wellFormed (.setpix (-32769) 0) = false ∧
    Instr.wellFormed (.setpix 0 32768) = false ∧
    Instr.wellFormed (.setpix 0 (-32769)) = false := by decide

theorem test_wf_drawchar : Instr.wellFormed (.drawchar 0x41#8 32768 0) = false ∧
    Instr.wellFormed (.drawchar 0x41#8 (-32769) 0) = false ∧
    Instr.wellFormed (.drawchar 0x41#8 0 32768) = false ∧
    Instr.wellFormed (.drawchar 0x41#8 0 (-32769)) = false := by decide

theorem test_wf_drawtext : Instr.wellFormed (.drawtext 256 0 0) = false ∧
    Instr.wellFormed (.drawtext 3 32768 0) = false ∧
    Instr.wellFormed (.drawtext 3 (-32769) 0) = false ∧
    Instr.wellFormed (.drawtext 3 0 32768) = false ∧
    Instr.wellFormed (.drawtext 3 0 (-32769)) = false := by decide

theorem test_wf_pageslice : Instr.wellFormed (.pageslice 256) = false := by decide

theorem test_wf_pageSel : Instr.wellFormed (.pageSel 8) = false := by decide

theorem test_wf_bounds : Instr.wellFormed (.setpix (-32768) 32767) = true ∧ Instr.wellFormed (.drawtext 255 32767 (-32768)) = true ∧
    Instr.wellFormed (.pageslice 255) = true ∧ Instr.wellFormed (.pageSel 7) = true := by decide

/-! ### Decode: words written out from the tables (R77, R81; opcode_table.json) -/

/-- OPC 0x01, all else 0. -/
theorem test_decode_clear : decode .command (.beat 0x0100000000000000#64) = .instr (.clear) := by decide

/-- X = 0x8000 and Y = 0x7FFF at the two ends of R78. -/
theorem test_decode_setpix : decode .command (.beat 0x0200000080007FFF#64) = .instr (.setpix (-32768) 32767) := by decide

/-- A8 = 0xFF. -/
theorem test_decode_pageslice : decode .command (.beat 0x03FF000000000000#64) = .instr (.pageslice 255) := by decide

/-- A8 = 0xC1 (V3). -/
theorem test_decode_lookup : decode .command (.beat 0x04C1000000000000#64) = .instr (.lookup 0xC1#8) := by decide

/-- A8 = 0x41, X = 0xFFFE, Y = 0x000C (V4). -/
theorem test_decode_drawchar : decode .command (.beat 0x05410000FFFE000C#64) = .instr (.drawchar 0x41#8 (-2) 12) := by decide

/-- A8 = 4, X = 0xFFFA, Y = 0x0010 (P4). -/
theorem test_decode_drawtext : decode .command (.beat 0x06040000FFFA0010#64) = .instr (.drawtext 4 (-6) 16) := by decide

/-- OPC 0x10. -/
theorem test_decode_init : decode .command (.beat 0x1000000000000000#64) = .instr (.init) := by decide

/-- OPC 0x11. -/
theorem test_decode_present : decode .command (.beat 0x1100000000000000#64) = .instr (.present) := by decide

/-- In EXPECT_TEXT even the word of CLEAR is a text beat (R76). -/
theorem test_decode_textbeat : decode .text (.beat 0x0100000000000000#64) = .instr (.textbeat 0x0100000000000000#64) := by decide

/-- The bytes of R128's table, each at its index. -/
theorem test_decode_iseq_0 : ∀ e ∈ [
      (0, 0xAE#8, Instr.iseq00), (1, 0x20#8, Instr.iseq01), (2, 0x00#8, Instr.iseq02), (3, 0xB0#8, Instr.iseq03),
      (4, 0xC8#8, Instr.iseq04), (5, 0x00#8, Instr.iseq05), (6, 0x10#8, Instr.iseq06), (7, 0x40#8, Instr.iseq07),
      (8, 0x81#8, Instr.iseq08), (9, 0xFF#8, Instr.iseq09), (10, 0xA1#8, Instr.iseq10), (11, 0xA6#8, Instr.iseq11),
      (12, 0xA8#8, Instr.iseq12), (13, 0x3F#8, Instr.iseq13)],
    decode (.initSeq e.1) (.byte e.2.1) = .instr e.2.2 := by decide

/-- The bytes of R128's table, each at its index. -/
theorem test_decode_iseq_14 : ∀ e ∈ [
      (14, 0xA4#8, Instr.iseq14), (15, 0xD3#8, Instr.iseq15), (16, 0x00#8, Instr.iseq16), (17, 0xD5#8, Instr.iseq17),
      (18, 0xF0#8, Instr.iseq18), (19, 0xD9#8, Instr.iseq19), (20, 0x22#8, Instr.iseq20), (21, 0xDA#8, Instr.iseq21),
      (22, 0x12#8, Instr.iseq22), (23, 0xDB#8, Instr.iseq23), (24, 0x20#8, Instr.iseq24), (25, 0x8D#8, Instr.iseq25),
      (26, 0x14#8, Instr.iseq26), (27, 0xAF#8, Instr.iseq27)],
    decode (.initSeq e.1) (.byte e.2.1) = .instr e.2.2 := by decide

/-- 0xB0 + P for the eight pages (R93). -/
theorem test_decode_pageSel : ∀ e ∈ [(0xB0#8, 0), (0xB1#8, 1), (0xB2#8, 2), (0xB3#8, 3), (0xB4#8, 4), (0xB5#8, 5), (0xB6#8, 6), (0xB7#8, 7)],
    decode (.page 0) (.byte e.1) = .instr (.pageSel e.2) := by decide

/-- The other bytes of a page (R91, R132). -/
theorem test_decode_page_steps : decode (.page 1) (.byte 0x00#8) = .instr .colLo0 ∧ decode (.page 2) (.byte 0x10#8) = .instr .colHi0 ∧
    decode (.page 3) (.byte 0x40#8) = .instr .pageData := by decide

/-- Words that are no instruction where they stand (V1, R93). -/
theorem test_decode_rejects : decode .command (.beat 0x0000000000000000#64) = .reject .illegalOpcode ∧
    decode .command (.beat 0xFF06000000000000#64) = .reject .illegalOpcode ∧
    decode .command (.beat 0x0100000000000001#64) = .reject .reservedField ∧
    decode .command (.beat 0x0609000100000000#64) = .reject .reservedField ∧
    decode .command (.byte 0x01#8) = .reject .wrongSize ∧ decode (.initSeq 0) (.byte 0x20#8) = .reject .wrongByte ∧
    decode (.initSeq 28) (.byte 0x00#8) = .reject .noSuchStep ∧ decode (.page 0) (.byte 0xB8#8) = .reject .wrongByte := by decide

/-- V1's beat counts. -/
theorem test_beatCount : ∀ e ∈ [(0x0600000000000000#64, 1), (0x0601000000000000#64, 2), (0x0608000000000000#64, 2), (0x0609000000000000#64, 3),
      (0x0618000000000000#64, 4), (0x06FF000000000000#64, 33), (0x0508000000000000#64, 1)], beatCount e.1 = e.2 := by decide

/-- Words as opcode_table.json numbers them; a byte that two rows share reads as the earlier row (log 13). -/
theorem test_table_words : decodeTableWord 64 0x0301000000000000 = some (.pageslice 1) ∧ decodeTableWord 64 0x41 = some (.textbeat 0x41#64) ∧
    decodeTableWord 8 0xAF = some .iseq27 ∧ decodeTableWord 8 0xB5 = some (.pageSel 5) ∧ decodeTableWord 16 0 = none := by decide

/-! ### Framebuffer (V2) -/

/-- V2: CLEAR, READY stays READY. -/
theorem test_clear : shows (exec .clear { base with fb := [(0, 0xAA#8), (1023, 0xAA#8)], cstate := .ready, err := .page }) [] 0x0002 := by decide

/-- V2: SETPIX 127, 63. -/
theorem test_setpix_corner : shows (exec (.setpix 127 63) base) [(1023, 0x80#8)] 0x0000 := by decide

/-- V2: SETPIX 128, 0. -/
theorem test_setpix_off : shows (exec (.setpix 128 0) base) [] 0x0000 := by decide

/-- R60, with no value off the display. -/
theorem test_pixel : pixel [(1023, 0x80#8)] 127 63 = some true ∧ pixel [(128, 0x01#8)] 0 8 = some true ∧ pixel [(128, 0x01#8)] 128 0 = none ∧
    pixel [] 0 64 = none := by decide

/-- V2: PAGESLICE 1 after SETPIX 3, 8 and 3, 10. -/
theorem test_pageslice : emits (exec (.pageslice 1) { base with fb := [(131, 0x05#8), (1023, 0x80#8)] })
      ([0x00#8, 0x00#8, 0x00#8, 0x05#8] ++ List.replicate 124 0x00#8) := by decide

/-- V2: PAGESLICE 8. -/
theorem test_pageslice_outside : shows (exec (.pageslice 8) base) [] 0x0040 := by decide

/-! ### Rasterizer (V3 to V5) -/

/-- V3: 'A', TR_DIAG. -/
theorem test_lookup_letter : emits (exec (.lookup 0x41#8) diagBase) [0x01#8, 0x01#8, 0x02#8, 0x04#8, 0x08#8, 0x10#8] := by decide

/-- V3: 0x60, between the two ranges of letters. -/
theorem test_lookup_other : emits (exec (.lookup 0x60#8) base) [0x00#8, 0x00#8, 0x00#8, 0x00#8, 0x00#8, 0x00#8] := by decide

/-- W8. -/
theorem test_glyphIndex : ∀ e ∈ [(0x41#8, 0), (0x4D#8, 12), (0x5A#8, 25), (0x61#8, 26), (0x69#8, 34), (0x7A#8, 51)],
    (glyphIndex e.1).map Fin.val = some e.2 := by decide

/-- V4: (0, 5), TR_DIAG: a glyph over two pages. -/
theorem test_drawchar_split : shows (exec (.drawchar 0x41#8 0 5) diagBase)
      [(0, 0x20#8), (1, 0x40#8), (2, 0x80#8), (131, 0x01#8), (132, 0x02#8)] 0x0000 := by decide

/-- V4: (-2, 0), TR_DIAG. -/
theorem test_drawchar_clipped : shows (exec (.drawchar 0x41#8 (-2) 0) diagBase) [(0, 0x04#8), (1, 0x08#8), (2, 0x10#8)] 0x0000 := by decide

/-- V5: an empty text draws nothing and ends at once. -/
theorem test_drawtext_empty : shows (exec (.drawtext 0 5 9) base) [] 0x0000 := by decide

/-- R83: NB = 2 for 9 bytes. -/
theorem test_drawtext_expects : next (exec (.drawtext 9 0 0) { base with busy := true }) (fun t => t.port == .expectText 2 && t.txtlen == 9 && t.busy) := by decide

/-- A DRAWTEXT at (x, y) whose one text beat comes next. -/
abbrev collecting (len : Nat) (x y : Half) : State :=
  { base with busy := true, port := .expectText 1, txtlen := len, opl := { opc := 0x06#8, a8 := BitVec.ofNat 8 len, x := x, y := y } }

/-- V5: DRAWTEXT 121, 0, "AB", TR_SOLID: 'B' at 127 is not drawn. -/
theorem test_textbeat_truncates : shows (exec (.textbeat 0x0000000000004241#64) (collecting 2 0x0079#16 0x0000#16))
      [(121, 0xFF#8), (122, 0xFF#8), (123, 0xFF#8), (124, 0xFF#8), (125, 0xFF#8)] 0x0000 := by decide

/-- P4: DRAWTEXT -6, 16, "AA\0A": the first 'A' off screen, 0x00 ends the text. -/
theorem test_textbeat_zero_ends : next (exec (.textbeat 0x0000000041004141#64) (collecting 4 0xFFFA#16 0x0010#16)) (fun t =>
      t.fb == [(256, 0xFF#8), (257, 0xFF#8), (258, 0xFF#8), (259, 0xFF#8), (260, 0xFF#8)] && t.cx == 6 && t.cy == 16) := by decide

/-! ### Sequencer (W1, W2, V6) -/

/-- V6: INIT from UNINIT reads 0x0009 while it runs; the delay of T_STAB begins. -/
theorem test_init : next (exec .init { base with busy := true }) (fun t => (status t).toNat == 0x0009 && t.stab == 2 && t.log == [.reset]) := by decide

/-- V6: PRESENT reads 0x000B while it runs. -/
theorem test_present : next (exec .present { base with busy := true, cstate := .ready }) (fun t => (status t).toNat == 0x000B) := by decide

/-- V6: PRESENT in FAILED. -/
theorem test_present_failed : shows (exec .present { base with busy := true, cstate := .failed }) [] 0x0034 := by decide

theorem test_iseq00 : issues (exec .iseq00 base) (.cmd 0xAE#8) := by decide

theorem test_iseq09 : issues (exec .iseq09 base) (.cmd 0xFF#8) := by decide

theorem test_iseq27 : issues (exec .iseq27 base) (.cmd 0xAF#8) := by decide

theorem test_pageSel : issues (exec (.pageSel 7) base) (.cmd 0xB7#8) := by decide

theorem test_colLo0 : issues (exec .colLo0 base) (.cmd 0x00#8) := by decide

theorem test_colHi0 : issues (exec .colHi0 base) (.cmd 0x10#8) := by decide

/-- V6: the 32nd transaction is Data(FB[896..1023]). -/
theorem test_pageData : issues (exec .pageData { base with seqP := 7, fb := [(1023, 0x80#8)] }) (.data (List.replicate 127 0x00#8 ++ [0x80#8])) := by decide

/-- W1, W2. -/
theorem test_frames : txFrame (.cmd 0xAE#8) = [0x00#8, 0xAE#8] ∧ txFrame (.data [0x05#8, 0x06#8]) = [0x40#8, 0x05#8, 0x06#8] := by decide

/-! ### Steps -/

/-- V1. -/
theorem test_step_illegal : endsAt 0x0700000000000000#64 0x0010 ∧ endsAt 0xFF06000000000000#64 0x0010 := by decide

/-- V1. -/
theorem test_step_reserved : endsAt 0x0201000000050009#64 0x0020 ∧ endsAt 0x0300000100000000#64 0x0020 := by decide

/-- V1: E_RESERVED comes before E_STATE and E_PAGE. -/
theorem test_step_precedence : endsAt 0x1100000000010000#64 0x0020 ∧ endsAt 0x0309000000010000#64 0x0020 ∧ endsAt 0x1100000000000000#64 0x0030 ∧
    endsAt 0x03FF000000000000#64 0x0040 := by decide

/-- R77, R87: the fields of a word. -/
theorem test_wordLatch : wordLatch 0x0541000080007FFF#64 = { opc := 0x05#8, a8 := 0x41#8, x := 0x8000#16, y := 0x7FFF#16 } := by decide

/-- R129, R130: after the delay, and its log entry, SEQ_K <- 0. -/
theorem test_step_delay_ends : next (step { base with busy := true, cstate := .initializing, seqK := 27, stab := 1 }) (fun t =>
      t.seqK == 0 && t.stab == 0 && t.log == [.reset, .delay 2]) := by decide

/-- R162: an answer to an abandoned transaction is ignored, though a new one is outstanding. -/
theorem test_step_late_answer : next (step { base with
        busy := true, cstate := .initializing, txp := some (.cmd 0xAE#8), log := [.tx (.cmd 0xAE#8) .pending]
        abandoned := [.cmd 0xB1#8], turns := [.lateAnswer 0 .fail] }) (fun t =>
      t.txp == some (.cmd 0xAE#8) && t.log == [.tx (.cmd 0xAE#8) .pending] && t.busy && t.abandoned == []) := by decide

/-- V6: the 5th transaction of INIT fails. -/
theorem test_step_answer_fail : next (step { base with
        busy := true, cstate := .initializing, seqK := 4, txp := some (.cmd 0xC8#8), log := [.tx (.cmd 0xC8#8) .pending]
        turns := [.answer .fail] }) (fun t => (status t).toNat == 0x0054 && t.log == [.tx (.cmd 0xC8#8) .fail]) := by decide

/-- V6: the last Ok of PRESENT; R131 leaves SEQ_P at 7 and SEQ_PH at 3. -/
theorem test_step_last_ok : next (step { base with
        busy := true, cstate := .updating, seqP := 7, seqPh := 3, txp := some (pageTx 7 3 []), log := [.tx (pageTx 7 3 []) .pending]
        turns := [.answer .ok] }) (fun t =>
      (status t).toNat == 0x0002 && t.txp == none && t.seqP == 7 && t.seqPh == 3) := by decide

/-- V7: reset during PRESENT, with FB any value. -/
theorem test_step_reset : next (step { base with
        busy := true, cstate := .updating, seqP := 1, seqPh := 3, txp := some (pageTx 1 3 []), log := [.tx (pageTx 1 3 []) .pending]
        turns := [.assertRst [(7, 0x99#8)] []] }) (fun t =>
      (status t).toNat == 0 && t.fb == [(7, 0x99#8)] && t.log == [.tx (pageTx 1 3 []) .pending, .reset] &&
      t.abandoned == [pageTx 1 3 []]) := by decide

/-- W9, V2: SETPIX as the first instruction after reset. -/
theorem test_fetch_word : ∀ e ∈ [(64, 0x0200000000050009, 133), (64, 0x02000000007F0000, 127)],
    next (step (State.reset.withFetchWord e.1 e.2.1)) (fun t => t.fb.map Prod.fst == [e.2.2]) := by decide

/-! ### Assembler (R95 to R98) -/

/-- P4. -/
theorem test_asm_drawtext : assembleText (['d', 'r', 'a', 'w', 't', 'e', 'x', 't', ' ', '-', '6', ',', ' ', '1', '6', ','] ++
      [' ', '"', 'A', 'A', '\\', '0', 'A', '"']) =
      some [0x06040000FFFA0010#64, 0x0000000041004141#64] := by decide

/-- P4, with a comment. -/
theorem test_asm_drawchar : assembleText (['D', 'R', 'A', 'W', 'C', 'H', 'A', 'R', ' ', '\'', '#', '\'', ',', ' ', '5', '0'] ++
      [',', ' ', '0', ' ', ';', ' ', 'n', 'o']) =
      some [0x0523000000320000#64] := by decide

/-- P2, in hexadecimal. -/
theorem test_asm_setpix : assembleText (['S', 'E', 'T', 'P', 'I', 'X', ' ', '0', 'x', '7', 'F', ',', ' ', '6', '3']) =
      some [0x02000000007F003F#64] := by decide

/-- P5. -/
theorem test_asm_word : assembleText (['.', 'w', 'o', 'r', 'd', ' ', '0', 'x', '0', '6', '0', '9', '0', '0', '0', '1'] ++
      ['0', '0', '0', '0', '0', '0', '0', '0']) =
      some [0x0609000100000000#64] := by decide

/-- R95: p is at most 255. -/
theorem test_asm_error : assembleText ['P', 'A', 'G', 'E', 'S', 'L', 'I', 'C', 'E', ' ', '2', '5', '6'] = none := by decide

/-! ### Witnesses: the obligations' hypotheses can be met -/

theorem witness_DecodeEncodeAgree :
    Instr.wellFormed (.drawtext 255 (-32768) 32767) = true ∧ Instr.wellFormed (.pageSel 7) = true := by decide

theorem witness_DecodedWordIsEncoded :
    decode (.page 0) (.byte 0xB7#8) = .instr (.pageSel 7) := by decide

theorem witness_AssembledDrawtext :
    (List.replicate 255 0x41#8 : List Byte).length ≤ 255 ∧ 0 < (255 + 7) / 8 ∧ (7 : Nat) < 8 := by decide

theorem witness_StepRunsOfferedBeat :
    (offering [0x0200000000050009#64]).rst = false ∧ (offering [0x0200000000050009#64]).turns = [] ∧
    (offering [0x0200000000050009#64]).busy = false ∧ (offering [0x0200000000050009#64]).port = .expectCmd ∧
    decode .command (.beat 0x0200000000050009#64) = .instr (.setpix 5 9) := by decide

/-- `collecting` with its text beat offered. -/
abbrev textOffered : State := { collecting 2 0x0000#16 0x0000#16 with offered := [0x0000000000006948#64] }

theorem witness_StepRunsOfferedBeat_text :
    textOffered.rst = false ∧ textOffered.turns = [] ∧ textOffered.offered = [0x0000000000006948#64] ∧
    textOffered.port = .expectText 1 := by decide

/-- INIT about to issue its last byte. -/
abbrev initRunning : State := { base with busy := true, cstate := .initializing, seqK := 27 }

/-- PRESENT about to issue its last transaction. -/
abbrev presentRunning : State := { base with busy := true, cstate := .updating, seqP := 7, seqPh := 3 }

/-- INIT waiting for its last answer. -/
abbrev initWaiting (a : Answer) : State :=
  { initRunning with txp := some (.cmd 0xAF#8), log := [.reset] ++ [.tx (.cmd 0xAF#8) .pending], turns := [.answer a] }

/-- PRESENT waiting for the answer to step `ph` of page `p`. -/
abbrev presentWaiting (p ph : Nat) (a : Answer) : State :=
  { presentRunning with
    seqP := p, seqPh := ph, txp := some (pageTx p ph []), log := [.reset] ++ [.tx (pageTx p ph []) .pending], turns := [.answer a] }

theorem witness_StepRunsSequencerStep_init :
    initRunning.rst = false ∧ initRunning.busy = true ∧ initRunning.port = .expectCmd ∧ initRunning.txp = none ∧
    initRunning.turns = [] ∧ initRunning.cstate = .initializing ∧ initRunning.stab = 0 ∧
    decode (.initSeq initRunning.seqK) (.byte (iseqAt initRunning.seqK)) = .instr .iseq27 := by decide

theorem witness_StepRunsSequencerStep_present :
    presentRunning.rst = false ∧ presentRunning.busy = true ∧ presentRunning.port = .expectCmd ∧ presentRunning.txp = none ∧
    presentRunning.turns = [] ∧ presentRunning.cstate = .updating ∧
    decode (.page presentRunning.seqPh) (.byte (pageByte presentRunning.seqP presentRunning.seqPh)) = .instr .pageData := by decide

theorem witness_TurnsAreMadeInOrder :
    next (step (offering [0x0200000000050009#64])) (fun t => t.offered == []) ∧
    ({ offering [0x0200000000050009#64] with turns := [.odb, .take] } : State).turns = .odb :: [.take] ∧
    ({ base with turns := [.offer 0x05#64] } : State).turns = .offer 0x05#64 :: [] ∧
    ({ base with turns := [.withdraw] } : State).turns = .withdraw :: [] ∧
    ({ base with turns := [.releaseRst] } : State).turns = .releaseRst :: [] := by decide

theorem witness_TurnsAreMadeInOrder_noop :
    ({ base with turns := [.take], rspq := [0x01#8] } : State).turns = .take :: [] ∧
    ({ base with turns := [.take], rspq := [0x01#8] } : State).rspq = 0x01#8 :: [] ∧ base.rspq = [] ∧
    ({ base with turns := [.answer .fail] } : State).turns = .answer .fail :: [] ∧ base.txp = none ∧
    ({ base with turns := [.assertRst [] []], rst := true } : State).turns = .assertRst [] [] :: [] ∧
    ({ base with turns := [.assertRst [] []], rst := true } : State).rst = true := by decide

theorem witness_IllegalWordEnds :
    Idle (offering [0xFF06000000000000#64]) ∧ (offering [0xFF06000000000000#64]).turns = [] ∧
    decode .command (.beat 0xFF06000000000000#64) = .reject .illegalOpcode := by decide

theorem witness_ReservedWordEnds :
    Idle (offering [0x1100000000010000#64]) ∧ (offering [0x1100000000010000#64]).turns = [] ∧
    decode .command (.beat 0x1100000000010000#64) = .reject .reservedField ∧
    (0x1100000000010000#64).extractLsb' 56 8 ≠ 0x06#8 := by decide

/-- P5: a DRAWTEXT of 9 bytes with RSV = 1, its two text beats, and a CLEAR. -/
abbrev rejectedText : State := offering (0x0609000100000000#64 :: ([0x4141414141414141#64, 0x0000000000000041#64] ++ [0x0100000000000000#64]))

theorem witness_ReservedDrawtextTakesItsBeats :
    Inv rejectedText ∧ Idle rejectedText ∧ rejectedText.turns = [] ∧ (0x0609000100000000#64).extractLsb' 56 8 = 0x06#8 ∧
    (0x0609000100000000#64).extractLsb' 32 16 ≠ 0#16 ∧
    [0x4141414141414141#64, 0x0000000000000041#64].length = (((0x0609000100000000#64).extractLsb' 48 8).toNat + 7) / 8 := by decide

theorem witness_BeatsWaitForReady :
    cmdReady { initRunning with offered := [0x0100000000000000#64] } = false ∧
    next (step { initRunning with offered := [0x0100000000000000#64] }) (fun t => t.offered == [0x0100000000000000#64]) := by decide

/-- `initRunning` meets the invariant. -/
theorem inv_initRunning : Inv initRunning := by decide

theorem witness_ErrHeldWhileBusy :
    Inv initRunning ∧ next (step initRunning) (fun t => t.busy) := ⟨inv_initRunning, by decide⟩

theorem witness_SetpixOrsOneBit :
    Memory.wf [(133, 0x40#8)] ∧ (0 : Int) ≤ 127 ∧ ((1023 : Nat) : Int) = 127 + (63 / 8) * 128 := by decide

theorem witness_SetpixUnpackedView :
    Memory.wf [(133, 0x40#8)] := by decide

theorem witness_PackerIsBijection :
    (127 : Nat) < 128 ∧ (63 : Nat) < 64 ∧ (1023 : Nat) < 1024 ∧ (7 : Nat) < 8 ∧ 128 ≤ 128 ∧ 64 ≤ 64 := by decide

theorem witness_SetpixRuns :
    Memory.wf [(133, 0x40#8)] ∧ [((127 : Int), (63 : Int)), (128, 0)].Perm [(128, 0), (127, 63)] := ⟨by decide, .swap _ _ _⟩

theorem witness_PagesliceEmitsPage :
    (7 : Nat) < 8 := by decide

theorem witness_PagesliceOutsideEnds :
    (8 : Nat) ≤ 8 := by decide

/-- A PAGESLICE 7 offered, and the moves of its whole operation. -/
abbrev slicing : State :=
  { base with offered := [0x0307000000000000#64], turns := [.odb] ++ List.replicate 128 .take ++ [.odb] ++ [] }

theorem witness_PagesliceWholeOperation :
    Inv slicing ∧ Idle slicing ∧ 7 < 8 ∧ encode (.pageslice 7) = .beat 0x0307000000000000#64 ∧
    slicing.offered = 0x0307000000000000#64 :: [] ∧ slicing.turns = [.odb] ++ List.replicate 128 .take ++ [.odb] ++ [] := by decide

theorem witness_OnlyClearTurnsBitsOff :
    Inv { offering [0x0200000000050009#64] with fb := [(7, 0x01#8)] } ∧
    resetting { offering [0x0200000000050009#64] with fb := [(7, 0x01#8)] } = false ∧
    (offering [0x0200000000050009#64]).offered.head? ≠ some 0x0100000000000000#64 ∧
    next (step { offering [0x0200000000050009#64] with fb := [(7, 0x01#8)] }) (fun t => (t.fb.read 7).getLsbD 0) := by decide

theorem witness_RedrawLaws :
    Memory.wf [(133, 0x40#8)] ∧ (0x40#8).toNat < 0x41 ∧ (∃ c x y, Instr.drawchar 0x41#8 0 5 = .drawchar c x y) ∧
    (∃ x y, Instr.setpix 127 63 = .setpix x y) := ⟨by decide, by decide, ⟨_, _, _, rfl⟩, _, _, rfl⟩

theorem witness_RedrawLaws_text :
    Inv base ∧ Idle base ∧ base.turns = [] ∧ Instr.wellFormed (.drawtext 9 (-6) 0) = true ∧
    encode (.drawtext 9 (-6) 0) = .beat 0x06090000FFFA0000#64 ∧
    [0x4141414141414141#64, 0x0000000000000041#64].length = (9 + 7) / 8 := by decide

theorem witness_LookupResponses :
    (0x5A#8).toNat ≤ 0x5A ∧ 25 = (0x5A#8).toNat - 0x41 ∧ 0x61 ≤ (0x61#8).toNat ∧ 26 = (0x61#8).toNat - 0x61 + 26 ∧
    (0x40#8).toNat < 0x41 ∧ 0x5A < (0x60#8).toNat ∧ (0x60#8).toNat < 0x61 ∧ 0x7A < (0x7B#8).toNat := by decide

theorem witness_DrawcharClosedForm :
    Memory.wf [(133, 0x40#8)] ∧ glyphIndex 0x7A#8 = some (51 : Fin 52) ∧ (127 : Nat) < 128 ∧ (7 : Nat) < 8 ∧
    ((127 : Nat) : Int) = 123 + (4 : Fin 5).val ∧ 122 + 5 ≤ ((127 : Nat) : Int) ∧ ((127 : Nat) : Int) < 128 := by decide

theorem witness_UnsupportedDrawsNothing :
    (0x40#8).toNat < 0x41 ∧ 0x5A < (0x5B#8).toNat ∧ (0x5B#8).toNat < 0x61 ∧ 0x7A < (0x7B#8).toNat := by decide

theorem witness_DrawtextBegins :
    Instr.wellFormed (.drawtext 255 32767 (-32768)) = true ∧ 0 < 255 ∧ Instr.wellFormed (.drawtext 0 5 9) = true := by decide

theorem witness_TextbeatStoresLanes :
    Memory.wf [(9, 0x40#8)] ∧ ({ collecting 9 0 0 with port := .expectText 2 } : State).port = .expectText 2 ∧
    2 ≤ 2 ∧ 0 + 2 = ((collecting 9 0 0).txtlen + 7) / 8 := by decide

theorem witness_LastTextbeatDraws :
    (collecting 255 0 0).txtbuf.wf ∧ (collecting 255 0 0).port = .expectText 1 ∧ 31 + 1 = ((collecting 255 0 0).txtlen + 7) / 8 ∧
    (collecting 255 0 0).rsv = 0#16 := by decide

theorem witness_TextNeverReachesRightEdge :
    Memory.wf [(133, 0x40#8)] ∧ 126 ≤ 254 % 128 ∧ 1024 ≤ 1024 := by decide

/-- V5: DRAWTEXT 0, 0, "A B" and its text beat. -/
abbrev texting : State := offering (0x0603000000000000#64 :: ([0x0000000000422041#64] ++ []))

theorem witness_DrawtextWholeOperation :
    Inv texting ∧ Idle texting ∧ texting.turns = [] ∧ Instr.wellFormed (.drawtext 3 0 0) = true ∧
    encode (.drawtext 3 0 0) = .beat 0x0603000000000000#64 ∧ [0x0000000000422041#64].length = (3 + 7) / 8 := by decide

theorem witness_PageStepsIssueTheirTransactions :
    (7 : Nat) < 8 ∧ presentRunning.seqP = 7 := by decide

theorem witness_ModelsOwnStops :
    8 ≤ ({ base with seqP := 8 } : State).seqP ∧ base.port = .expectCmd := by decide

/-- An INIT whose counter selects no step. -/
abbrev initLost : State := { base with busy := true, cstate := .initializing, seqK := 28 }

/-- A PRESENT whose counters select no step. -/
abbrev presentLost (p ph : Nat) : State := { base with busy := true, cstate := .updating, seqP := p, seqPh := ph }

theorem witness_ModelsOwnStops_init :
    initLost.rst = false ∧ initLost.busy = true ∧ initLost.port = .expectCmd ∧ initLost.txp = none ∧ initLost.turns = [] ∧
    initLost.cstate = .initializing ∧ initLost.stab = 0 ∧ 28 ≤ initLost.seqK := by decide

theorem witness_ModelsOwnStops_present :
    ∀ e ∈ [(0, 4), (8, 0), (15, 0)], (presentLost e.1 e.2).rst = false ∧ (presentLost e.1 e.2).busy = true ∧
    (presentLost e.1 e.2).port = .expectCmd ∧ (presentLost e.1 e.2).txp = none ∧ (presentLost e.1 e.2).turns = [] ∧
    (presentLost e.1 e.2).cstate = .updating ∧ (4 ≤ e.2 ∨ (e.2 = 0 ∧ 8 ≤ e.1 ∧ e.1 < 16)) := by decide

theorem witness_FramesAndOutputs :
    Inv presentRunning ∧ next (step presentRunning) (fun t => t.txp == some (.data (List.replicate 128 0x00#8))) ∧
    base.rst = false ∧ ({ base with rspq := [0x05#8] } : State).rspq = 0x05#8 :: [] ∧ rspValid base = false := by decide

theorem witness_PresentStarts :
    ({ base with cstate := .ready } : State).cstate = .ready := by decide

theorem witness_PresentNeedsReady :
    base.cstate ≠ .ready := by decide

theorem witness_FailEndsOperation :
    (initWaiting .fail).turns = .answer .fail :: [] ∧ (initWaiting .fail).txp = some (.cmd 0xAF#8) ∧
    (initWaiting .fail).log = [.reset] ++ [.tx (.cmd 0xAF#8) .pending] ∧ Inv (initWaiting .fail) := by decide

theorem witness_OkAdvancesSequencer_init :
    (initWaiting .ok).turns = .answer .ok :: [] ∧ (initWaiting .ok).txp = some (.cmd 0xAF#8) ∧
    (initWaiting .ok).log = [.reset] ++ [.tx (.cmd 0xAF#8) .pending] ∧ (initWaiting .ok).cstate = .initializing ∧
    (initWaiting .ok).seqK = 27 ∧ ({ initWaiting .ok with seqK := 26 } : State).seqK < 27 := by decide

theorem witness_OkAdvancesSequencer_present :
    ∀ e ∈ [(7, 2), (6, 3), (7, 3)], (presentWaiting e.1 e.2 .ok).turns = .answer .ok :: [] ∧
    (presentWaiting e.1 e.2 .ok).txp = some (pageTx e.1 e.2 []) ∧
    (presentWaiting e.1 e.2 .ok).log = [.reset] ++ [.tx (pageTx e.1 e.2 []) .pending] ∧
    (presentWaiting e.1 e.2 .ok).cstate = .updating ∧ (e.2 < 3 ∨ (e.2 = 3 ∧ e.1 < 7) ∨ (e.2 = 3 ∧ e.1 = 7)) := by decide

/-- INIT waiting for its last answer, no turn listed. -/
abbrev initSilent : State := { initRunning with txp := some (.cmd 0xAF#8), log := [.reset, .tx (.cmd 0xAF#8) .pending] }

/-- An operation waiting for the host to take a byte. -/
abbrev draining : State := { base with busy := true, rspq := [0x05#8] }

theorem witness_OdbWaits_answer :
    Inv initSilent ∧ initSilent.turns = [] ∧ initSilent.txp ≠ none := by decide

theorem witness_OdbWaits_text :
    Inv (collecting 2 0x0000#16 0x0000#16) ∧ (collecting 2 0x0000#16 0x0000#16).turns = [] ∧
    (collecting 2 0x0000#16 0x0000#16).port = .expectText 1 ∧ (collecting 2 0x0000#16 0x0000#16).offered = [] := by decide

theorem witness_OdbWaits_response :
    Inv draining ∧ draining.turns = [] ∧ draining.rspq ≠ [] := by decide

theorem witness_OnlyInitAndPresentIssue :
    Inv initRunning ∧ next (step initRunning) (fun t => t.txp == some (.cmd 0xAF#8)) := ⟨inv_initRunning, by decide⟩

theorem witness_OnlyInitAndPresentIssue_exec :
    (∃ x y, Instr.setpix 5 9 = .setpix x y) ∧ next (exec (.setpix 5 9) base) (fun t => t.txp == none) := ⟨⟨_, _, rfl⟩, by decide⟩

/-- INIT offered, and the moves of its whole operation with the given end. -/
abbrev initRun (n : Nat) (tail : List Turn) : State :=
  { base with offered := [0x1000000000000000#64], turns := startTurns 2 ++ okTurns n ++ tail }

/-- PRESENT offered in READY, and the moves of its whole operation with the given end. -/
abbrev presentRun (n : Nat) (tail : List Turn) : State :=
  { base with cstate := .ready, offered := [0x1100000000000000#64], turns := [.odb] ++ okTurns n ++ tail }

theorem witness_InitWholeOperation_failed :
    Inv { base with cstate := .failed, err := .transport } ∧ Idle { base with cstate := .failed, err := .transport } := by decide

theorem witness_InitWholeOperation :
    Inv (initRun 28 []) ∧ Idle (initRun 28 []) ∧ (initRun 28 []).offered = 0x1000000000000000#64 :: [] ∧
    (initRun 28 []).turns = startTurns (initRun 28 []).tStab ++ okTurns 28 ++ [] := by decide

theorem witness_InitFailsAtTransaction :
    Inv (initRun 27 [.odb, .answer .fail]) ∧ Idle (initRun 27 [.odb, .answer .fail]) ∧ 27 < 28 ∧
    (initRun 27 [.odb, .answer .fail]).offered = 0x1000000000000000#64 :: [] ∧
    (initRun 27 [.odb, .answer .fail]).turns =
      startTurns (initRun 27 [.odb, .answer .fail]).tStab ++ okTurns 27 ++ [.odb, .answer .fail] ++ [] := by decide

theorem witness_PresentWholeOperation :
    Inv (presentRun 32 []) ∧ Idle (presentRun 32 []) ∧ (presentRun 32 []).cstate = .ready ∧
    (presentRun 32 []).offered = 0x1100000000000000#64 :: [] ∧ (presentRun 32 []).turns = [.odb] ++ okTurns 32 ++ [] := by decide

theorem witness_PresentFailsAtTransaction :
    Inv (presentRun 31 [.odb, .answer .fail]) ∧ Idle (presentRun 31 [.odb, .answer .fail]) ∧
    (presentRun 31 [.odb, .answer .fail]).cstate = .ready ∧ 31 < 32 ∧
    (presentRun 31 [.odb, .answer .fail]).offered = 0x1100000000000000#64 :: [] ∧
    (presentRun 31 [.odb, .answer .fail]).turns = [.odb] ++ okTurns 31 ++ [.odb, .answer .fail] ++ [] := by decide

theorem witness_PresentSnapshot :
    Inv presentRunning ∧ presentRunning.cstate = .updating ∧ resetting presentRunning = false ∧
    next (step presentRunning) (fun _ => true) := by decide

theorem witness_LifecycleTransitions :
    Inv (initWaiting .ok) ∧ next (step (initWaiting .ok)) (fun t => t.cstate == .ready) := by decide

theorem witness_OnlyResetUninitializes :
    next (step { presentRunning with turns := [.assertRst [] []] }) (fun t => t.cstate == .uninit) := by decide

theorem witness_ResetValues :
    ({ presentRunning with turns := [.assertRst [(1023, 0x01#8)] []] } : State).rst = false ∧
    ({ presentRunning with turns := [.assertRst [(1023, 0x01#8)] [], .releaseRst] } : State).turns =
      .assertRst [(1023, 0x01#8)] [] :: .releaseRst :: [] ∧ ({ base with rst := true } : State).rst = true := by decide

theorem witness_ResetDrawsAnyFramebuffer :
    base.rst = false ∧ (1023 : Nat) < 1024 := by decide

theorem witness_ResetAbandonsTransaction :
    ({ presentWaiting 1 3 .ok with turns := [.assertRst [] [], .releaseRst] } : State).rst = false ∧
    (presentWaiting 1 3 .ok).txp = some (pageTx 1 3 []) ∧
    (presentWaiting 1 3 .ok).log = [.reset] ++ [.tx (pageTx 1 3 []) .pending] ∧
    ({ presentWaiting 1 3 .ok with turns := [.assertRst [] [], .releaseRst] } : State).turns =
      .assertRst [] [] :: .releaseRst :: [] := by decide

theorem witness_ResetAbandonsTransaction_late :
    ({ initWaiting .ok with abandoned := [pageTx 1 3 []], turns := [.lateAnswer 0 .fail] } : State).turns =
      .lateAnswer 0 .fail :: [] := by decide

theorem witness_ParametersNeverChange :
    next (step initRunning) (fun t => t.tStab == 2) := by decide

theorem witness_StepKeepsInvariant :
    Inv initRunning ∧ next (step initRunning) (fun t => t.txp != none) := ⟨inv_initRunning, by decide⟩

theorem witness_MachineNeverStops :
    Inv presentRunning := by decide

/-- A LOOKUP offered, and the moves of its whole operation. -/
abbrev looking (w : Beat) : State :=
  { base with offered := [w], turns := [.odb] ++ List.replicate 6 .take ++ [.odb] ++ [] }

theorem witness_LookupWholeOperation :
    Inv (looking 0x047A000000000000#64) ∧ Idle (looking 0x047A000000000000#64) ∧ glyphIndex 0x7A#8 = some 51 ∧
    encode (.lookup 0x7A#8) = .beat 0x047A000000000000#64 ∧
    (looking 0x047A000000000000#64).turns = [.odb] ++ List.replicate 6 .take ++ [.odb] ++ [] := by decide

theorem witness_LookupWholeOperation_absent :
    Inv (looking 0x0440000000000000#64) ∧ Idle (looking 0x0440000000000000#64) ∧ glyphIndex 0x40#8 = none ∧
    encode (.lookup 0x40#8) = .beat 0x0440000000000000#64 := by decide

end Sys2Proof.Tests
end

section
/-! SUPPORT. The ODB's move neither reads nor changes the turns still to come: with another list in the state it makes the same move
and carries that list along. Then O9 and O40. -/

namespace Sys2Proof.Machine

/-- The state with other turns still to come. -/
def State.setTurns (us : List Turn) (s : State) : State := { s with turns := us }

/-- An answer with other turns still to come in its next state. -/
def withTurns (us : List Turn) : Result → Result
  | .next t => .next (t.setTurns us)
  | .fault r => .fault r
  | .refused r => .refused r

section Carry

variable (us : List Turn) (s : State)

/-! ### The fields the ODB's move branches on -/

@[simp] theorem setTurns_fb : (s.setTurns us).fb = s.fb := rfl
@[simp] theorem setTurns_cstate : (s.setTurns us).cstate = s.cstate := rfl
@[simp] theorem setTurns_busy : (s.setTurns us).busy = s.busy := rfl
@[simp] theorem setTurns_port : (s.setTurns us).port = s.port := rfl
@[simp] theorem setTurns_rsv : (s.setTurns us).rsv = s.rsv := rfl
@[simp] theorem setTurns_seqK : (s.setTurns us).seqK = s.seqK := rfl
@[simp] theorem setTurns_seqP : (s.setTurns us).seqP = s.seqP := rfl
@[simp] theorem setTurns_seqPh : (s.setTurns us).seqPh = s.seqPh := rfl
@[simp] theorem setTurns_stab : (s.setTurns us).stab = s.stab := rfl
@[simp] theorem setTurns_rspq : (s.setTurns us).rspq = s.rspq := rfl
@[simp] theorem setTurns_txp : (s.setTurns us).txp = s.txp := rfl
@[simp] theorem setTurns_rst : (s.setTurns us).rst = s.rst := rfl
@[simp] theorem setTurns_offered : (s.setTurns us).offered = s.offered := rfl

/-! ### What the shared operations do with another turn list -/

theorem endText_setTurns : endText (s.setTurns us) = (endText s).setTurns us := by
  unfold endText
  rw [setTurns_rsv]
  split <;> rfl

theorem beginText_setTurns (len : Nat) : beginText len (s.setTurns us) = (beginText len s).setTurns us := by
  unfold beginText
  split
  · exact endText_setTurns us { s with txtlen := len }
  · rfl

theorem rejectReserved_setTurns (w : Beat) : rejectReserved w (s.setTurns us) = (rejectReserved w s).setTurns us := by
  unfold rejectReserved
  split
  · exact beginText_setTurns us { s with busy := true, rsv := fieldRsv w } (fieldA8 w).toNat
  · rfl

/-! ### What the instructions that branch on the state do with another turn list -/

theorem execPageslice_setTurns (p : Nat) : execPageslice p (s.setTurns us) = withTurns us (execPageslice p s) := by
  unfold execPageslice
  rw [setTurns_fb]
  cases pageSlice p s.fb <;> rfl

theorem execTextbeat_setTurns (w : Beat) : execTextbeat w (s.setTurns us) = withTurns us (execTextbeat w s) := by
  unfold execTextbeat
  rw [setTurns_port]
  cases s.port with
  | expectCmd => rfl
  | expectText n =>
    dsimp only
    split
    · exact congrArg Host.Outcome.next (endText_setTurns us { s with
        txtbuf := storeLanes (textBeats s.txtlen - n) w s.txtlen s.txtbuf
        port := .expectCmd })
    · rfl

theorem execPresent_setTurns : execPresent (s.setTurns us) = withTurns us (execPresent s) := by
  unfold execPresent
  rw [setTurns_cstate]
  split <;> rfl

theorem execPageData_setTurns : execPageData (s.setTurns us) = withTurns us (execPageData s) := by
  unfold execPageData
  rw [setTurns_fb, setTurns_seqP]
  cases pageSlice s.seqP s.fb <;> rfl

/-- Each instruction not named here is one update of other fields. -/
theorem exec_setTurns (i : Instr) : exec i (s.setTurns us) = withTurns us (exec i s) := by
  cases i with
  | pageslice p => exact execPageslice_setTurns us s p
  | drawtext len x y => exact congrArg Host.Outcome.next (beginText_setTurns us (latchText len x y s) len)
  | textbeat w => exact execTextbeat_setTurns us s w
  | present => exact execPresent_setTurns us s
  | pageData => exact execPageData_setTurns us s
  | _ => rfl

/-! ### What the ODB's move does with another turn list -/

theorem dispatchWord_setTurns (w : Beat) : dispatchWord w (s.setTurns us) = withTurns us (dispatchWord w s) := by
  unfold dispatchWord
  cases decode .command (.beat w) with
  | instr i => exact exec_setTurns us (accept w s) i
  | reject r =>
    cases r with
    | reservedField => exact congrArg Host.Outcome.next (rejectReserved_setTurns us s w)
    | _ => rfl

theorem takeCommand_setTurns : takeCommand (s.setTurns us) = withTurns us (takeCommand s) := by
  unfold takeCommand
  rw [setTurns_offered]
  cases s.offered with
  | nil => rfl
  | cons w ws => exact dispatchWord_setTurns us { s with offered := ws } w

theorem takeText_setTurns : takeText (s.setTurns us) = withTurns us (takeText s) := by
  unfold takeText
  rw [setTurns_offered]
  cases s.offered with
  | nil => rfl
  | cons w ws =>
    dsimp only
    cases decode .text (.beat w) with
    | instr i => exact exec_setTurns us { s with offered := ws } i
    | reject r => rfl

theorem runStep_setTurns (sl : Slot) (b : Byte) : runStep sl b (s.setTurns us) = withTurns us (runStep sl b s) := by
  unfold runStep
  cases decode sl (.byte b) with
  | instr i => exact exec_setTurns us s i
  | reject r => rfl

theorem continueOp_setTurns : continueOp (s.setTurns us) = withTurns us (continueOp s) := by
  have drain : (if s.rspq = [] then finish .ok (s.setTurns us) else s.setTurns us) =
      (if s.rspq = [] then finish .ok s else s).setTurns us := by split <;> rfl
  unfold continueOp
  rw [setTurns_txp, setTurns_cstate, setTurns_rspq, setTurns_stab, setTurns_seqK, setTurns_seqP, setTurns_seqPh]
  cases s.txp with
  | some x => rfl
  | none =>
    cases s.cstate with
    | initializing =>
      dsimp only
      split
      · exact runStep_setTurns us s (.initSeq s.seqK) (iseqAt s.seqK)
      · rfl
    | updating => exact runStep_setTurns us s (.page s.seqPh) (pageByte s.seqP s.seqPh)
    | uninit => exact congrArg Host.Outcome.next drain
    | ready => exact congrArg Host.Outcome.next drain
    | failed => exact congrArg Host.Outcome.next drain

/-- 00_scope.md R26, log 5: which moves are still to come is nothing the ODB can see. -/
theorem odbTurn_setTurns : odbTurn (s.setTurns us) = withTurns us (odbTurn s) := by
  unfold odbTurn
  rw [setTurns_rst, setTurns_port, setTurns_busy]
  split
  · rfl
  · cases s.port with
    | expectText n => exact takeText_setTurns us s
    | expectCmd =>
      dsimp only
      split
      · exact continueOp_setTurns us s
      · exact takeCommand_setTurns us s

end Carry

/-! ### The step, by the turns listed -/

theorem step_of_turns_nil {s : State} (h : s.turns = []) : step s = odbTurn s := by
  simp [step, nextTurn, h]

theorem step_of_turns_cons {s : State} {u : Turn} {us : List Turn} (h : s.turns = u :: us) :
    step s = runTurn u { s with turns := us } := by
  simp [step, nextTurn, h]

/-- A listed ODB turn is the ODB's own move, with the turns after it left to come. -/
theorem step_of_turns_odb {s : State} {us : List Turn} (h : s.turns = .odb :: us) :
    step s = withTurns us (step { s with turns := [] }) := by
  calc step s = odbTurn { s with turns := us } := step_of_turns_cons h
    _ = withTurns us (odbTurn { s with turns := [] }) := odbTurn_setTurns us { s with turns := [] }
    _ = withTurns us (step { s with turns := [] }) := by rw [step_of_turns_nil rfl]

/-! ### The host's taking of a byte and an answer to nothing -/

theorem takeResponse_of_nil {s : State} (h : s.rspq = []) : takeResponse s = s := by
  simp [takeResponse, h]

theorem takeResponse_of_cons {s : State} {b : Byte} {bs : List Byte} (h : s.rspq = b :: bs) :
    takeResponse s = { s with rspq := bs, rspTaken := s.rspTaken ++ [b] } := by
  simp [takeResponse, h]

theorem busAnswer_of_none {s : State} (r : Answer) (h : s.txp = none) : busAnswer r s = s := by
  simp [busAnswer, h]

/-! ### The statements -/

/-- Settles O9: the ODB's turn by `step_of_turns_odb`; each other turn is one move, by the case of the field it looks at. -/
theorem turnsAreMadeInOrder : Obligations.TurnsAreMadeInOrder := by
  intro s us
  refine ⟨?odb, ?offer, ?withdraw, ?take, ?noByte, ?noAnswer, ?stillRst, ?release⟩
  case odb =>
    intro h t ht
    rw [step_of_turns_odb h, ht]
    rfl
  case offer => exact fun w h => step_of_turns_cons h
  case withdraw => exact fun h => step_of_turns_cons h
  case take => exact fun b bs h hq => (step_of_turns_cons h).trans (congrArg Host.Outcome.next (takeResponse_of_cons hq))
  case noByte => exact fun h hq => (step_of_turns_cons h).trans (congrArg Host.Outcome.next (takeResponse_of_nil hq))
  case noAnswer => exact fun r h hx => (step_of_turns_cons h).trans (congrArg Host.Outcome.next (busAnswer_of_none r hx))
  case stillRst => exact fun f x h hr => (step_of_turns_cons h).trans (congrArg Host.Outcome.next (if_pos hr))
  case release => exact fun h => step_of_turns_cons h

/-- Settles O40: in READY the test of R135 passes, and PRESENT's first stretch is the update of R131. -/
theorem presentStarts : Obligations.PresentStarts := by
  intro s h
  calc exec .present s = execPresent s := rfl
    _ = .next { s with cstate := .updating, seqP := 0, seqPh := 0 } := if_pos h

end Sys2Proof.Machine
end

section
/-! SUPPORT. What every move keeps: the two parameters, and ERR while the operation runs. Then O15 and O56. -/

namespace Sys2Proof.Machine

/-- What no move of any agent changes: the glyph table and the delay's length, and ERR where the operation has not ended. -/
def MoveKeeps (s t : State) : Prop :=
  t.glyphRom = s.glyphRom ∧ t.tStab = s.tStab ∧ (t.busy = true → t.err = s.err)

/-- A move that leaves the operation ended may set ERR. -/
theorem moveKeeps_of_ended {s t : State} (hg : t.glyphRom = s.glyphRom) (hs : t.tStab = s.tStab) (hb : t.busy = false) :
    MoveKeeps s t :=
  ⟨hg, hs, fun h => absurd (hb.symm.trans h) Bool.false_ne_true⟩

theorem moveKeeps_finish (e : ErrCode) (s : State) : MoveKeeps s (finish e s) := moveKeeps_of_ended rfl rfl rfl

theorem moveKeeps_raise (e : ErrCode) (s : State) : MoveKeeps s (raise e s) := moveKeeps_of_ended rfl rfl rfl

/-- A move that writes neither the parameters nor ERR. -/
theorem moveKeeps_of_frame {s t : State} (hg : t.glyphRom = s.glyphRom) (hs : t.tStab = s.tStab) (he : t.err = s.err) :
    MoveKeeps s t :=
  ⟨hg, hs, fun _ => he⟩

theorem moveKeeps_endText (s : State) : MoveKeeps s (endText s) := by
  rcases endText_cases s with ⟨-, h⟩ | ⟨-, h⟩ <;> rw [h]
  · exact moveKeeps_of_ended rfl rfl rfl
  · exact moveKeeps_raise .reserved { s with rsv := 0#16 }

theorem moveKeeps_beginText (len : Nat) (s : State) : MoveKeeps s (beginText len s) := by
  rcases beginText_cases len s with ⟨-, h⟩ | ⟨-, h⟩ <;> rw [h]
  · exact moveKeeps_endText { s with txtlen := 0 }
  · exact moveKeeps_of_frame rfl rfl rfl

theorem moveKeeps_rejectReserved (w : Beat) (s : State) : MoveKeeps s (rejectReserved w s) := by
  rcases rejectReserved_cases w s with ⟨-, h⟩ | ⟨-, h⟩ <;> rw [h]
  · exact moveKeeps_beginText (fieldA8 w).toNat { s with busy := true, rsv := fieldRsv w }
  · exact moveKeeps_raise .reserved s

theorem moveKeeps_advance (s : State) : MoveKeeps s (advance s) := by
  rcases advance_cases s with
    ⟨-, -, h⟩ | ⟨-, -, h⟩ | ⟨-, -, h⟩ | ⟨-, -, -, h⟩ | ⟨-, -, -, h⟩ | ⟨-, h⟩ <;> rw [h]
  · exact moveKeeps_of_frame rfl rfl rfl
  · exact moveKeeps_finish .ok { s with cstate := .ready }
  · exact moveKeeps_of_frame rfl rfl rfl
  · exact moveKeeps_of_frame rfl rfl rfl
  · exact moveKeeps_finish .ok { s with cstate := .ready }
  · exact moveKeeps_of_frame rfl rfl rfl

theorem moveKeeps_busAnswer (r : Answer) (s : State) : MoveKeeps s (busAnswer r s) := by
  rcases busAnswer_cases r s with ⟨-, h⟩ | ⟨t, -, -, h⟩ | ⟨t, -, -, h⟩ <;> rw [h]
  · exact moveKeeps_of_frame rfl rfl rfl
  · exact moveKeeps_advance { s with txp := none, log := settleLast .ok s.log }
  · exact moveKeeps_raise .transport { s with txp := none, log := settleLast .fail s.log }

theorem moveKeeps_takeResponse (s : State) : MoveKeeps s (takeResponse s) := by
  rcases takeResponse_cases s with ⟨-, h⟩ | ⟨b, bs, -, h⟩ <;> rw [h] <;> exact moveKeeps_of_frame rfl rfl rfl

/-- The instructions named here end the operation or branch on the state; each other one is one update of other fields. -/
theorem moveKeeps_exec {i : Instr} {s t : State} (h : exec i s = .next t) : MoveKeeps s t := by
  cases i with
  | clear => cases h; exact moveKeeps_finish .ok { s with fb := Memory.zero }
  | setpix x y => cases h; exact moveKeeps_finish .ok { s with fb := setPixel x y s.fb }
  | drawchar c x y => cases h; exact moveKeeps_finish .ok { s with fb := drawChar s.glyphRom c x y s.fb }
  | drawtext len x y => cases h; exact moveKeeps_beginText len (latchText len x y s)
  | pageslice p =>
    simp only [exec, execPageslice] at h
    cases hs : pageSlice p s.fb with
    | none => rw [hs] at h; cases h; exact moveKeeps_raise .page s
    | some bs => rw [hs] at h; cases h; exact moveKeeps_of_frame rfl rfl rfl
  | textbeat w =>
    simp only [exec, execTextbeat] at h
    cases hp : s.port with
    | expectCmd => rw [hp] at h; cases h
    | expectText n =>
      rw [hp] at h
      dsimp only at h
      split at h
      · cases h
        exact moveKeeps_endText { s with
          txtbuf := storeLanes (textBeats s.txtlen - n) w s.txtlen s.txtbuf
          port := .expectCmd }
      · cases h; exact moveKeeps_of_frame rfl rfl rfl
  | present =>
    simp only [exec, execPresent] at h
    split at h
    · cases h; exact moveKeeps_of_frame rfl rfl rfl
    · cases h; exact moveKeeps_raise .state s
  | pageData =>
    simp only [exec, execPageData] at h
    cases hs : pageSlice s.seqP s.fb with
    | none => rw [hs] at h; cases h
    | some ds => rw [hs] at h; cases h; exact moveKeeps_of_frame rfl rfl rfl
  | _ => cases h; exact moveKeeps_of_frame rfl rfl rfl

theorem moveKeeps_odbMove {s t : State} (h : OdbMove s t) : MoveKeeps s t := by
  cases h with
  | wait => exact moveKeeps_of_frame rfl rfl rfl
  | command w ws o _ _ _ _ _ _ _ he => exact moveKeeps_exec (s := accept w { s with offered := ws }) he
  | illegal w ws => exact moveKeeps_raise .illegal { s with offered := ws }
  | reserved w ws => exact moveKeeps_rejectReserved w { s with offered := ws }
  | text w ws n _ _ _ _ he => exact moveKeeps_exec (s := { s with offered := ws }) he
  | tick => exact moveKeeps_of_frame rfl rfl rfl
  | initStep => exact moveKeeps_of_frame rfl rfl rfl
  | pageStep i _ _ _ _ _ _ _ he => exact moveKeeps_exec he
  | drained => exact moveKeeps_finish .ok s

theorem moveKeeps_turnMove {u : Turn} {s t : State} (h : TurnMove s u t) : MoveKeeps s t := by
  cases h with
  | odb _ h => exact moveKeeps_odbMove h
  | take => exact moveKeeps_takeResponse s
  | answer r => exact moveKeeps_busAnswer r s
  | assertRst f x => exact moveKeeps_of_ended rfl rfl rfl
  | _ => exact moveKeeps_of_frame rfl rfl rfl

theorem moveKeeps_step {s t : State} (h : step s = .next t) : MoveKeeps s t := by
  rcases step_move h with ⟨-, h⟩ | ⟨u, us, -, h⟩
  · exact moveKeeps_odbMove h
  · exact moveKeeps_turnMove (s := { s with turns := us }) h

/-- Settles O15: no move but one that ends the operation writes ERR. -/
theorem errHeldWhileBusy : Obligations.ErrHeldWhileBusy := by
  intro s t _ hstep hbusy
  obtain ⟨-, -, herr⟩ := moveKeeps_step hstep
  exact herr hbusy

/-- Settles O56: no move writes a parameter, the assertion of reset included. -/
theorem parametersNeverChange : Obligations.ParametersNeverChange := by
  intro s t hstep
  obtain ⟨hrom, hstab, -⟩ := moveKeeps_step hstep
  exact ⟨hrom, hstab⟩

end Sys2Proof.Machine
end

section
/-! SUPPORT. The value of STATUS as the sum of its fields, and the contents a reset can leave in FB. Then O14 and O54. -/

namespace Sys2Proof.Machine

/-! ### STATUS -/

/-- The fields of STATUS do not overlap, so its value is the sum of theirs (10_state.md R36). -/
theorem status_toNat (s : State) :
    (status s).toNat = (cstateCode s.cstate).toNat + (if s.busy then 8 else 0) + 16 * (errCode s.err).toNat := by
  have hc : (cstateCode s.cstate).toNat < 2 ^ 3 := (cstateCode s.cstate).isLt
  have he : (errCode s.err).toNat < 2 ^ 4 := (errCode s.err).isLt
  have hb : (BitVec.ofBool s.busy).toNat < 2 := (BitVec.ofBool s.busy).isLt
  have hbusy : (if s.busy then 8 else 0) = 8 * (BitVec.ofBool s.busy).toNat := by cases s.busy <;> rfl
  have hlow : (BitVec.ofBool s.busy).toNat <<< 3 + (cstateCode s.cstate).toNat < 2 ^ 4 := by omega
  calc (status s).toNat
      = (errCode s.err).toNat <<< 4 ||| (BitVec.ofBool s.busy).toNat <<< 3 ||| (cstateCode s.cstate).toNat := by
        simp (disch := omega) only [status, BitVec.toNat_or, BitVec.toNat_shiftLeft, BitVec.toNat_setWidth,
          Nat.shiftLeft_eq, Nat.mod_eq_of_lt]
    _ = (errCode s.err).toNat <<< 4 + ((BitVec.ofBool s.busy).toNat <<< 3 + (cstateCode s.cstate).toNat) := by
        rw [Nat.or_assoc, ← Nat.shiftLeft_add_eq_or_of_lt hc, ← Nat.shiftLeft_add_eq_or_of_lt hlow]
    _ = _ := by omega

/-- The fields of STATUS fill its low byte. -/
theorem status_lt (s : State) : (status s).toNat < 2 ^ 8 := by
  have hc : (cstateCode s.cstate).toNat < 2 ^ 3 := (cstateCode s.cstate).isLt
  have he : (errCode s.err).toNat < 2 ^ 4 := (errCode s.err).isLt
  rw [status_toNat]
  split <;> omega

/-- Settles O14: the high byte by `status_lt`, the value by `status_toNat` and the codes of R35 and R140. -/
theorem statusLayout : Obligations.StatusLayout := by
  intro s
  constructor
  · have hlt : (status s).toNat / 2 ^ 8 = 0 := Nat.div_eq_of_lt (status_lt s)
    apply BitVec.eq_of_toNat_eq
    rw [BitVec.extractLsb'_toNat, Nat.shiftRight_eq_div_pow, hlt]
    rfl
  · rw [status_toNat]
    refine congrArg₂ (· + ·) (congrArg (· + _) ?_) (congrArg (16 * ·) ?_)
    · cases s.cstate <;> rfl
    · cases s.err <;> rfl

/-! ### The framebuffer a reset leaves -/

/-- Writing, for each address of a list, the byte wanted there. -/
theorem foldl_write_read {n : Nat} (want : Nat → Byte) (as : List Nat) (hlt : ∀ a ∈ as, a < n) {m : Memory} (hm : m.wf)
    (x : Nat) :
    ((as.map fun a => (a, want a)).foldl (fun m c => if c.1 < n then m.write c.1 c.2 else m) m).read x =
      if x ∈ as then want x else m.read x := by
  induction as generalizing m with
  | nil => rfl
  | cons a as ih =>
    have ha : a < n := hlt a (by simp)
    rw [List.map_cons, List.foldl_cons, if_pos ha, ih (fun b hb => hlt b (by simp [hb])) (Memory.write_wf hm a _),
      Memory.read_write hm]
    by_cases hx : x = a
    · subst hx; simp
    · simp [hx]

/-- The cells that hold the byte wanted at every address of the space. -/
def cellsOf (n : Nat) (want : Nat → Byte) : List Host.Cell := (List.range n).map fun a => (a, want a)

theorem ofCells_cellsOf_read {n a : Nat} (want : Nat → Byte) (h : a < n) :
    (Memory.ofCells n (cellsOf n want)).read a = want a :=
  (foldl_write_read want (List.range n) (fun _ hb => List.mem_range.1 hb) Memory.wf_zero a).trans
    (if_pos (List.mem_range.2 h))

/-- Settles O54: the draw lists every address of FB with the byte wanted there. -/
theorem resetDrawsAnyFramebuffer : Obligations.ResetDrawsAnyFramebuffer := by
  intro s want us hrst
  refine ⟨cellsOf Config.fbBytes want, applyReset (cellsOf Config.fbBytes want) [] { s with turns := us }, ?_, ?_⟩
  · rw [step_of_turns_cons rfl]
    simp only [runTurn, hrst, Bool.false_eq_true, if_false]
  · intro a ha
    rw [applyReset_fb]
    exact ofCells_cellsOf_read want ha

end Sys2Proof.Machine
end

section
/-! SUPPORT. The ODB's move while an operation runs, and the slots that hold no step. Then O38. -/

namespace Sys2Proof.Machine

/-! ### The ODB's move while an operation runs -/

/-- In EXPECT_CMD a running operation goes on. -/
theorem odbTurn_of_busy {s : State} (hr : s.rst = false) (hp : s.port = .expectCmd) (hb : s.busy = true) :
    odbTurn s = continueOp s := by
  simp [odbTurn, hr, hp, hb]

/-- While the delay is over and nothing is outstanding, INIT runs the step its counter selects. -/
theorem continueOp_of_initializing {s : State} (hx : s.txp = none) (hc : s.cstate = .initializing) (hs : s.stab = 0) :
    continueOp s = runStep (.initSeq s.seqK) (iseqAt s.seqK) s := by
  simp [continueOp, hx, hc, hs]

/-- While nothing is outstanding, PRESENT runs the step its counters select. -/
theorem continueOp_of_updating {s : State} (hx : s.txp = none) (hc : s.cstate = .updating) :
    continueOp s = runStep (.page s.seqPh) (pageByte s.seqP s.seqPh) s := by
  simp [continueOp, hx, hc]

/-- Where no response byte is left, PAGESLICE or LOOKUP ends with E_OK (30_encoding.md R90). -/
theorem continueOp_of_drained {s : State} (hx : s.txp = none) (hc : s.cstate.running = false) (hq : s.rspq = []) :
    continueOp s = .next (finish .ok s) := by
  unfold continueOp
  rw [hx, hq]
  cases h : s.cstate with
  | initializing => simp [h, CState.running] at hc
  | updating => simp [h, CState.running] at hc
  | _ => rfl

/-! ### The model's own stops -/

theorem runStep_of_reject {sl : Slot} {b : Byte} {r : Reject} (h : decode sl (.byte b) = .reject r) (s : State) :
    runStep sl b s = .fault .noSuchStep := by
  simp [runStep, h]

/-- Past the last byte of ISEQ there is no step (10_state.md R45). -/
theorem decode_initSeq_of_le {k : Nat} (h : initLen ≤ k) (b : Byte) :
    decode (.initSeq k) (.byte b) = .reject .noSuchStep := by
  have hnone : iseqInstr k = none := by
    rw [← Option.not_isSome_iff_eq_none, iseqInstr_isSome]
    omega
  simp only [decode, decodeInit, hnone]

/-- Past the last phase of a page there is no step (10_state.md R45). -/
theorem decode_page_of_le {ph : Nat} (h : 4 ≤ ph) (b : Byte) :
    decode (.page ph) (.byte b) = .reject .noSuchStep := by
  simp only [decode]
  unfold decodePage
  split
  case h_5 => rfl
  all_goals omega

/-- The page-select byte of a number past 7 is no page-select byte (30_encoding.md R93). -/
theorem decode_page_zero_of_le {p : Nat} (h : 8 ≤ p) (hlt : p < 16) :
    decode (.page 0) (.byte (pageByte p 0)) = .reject .wrongByte := by
  interval_cases p <;> rfl

/-- Settles O38: the two faulting instructions by the field each looks at, the ODB's move by the slot that holds no step. -/
theorem modelsOwnStops : Obligations.ModelsOwnStops := by
  intro s w
  refine ⟨fun hp => ?pageData, fun hp => ?textbeat, fun hr hb hp hx ht => ?odb⟩
  case pageData =>
    rcases pageSlice_cases s.seqP s.fb with ⟨hlt, -⟩ | ⟨-, hnone⟩
    · omega
    · simp only [exec, execPageData, hnone, Config.width]
  case textbeat => simp only [exec, execTextbeat, hp]
  case odb =>
    have hstep : step s = continueOp s := (step_of_turns_nil ht).trans (odbTurn_of_busy hr hp hb)
    refine ⟨fun hc hs hk => ?seqK, fun hc hph => ?seqPh, fun hc hph hge hlt => ?seqP⟩
    case seqK =>
      rw [hstep, continueOp_of_initializing hx hc hs]
      exact runStep_of_reject (decode_initSeq_of_le hk _) s
    case seqPh =>
      rw [hstep, continueOp_of_updating hx hc]
      exact runStep_of_reject (decode_page_of_le hph _) s
    case seqP =>
      rw [hstep, continueOp_of_updating hx hc, hph]
      exact runStep_of_reject (decode_page_zero_of_le hge hlt) s

end Sys2Proof.Machine
end

section
/-! SUPPORT. Runs of steps, and the operations that answer on the response stream, from their dispatch to their end. Then O23 and
O60. -/

namespace Sys2Proof.Machine

/-! ### Runs of steps -/

theorem runSteps_succ_of_step {s t : State} (h : step s = .next t) (n : Nat) : runSteps (n + 1) s = runSteps n t := by
  have hcore : Sys2Proof.core.step s = .next t := h
  simp only [runSteps, Host.Core.run, hcore] <;> rfl

/-- A run that answers a next state began with a step that did. -/
theorem exists_step_of_runSteps_succ {n : Nat} {s t : State} (h : runSteps (n + 1) s = .next t) :
    ∃ u, step s = .next u ∧ runSteps n u = .next t := by
  cases hs : Sys2Proof.core.step s with
  | next u => exact ⟨u, hs, (runSteps_succ_of_step hs n).symm.trans h⟩
  | fault r => simp [runSteps, Host.Core.run, hs] at h
  | refused r => simp [runSteps, Host.Core.run, hs] at h

theorem runSteps_add {m : Nat} {s t : State} (h : runSteps m s = .next t) (n : Nat) : runSteps (m + n) s = runSteps n t := by
  induction m generalizing s with
  | zero => cases h; rw [Nat.zero_add]
  | succ m ih =>
    obtain ⟨u, hs, hu⟩ := exists_step_of_runSteps_succ h
    rw [Nat.succ_add, runSteps_succ_of_step hs, ih hu]

/-- The host takes the first byte of the response stream, where there is one (30_encoding.md R90). -/
theorem takeResponse_eq (s : State) :
    takeResponse s = { s with rspq := s.rspq.drop 1, rspTaken := s.rspTaken ++ s.rspq.take 1 } := by
  cases hq : s.rspq with
  | nil => rw [takeResponse_of_nil hq]; cases s; cases hq; simp
  | cons b bs => rw [takeResponse_of_cons hq]; rfl

/-- `n` takes of the host give it the first `n` bytes of the response stream, in order. -/
theorem runSteps_take (n : Nat) {s : State} {us : List Turn} (ht : s.turns = List.replicate n .take ++ us) :
    runSteps n s = .next { s with
      turns := us, rspq := s.rspq.drop n, rspTaken := s.rspTaken ++ s.rspq.take n } := by
  induction n generalizing s with
  | zero =>
    simp only [List.drop_zero, List.take_zero, List.append_nil]
    cases s
    cases ht
    rfl
  | succ n ih =>
    have hstep : step s = .next (takeResponse { s with turns := List.replicate n .take ++ us }) := step_of_turns_cons ht
    rw [runSteps_succ_of_step hstep, takeResponse_eq, ih rfl]
    simp only [List.drop_drop, List.append_assoc, ← List.take_add, Nat.add_comm 1 n]

/-! ### Whole operations that answer on the response stream -/

/-- In EXPECT_CMD and idle, the ODB's turn takes the beat offered and executes the command it decodes to (30_encoding.md R87). -/
theorem step_of_odb_command {s : State} {w : Beat} {ws : List Beat} {us : List Turn} {i : Instr} (hidle : Idle s)
    (ht : s.turns = .odb :: us) (ho : s.offered = w :: ws) (hd : decode .command (.beat w) = .instr i) :
    step s = exec i (accept w { s with offered := ws, turns := us }) := by
  obtain ⟨hr, hb, hp⟩ := hidle
  rw [step_of_turns_cons ht]
  simp only [runTurn, odbTurn, hr, hp, hb, takeCommand, ho, dispatchWord, hd, Bool.false_eq_true, if_false]

/-- Idle, nothing is pending and neither INIT nor PRESENT runs. -/
theorem quiet_of_idle {s : State} (hinv : Inv s) (hidle : Idle s) :
    s.rspq = [] ∧ s.txp = none ∧ s.cstate.running = false := by
  obtain ⟨-, -, hquiet, -, hrun, -, -⟩ := hinv
  obtain ⟨-, hb, -⟩ := hidle
  obtain ⟨-, hq, hx⟩ := hquiet hb
  refine ⟨hq, hx, ?_⟩
  cases hc : s.cstate with
  | initializing => rw [RunInv, hc] at hrun; simp [hb] at hrun
  | updating => rw [RunInv, hc] at hrun; simp [hb] at hrun
  | _ => rfl

/-- A word that an instruction encodes to decodes, where commands stand, to it. -/
theorem decode_command_of_encode {i : Instr} {w : Beat} (hi : Laws.RoundTrip.Statement i) (hwf : i.wellFormed = true)
    (hsl : slotOf i = .command) (hw : encode i = .beat w) : decode .command (.beat w) = .instr i := by
  rw [← hsl, ← hw]
  exact hi hwf

section Response

/-- An operation that answers with the bytes `bs`, the host having taken `k` of them: PAGESLICE or LOOKUP between its dispatch and
its end (30_encoding.md R90). -/
def responding (s : State) (w : Beat) (ws : List Beat) (us : List Turn) (bs : List Byte) (k : Nat) : State :=
  { s with
    offered := ws, turns := us, busy := true, opl := wordLatch w, rspq := bs.drop k, rspTaken := s.rspTaken ++ bs.take k }

variable {s : State} {w : Beat} {ws : List Beat} {us : List Turn} {i : Instr} {bs : List Byte}
  (hinv : Inv s) (hidle : Idle s) (ho : s.offered = w :: ws) (hd : decode .command (.beat w) = .instr i)
  (he : ∀ u : State, u.fb = s.fb → u.glyphRom = s.glyphRom → exec i u = .next (emit bs u))

include hinv hidle ho hd he in
/-- The operation's dispatch and `k` takes of the host. -/
theorem runSteps_responding (k : Nat) (ht : s.turns = .odb :: (List.replicate k .take ++ us)) :
    runSteps (k + 1) s = .next (responding s w ws us bs k) := by
  obtain ⟨hq, -, -⟩ := quiet_of_idle hinv hidle
  have hstep := (step_of_odb_command hidle ht ho hd).trans (he _ rfl rfl)
  rw [runSteps_succ_of_step hstep, runSteps_take k rfl]
  simp only [responding, emit, accept, hq, List.nil_append]

include hinv hidle in
/-- The response taken, the operation ends with E_OK in the ODB's turn (30_encoding.md R90). -/
theorem step_responding_drained {k : Nat} (hk : bs.length ≤ k) :
    step (responding s w ws (.odb :: us) bs k) =
      .next { s with
        offered := ws, turns := us, opl := wordLatch w, err := .ok, rspTaken := s.rspTaken ++ bs } := by
  obtain ⟨hq, hx, hc⟩ := quiet_of_idle hinv hidle
  obtain ⟨hr, hb, hp⟩ := hidle
  calc step (responding s w ws (.odb :: us) bs k)
      = odbTurn (responding s w ws us bs k) := step_of_turns_cons (s := responding s w ws (.odb :: us) bs k) rfl
    _ = continueOp (responding s w ws us bs k) := odbTurn_of_busy hr hp rfl
    _ = .next (finish .ok (responding s w ws us bs k)) := continueOp_of_drained hx hc (List.drop_of_length_le hk)
    _ = _ := by
      simp only [finish, responding, List.drop_of_length_le hk, List.take_of_length_le hk]
      rw [← hq, ← hb, ← hp]

include hinv hidle ho hd he in
/-- A whole operation that answers with `n` bytes, the host taking each: the host gets them in order, and BUSY is 1 until then. -/
theorem response_whole_operation {n : Nat} (hn : bs.length = n)
    (ht : s.turns = [.odb] ++ List.replicate n .take ++ [.odb] ++ us) :
    runSteps (n + 2) s = .next { s with
      offered := ws, turns := us, opl := wordLatch w, err := .ok, rspTaken := s.rspTaken ++ bs } ∧
    ∀ k t, 1 ≤ k → k < n + 2 → runSteps k s = .next t → t.busy = true := by
  constructor
  · have hall := runSteps_responding hinv hidle ho hd he n (us := .odb :: us) (by simpa using ht)
    rw [runSteps_add hall 1, runSteps_succ_of_step (step_responding_drained hinv hidle hn.le)]
    rfl
  · intro k t h1 hk hrun
    obtain ⟨j, rfl⟩ : ∃ j, k = j + 1 := ⟨k - 1, by omega⟩
    have hsplit : List.replicate n Turn.take = List.replicate j .take ++ List.replicate (n - j) .take := by
      rw [List.replicate_append_replicate, Nat.add_sub_cancel' (by omega)]
    rw [runSteps_responding hinv hidle ho hd he j (us := List.replicate (n - j) .take ++ .odb :: us)
      (by simp only [ht, hsplit, List.append_assoc, List.cons_append, List.nil_append])] at hrun
    cases hrun
    rfl

end Response

/-- PAGESLICE of a page of the display answers with its 128 bytes, in column order (40_framebuffer.md R104). -/
theorem exec_pageslice_of_lt {p : Nat} (h : p < 8) (s : State) :
    exec (.pageslice p) s = .next (emit (s.fb.readRange (128 * p) 128) s) := by
  rcases pageSlice_cases p s.fb with ⟨-, hs⟩ | ⟨hge, -⟩
  · simp only [exec, execPageslice, hs]
  · omega

/-- Settles O23: a response operation whose bytes are the page's. -/
theorem pagesliceWholeOperation : Obligations.PagesliceWholeOperation := by
  intro s p w ws us hinv hidle hp hw ho ht
  have hwf : (Instr.pageslice p).wellFormed = true := by simp [Instr.wellFormed]; omega
  have hd := decode_command_of_encode (Laws.RoundTrip.pageslice p) hwf rfl hw
  have he : ∀ u : State, u.fb = s.fb → u.glyphRom = s.glyphRom →
      exec (.pageslice p) u = .next (emit (s.fb.readRange (128 * p) 128) u) :=
    fun u hfb _ => hfb ▸ exec_pageslice_of_lt hp u
  exact response_whole_operation hinv hidle ho hd he (Memory.readRange_length _ _ _) ht

/-- LOOKUP's response, for a character with a glyph and for any other (30_encoding.md R89). -/
theorem lookupResponse_of_glyphIndex_some {rom : Vector Byte Config.glyphBytes} {c : Byte} {n : Fin Config.nGlyph}
    (h : glyphIndex c = some n) : lookupResponse rom c = 0x01#8 :: [0, 1, 2, 3, 4].map (grom rom n) := by
  simp only [lookupResponse, h, glyphCols]

theorem lookupResponse_of_glyphIndex_none {rom : Vector Byte Config.glyphBytes} {c : Byte} (h : glyphIndex c = none) :
    lookupResponse rom c = List.replicate 6 0x00#8 := by
  simp only [lookupResponse, h]
  rfl

theorem lookupResponse_length (rom : Vector Byte Config.glyphBytes) (c : Byte) : (lookupResponse rom c).length = 6 := by
  cases h : glyphIndex c with
  | none => rw [lookupResponse_of_glyphIndex_none h]; rfl
  | some n => rw [lookupResponse_of_glyphIndex_some h]; rfl

/-- Settles O60: a response operation whose bytes are those of R89. -/
theorem lookupWholeOperation : Obligations.LookupWholeOperation := by
  intro s c bs w ws us hinv hidle hbs hw ho ht
  have hresp : bs = lookupResponse s.glyphRom c := by
    rcases hbs with ⟨n, hn, rfl⟩ | ⟨hn, rfl⟩
    · exact (lookupResponse_of_glyphIndex_some hn).symm
    · exact (lookupResponse_of_glyphIndex_none hn).symm
  have hd := decode_command_of_encode (Laws.RoundTrip.lookup c) rfl rfl hw
  have he : ∀ u : State, u.fb = s.fb → u.glyphRom = s.glyphRom → exec (.lookup c) u = .next (emit bs u) := by
    intro u _ hrom
    rw [hresp, ← hrom]
    rfl
  exact response_whole_operation hinv hidle ho hd he (hresp ▸ lookupResponse_length _ _) ht

end Sys2Proof.Machine
end

section
/-! SUPPORT. The invariant, split by what the machine is doing: settled, with nothing pending, or sequencing, with INIT or PRESENT
running. Each operation keeps it because it begins and ends settled and sequences in between. Then O58 and O50. -/

namespace Sys2Proof.Machine

/-! ### The invariant's case splits, by the field each looks at -/

theorem textInv_of_expectCmd {s : State} (h : s.port = .expectCmd) : TextInv s ↔ s.rsv = 0#16 := by
  rw [TextInv, h]

theorem textInv_of_expectText {s : State} {n : Nat} (h : s.port = .expectText n) :
    TextInv s ↔ s.busy = true ∧ 1 ≤ n ∧ n ≤ textBeats s.txtlen ∧ s.rspq = [] ∧ s.txp = none := by
  rw [TextInv, h]

theorem runInv_of_initializing {s : State} (h : s.cstate = .initializing) :
    RunInv s ↔ s.busy = true ∧ s.port = .expectCmd ∧ s.rspq = [] ∧ (s.stab = 0 ∨ s.txp = none) ∧
      (s.txp = none ∨ s.txp = some (.cmd (iseqAt s.seqK))) := by
  rw [RunInv, h]

theorem runInv_of_updating {s : State} (h : s.cstate = .updating) :
    RunInv s ↔ s.busy = true ∧ s.port = .expectCmd ∧ s.rspq = [] ∧ s.stab = 0 ∧
      (s.txp = none ∨ s.txp = some (pageTx s.seqP s.seqPh s.fb)) := by
  rw [RunInv, h]

theorem runInv_of_not_running {s : State} (h : s.cstate.running = false) : RunInv s ↔ s.txp = none ∧ s.stab = 0 := by
  cases hc : s.cstate with
  | initializing => simp [hc, CState.running] at h
  | updating => simp [hc, CState.running] at h
  | _ => rw [RunInv, hc]

theorem rst_of_busy {s : State} (h : ResetInv s) (hb : s.busy = true) : s.rst = false :=
  Bool.eq_false_iff.2 fun hr => by simp [h hr] at hb

/-! ### Settled states -/

/-- The sequencer counters select a step (10_state.md R45). -/
def CountersOk (s : State) : Prop := s.seqK < initLen ∧ s.seqP < Config.pages ∧ s.seqPh ≤ 3

/-- Neither INIT nor PRESENT runs, and no transaction, no response byte and no delay is pending. -/
def Settled (s : State) : Prop :=
  MemoryInv s ∧ CountersOk s ∧ s.rspq = [] ∧ s.txp = none ∧ s.cstate.running = false ∧ s.stab = 0 ∧ pendingOk s.log none = true

/-- What the invariant leaves to be said where neither INIT nor PRESENT runs and nothing is outstanding. -/
theorem settled_of_inv {s : State} (h : Inv s) (hq : s.rspq = []) (hx : s.txp = none) (hc : s.cstate.running = false) :
    Settled s := by
  obtain ⟨hmem, ⟨hk, hp, hph, -⟩, -, -, hrun, hlog, -⟩ := h
  obtain ⟨-, hstab⟩ := (runInv_of_not_running hc).1 hrun
  exact ⟨hmem, ⟨hk, hp, hph⟩, hq, hx, hc, hstab, hx ▸ hlog⟩

/-- Idle, the machine is settled. -/
theorem settled_of_idle {s : State} (h : Inv s) (hidle : Idle s) : Settled s := by
  obtain ⟨hq, hx, hc⟩ := quiet_of_idle h hidle
  exact settled_of_inv h hq hx hc

/-- INIT and PRESENT run with BUSY = 1, PORT in EXPECT_CMD and no response pending (42_sequencer.md R134). -/
theorem busy_of_running {s : State} (h : RunInv s) (hc : s.cstate.running = true) :
    s.busy = true ∧ s.port = .expectCmd ∧ s.rspq = [] := by
  cases hs : s.cstate with
  | initializing =>
    obtain ⟨hb, hp, hq, -⟩ := (runInv_of_initializing hs).1 h
    exact ⟨hb, hp, hq⟩
  | updating =>
    obtain ⟨hb, hp, hq, -⟩ := (runInv_of_updating hs).1 h
    exact ⟨hb, hp, hq⟩
  | _ => simp [hs, CState.running] at hc

/-- While text is collected, the machine is settled. -/
theorem settled_of_text {s : State} {n : Nat} (h : Inv s) (hp : s.port = .expectText n) : Settled s := by
  have ⟨_, _, _, htext, hrun, _, _⟩ := h
  obtain ⟨-, -, -, hq, hx⟩ := (textInv_of_expectText hp).1 htext
  cases hc : s.cstate.running with
  | false => exact settled_of_inv h hq hx hc
  | true =>
    obtain ⟨-, hp', -⟩ := busy_of_running hrun hc
    rw [hp] at hp'
    cases hp'

/-- Settled and in EXPECT_CMD, the machine meets the invariant. -/
theorem inv_of_settled {s : State} (h : Settled s) (hp : s.port = .expectCmd) (hrsv : s.rsv = 0#16)
    (hrst : s.rst = true → s.busy = false) : Inv s := by
  obtain ⟨hmem, ⟨hk, hsp, hph⟩, hq, hx, hc, hstab, hlog⟩ := h
  exact ⟨hmem, ⟨hk, hsp, hph, by simp [hq]⟩, fun _ => ⟨hp, hq, hx⟩, (textInv_of_expectCmd hp).2 hrsv,
    (runInv_of_not_running hc).2 ⟨hx, hstab⟩, by rw [LogInv, hx]; exact hlog, hrst⟩

/-- An operation that ends settled ends within the invariant. -/
theorem inv_finish {s : State} (h : Settled s) (hrsv : s.rsv = 0#16) (e : ErrCode) : Inv (finish e s) :=
  inv_of_settled h rfl hrsv fun _ => rfl

theorem inv_raise {s : State} (h : Settled s) (hrsv : s.rsv = 0#16) (e : ErrCode) : Inv (raise e s) := by
  obtain ⟨hmem, hcnt, hq, hx, hc, hstab, hlog⟩ := h
  refine inv_finish (s := { s with cstate := if e = .transport then .failed else s.cstate }) ?_ hrsv e
  refine ⟨hmem, hcnt, hq, hx, ?_, hstab, hlog⟩
  dsimp only
  split
  · rfl
  · exact hc

theorem settled_setFb {s : State} {m : Memory} (h : Settled s) (hm : m.okFb) : Settled { s with fb := m } := by
  obtain ⟨⟨-, -, hbuf⟩, hrest⟩ := h
  exact ⟨⟨hm.1, hm.2, hbuf⟩, hrest⟩

theorem okFb_of_settled {s : State} (h : Settled s) : s.fb.okFb := by
  obtain ⟨⟨hwf, hin, -⟩, -⟩ := h
  exact ⟨hwf, hin⟩

theorem settled_setTxtlen {s : State} {len : Nat} (h : Settled s) (hlen : len ≤ Config.textMax) :
    Settled { s with txtlen := len } := by
  obtain ⟨⟨hwf, hin, hbuf, hbufin, -⟩, hrest⟩ := h
  exact ⟨⟨hwf, hin, hbuf, hbufin, hlen⟩, hrest⟩

theorem settled_storeLanes {s : State} (h : Settled s) (b : Nat) (w : Beat) :
    Settled { s with txtbuf := storeLanes b w s.txtlen s.txtbuf } := by
  obtain ⟨⟨hwf, hin, hbuf, hbufin, hlen⟩, hrest⟩ := h
  obtain ⟨hbuf', hbufin'⟩ := storeLanes_ok b w s.txtlen hlen ⟨hbuf, hbufin⟩
  exact ⟨⟨hwf, hin, hbuf', hbufin', hlen⟩, hrest⟩

/-! ### Text -/

/-- While text beats are missing. -/
theorem inv_of_expectText {s : State} {n : Nat} (h : Settled s) (hp : s.port = .expectText n) (hb : s.busy = true)
    (hr : s.rst = false) (h1 : 1 ≤ n) (hn : n ≤ textBeats s.txtlen) : Inv s := by
  obtain ⟨hmem, ⟨hk, hsp, hph⟩, hq, hx, hc, hstab, hlog⟩ := h
  exact ⟨hmem, ⟨hk, hsp, hph, by simp [hq]⟩, by simp [hb], (textInv_of_expectText hp).2 ⟨hb, h1, hn, hq, hx⟩,
    (runInv_of_not_running hc).2 ⟨hx, hstab⟩, by rw [LogInv, hx]; exact hlog, by simp [hr]⟩

theorem inv_endText {s : State} (h : Settled s) : Inv (endText s) := by
  rcases endText_cases s with ⟨hrsv, he⟩ | ⟨-, he⟩ <;> rw [he]
  · exact inv_finish (settled_setFb h (drawText_okFb s.glyphRom (collectedText s) _ _ (okFb_of_settled h))) hrsv .ok
  · exact inv_raise (s := { s with rsv := 0#16 }) h rfl .reserved

theorem inv_beginText {s : State} {len : Nat} (h : Settled s) (hb : s.busy = true) (hr : s.rst = false)
    (hlen : len ≤ Config.textMax) : Inv (beginText len s) := by
  rcases beginText_cases len s with ⟨-, he⟩ | ⟨hpos, he⟩ <;> rw [he]
  · exact inv_endText (settled_setTxtlen h (Nat.zero_le _))
  · refine inv_of_expectText (settled_setTxtlen h hlen) rfl hb hr ?_ le_rfl
    unfold textBeats
    omega

/-- A length in the 8-bit field A8 is one TXTBUF holds (00_scope.md R22). -/
theorem fieldA8_le_textMax (w : Beat) : (fieldA8 w).toNat ≤ Config.textMax :=
  Nat.le_of_lt_succ (fieldA8 w).isLt

theorem inv_rejectReserved {s : State} (h : Settled s) (hrsv : s.rsv = 0#16) (hr : s.rst = false) (w : Beat) :
    Inv (rejectReserved w s) := by
  rcases rejectReserved_cases w s with ⟨-, he⟩ | ⟨-, he⟩ <;> rw [he]
  · exact inv_beginText (s := { s with busy := true, rsv := fieldRsv w }) h rfl hr (fieldA8_le_textMax w)
  · exact inv_raise h hrsv .reserved

theorem inv_exec_textbeat {s t : State} {w : Beat} {n : Nat} (h : Inv s) (hp : s.port = .expectText n) (hr : s.rst = false)
    (he : exec (.textbeat w) s = .next t) : Inv t := by
  have hset := settled_storeLanes (settled_of_text h hp) (textBeats s.txtlen - n) w
  obtain ⟨-, -, -, htext, -⟩ := h
  obtain ⟨hb, -, hn, -⟩ := (textInv_of_expectText hp).1 htext
  simp only [exec, execTextbeat, hp] at he
  split at he <;> cases he
  · exact inv_endText hset
  · exact inv_of_expectText hset rfl hb hr (by omega) (le_trans (Nat.sub_le n 1) hn)

/-! ### Sequencing states -/

/-- What holds all the while INIT or PRESENT runs, besides what `RunInv` and `LogInv` say of the transaction. -/
def Sequencing (s : State) : Prop :=
  MemoryInv s ∧ CountersOk s ∧ s.busy = true ∧ s.rst = false ∧ s.port = .expectCmd ∧ s.rsv = 0#16 ∧ s.rspq = []

theorem inv_of_sequencing {s : State} (h : Sequencing s) (hrun : RunInv s) (hlog : LogInv s) : Inv s := by
  obtain ⟨hmem, ⟨hk, hsp, hph⟩, hb, hr, hp, hrsv, hq⟩ := h
  exact ⟨hmem, ⟨hk, hsp, hph, by simp [hq]⟩, by simp [hb], (textInv_of_expectCmd hp).2 hrsv, hrun, hlog, by simp [hr]⟩

theorem sequencing_of_inv {s : State} (h : Inv s) (hc : s.cstate.running = true) : Sequencing s := by
  obtain ⟨hmem, ⟨hk, hsp, hph, -⟩, -, htext, hrun, -, hrst⟩ := h
  obtain ⟨hb, hp, hq⟩ := busy_of_running hrun hc
  exact ⟨hmem, ⟨hk, hsp, hph⟩, hb, rst_of_busy hrst hb, hp, (textInv_of_expectCmd hp).1 htext, hq⟩

/-- INIT or PRESENT stands before its next issue, the delay over (42_sequencer.md R130, R131). -/
def BetweenTx (s : State) : Prop :=
  Sequencing s ∧ s.cstate.running = true ∧ s.txp = none ∧ s.stab = 0 ∧ pendingOk s.log none = true

theorem betweenTx_of_inv {s : State} (h : Inv s) (hc : s.cstate.running = true) (hx : s.txp = none) (hs : s.stab = 0) :
    BetweenTx s := by
  have ⟨_, _, _, _, _, hlog, _⟩ := h
  exact ⟨sequencing_of_inv h hc, hc, hx, hs, hx ▸ hlog⟩

/-- PRESENT has no delay (42_sequencer.md R131). -/
theorem betweenTx_of_updating {s : State} (h : Inv s) (hc : s.cstate = .updating) (hx : s.txp = none) : BetweenTx s := by
  have ⟨_, _, _, _, hrun, _, _⟩ := h
  obtain ⟨-, -, -, hs, -⟩ := (runInv_of_updating hc).1 hrun
  exact betweenTx_of_inv h (by rw [hc]; rfl) hx hs

/-- A transaction is outstanding only while INIT or PRESENT runs, its delay over (42_sequencer.md R134). -/
theorem running_of_txp {s : State} {x : Tx} (h : RunInv s) (hx : s.txp = some x) : s.cstate.running = true ∧ s.stab = 0 := by
  cases hc : s.cstate with
  | initializing =>
    obtain ⟨-, -, -, hs, -⟩ := (runInv_of_initializing hc).1 h
    simpa [hx, CState.running] using hs
  | updating =>
    obtain ⟨-, -, -, hs, -⟩ := (runInv_of_updating hc).1 h
    exact ⟨rfl, hs⟩
  | _ =>
    obtain ⟨hnone, -⟩ := (runInv_of_not_running (by rw [hc]; rfl)).1 h
    simp [hx] at hnone

/-- The transport's answer ends the transaction's Pending entry (42_sequencer.md R125). -/
theorem betweenTx_of_settleLast {s : State} {x : Tx} {r : TxResult} (h : Inv s) (hx : s.txp = some x) (hr : r ≠ .pending) :
    BetweenTx { s with txp := none, log := settleLast r s.log } := by
  have ⟨_, _, _, _, hrun, hlog, _⟩ := h
  obtain ⟨hc, hs⟩ := running_of_txp hrun hx
  rw [LogInv, hx] at hlog
  obtain ⟨-, -, -, hsettled⟩ := pendingOk_settle hlog r hr
  have hseq := sequencing_of_inv h hc
  exact ⟨hseq, hc, rfl, hs, hsettled⟩

theorem inv_of_betweenTx {s : State} (h : BetweenTx s) : Inv s := by
  obtain ⟨hseq, hc, hx, hs, hlog⟩ := h
  have ⟨_, _, hb, _, hp, _, hq⟩ := hseq
  refine inv_of_sequencing hseq ?_ (by rw [LogInv, hx]; exact hlog)
  cases hcs : s.cstate with
  | initializing => exact (runInv_of_initializing hcs).2 ⟨hb, hp, hq, .inl hs, .inl hx⟩
  | updating => exact (runInv_of_updating hcs).2 ⟨hb, hp, hq, hs, .inl hx⟩
  | _ => simp [hcs, CState.running] at hc

/-- INIT and PRESENT end between two transactions, in another lifecycle state. -/
theorem settled_of_betweenTx {s : State} {c : CState} (h : BetweenTx s) (hc : c.running = false) :
    Settled { s with cstate := c } := by
  obtain ⟨⟨hmem, hcnt, -, -, -, -, hq⟩, -, hx, hs, hlog⟩ := h
  exact ⟨hmem, hcnt, hq, hx, hc, hs, hlog⟩

/-- INIT's delay, begun or counting: where it is over it is logged, and SEQ_K is 0 (42_sequencer.md R129, R130). -/
theorem inv_delaying {s : State} (h : Sequencing s) (hc : s.cstate = .initializing) (hx : s.txp = none)
    (hlog : pendingOk s.log none = true) (left units : Nat) (isOver : Prop) [Decidable isOver] :
    Inv { s with
      stab := left
      seqK := if isOver then 0 else s.seqK
      log := if isOver then s.log ++ [.delay units] else s.log } := by
  obtain ⟨hmem, ⟨hk, hcnt⟩, hb, hr, hp, hrsv, hq⟩ := h
  refine inv_of_sequencing ⟨hmem, ⟨?_, hcnt⟩, hb, hr, hp, hrsv, hq⟩
    ((runInv_of_initializing (by exact hc)).2 ⟨hb, hp, hq, .inr hx, .inl hx⟩) ?_
  · dsimp only
    split
    · decide
    · exact hk
  · dsimp only [LogInv]
    rw [hx]
    split
    · exact pendingOk_append hlog (.delay units)
    · exact hlog

theorem inv_delayTick {s : State} (h : Inv s) (hx : s.txp = none) (hc : s.cstate = .initializing) : Inv (delayTick s) := by
  have ⟨_, _, _, _, _, hlog, _⟩ := h
  exact inv_delaying (sequencing_of_inv h (by rw [hc]; rfl)) hc hx (hx ▸ hlog) (s.stab - 1) s.tStab (s.stab = 1)

/-! ### The eight commands -/

section Command

variable {s : State} (h : Settled s) (hb : s.busy = true) (hr : s.rst = false) (hp : s.port = .expectCmd) (hrsv : s.rsv = 0#16)
include h hb hr hp hrsv

/-- An operation that answers, some of its response not taken yet. -/
theorem inv_setRspq {q : List Byte} (hlen : q.length ≤ Config.width) : Inv { s with rspq := q } := by
  obtain ⟨hmem, ⟨hk, hsp, hph⟩, -, hx, hc, hstab, hlog⟩ := h
  exact ⟨hmem, ⟨hk, hsp, hph, hlen⟩, by simp [hb], (textInv_of_expectCmd (s := { s with rspq := q }) hp).2 hrsv,
    (runInv_of_not_running (s := { s with rspq := q }) hc).2 ⟨hx, hstab⟩, by rw [LogInv, hx]; exact hlog, by simp [hr]⟩

/-- Response bytes join the empty stream of an operation that has just begun. -/
theorem inv_emit {bs : List Byte} (hlen : bs.length ≤ Config.width) : Inv (emit bs s) := by
  have ⟨_, _, hq, _⟩ := h
  refine inv_setRspq h hb hr hp hrsv ?_
  rw [hq]
  exact hlen

theorem inv_exec_pageslice {p : Nat} {t : State} (he : exec (.pageslice p) s = .next t) : Inv t := by
  rcases pageSlice_cases p s.fb with ⟨hlt, -⟩ | ⟨-, hs⟩
  · rw [exec_pageslice_of_lt hlt] at he
    cases he
    exact inv_emit h hb hr hp hrsv (Memory.readRange_length _ _ _).le
  · simp only [exec, execPageslice, hs] at he
    cases he
    exact inv_raise h hrsv .page

/-- A settled operation that hands over to INIT's or PRESENT's loop. -/
theorem sequencing_of_settled : Sequencing s := by
  obtain ⟨hmem, hcnt, hq, -⟩ := h
  exact ⟨hmem, hcnt, hb, hr, hp, hrsv, hq⟩

theorem inv_startDelay : Inv (startDelay { s with cstate := .initializing }) := by
  have hseq := sequencing_of_settled h hb hr hp hrsv
  obtain ⟨-, -, -, hx, -, -, hlog⟩ := h
  exact inv_delaying (s := { s with cstate := .initializing }) hseq rfl hx hlog s.tStab s.tStab (s.tStab = 0)

theorem inv_exec_present {t : State} (he : exec .present s = .next t) : Inv t := by
  simp only [exec, execPresent] at he
  split at he <;> cases he
  · obtain ⟨hmem, ⟨hk, -, -⟩, hrest⟩ := sequencing_of_settled h hb hr hp hrsv
    obtain ⟨-, -, -, hx, -, hstab, hlog⟩ := h
    exact inv_of_betweenTx ⟨⟨hmem, ⟨hk, Nat.zero_lt_succ 7, Nat.zero_le 3⟩, hrest⟩, rfl, hx, hstab, hlog⟩
  · exact inv_raise h hrsv .state

/-- Every command's execution, up to its first wait point. -/
theorem inv_exec_command {o : Opcode} {w : Beat} {t : State} (he : exec (buildCommand o w) s = .next t) : Inv t := by
  cases o with
  | clear => cases he; exact inv_finish (settled_setFb h ⟨Memory.wf_zero, Memory.within_zero _⟩) hrsv .ok
  | setpix => cases he; exact inv_finish (settled_setFb h (setPixel_okFb _ _ _ (okFb_of_settled h))) hrsv .ok
  | drawchar => cases he; exact inv_finish (settled_setFb h (drawChar_okFb s.glyphRom _ _ _ (okFb_of_settled h))) hrsv .ok
  | pageslice => exact inv_exec_pageslice h hb hr hp hrsv he
  | lookup =>
    cases he
    refine inv_emit h hb hr hp hrsv ?_
    rw [lookupResponse_length]
    decide
  | drawtext =>
    cases he
    exact inv_beginText (s := latchText _ _ _ s) h hb hr (fieldA8_le_textMax w)
  | init => cases he; exact inv_startDelay h hb hr hp hrsv
  | present => exact inv_exec_present h hb hr hp hrsv he

end Command

/-! ### The bus -/

/-- Issuing a transaction keeps the invariant where it is the one the counters select (42_sequencer.md R125). -/
theorem inv_busIssue {s : State} {x : Tx} (h : BetweenTx s) (hrun : RunInv (busIssue x s)) : Inv (busIssue x s) := by
  obtain ⟨hseq, -, -, -, hlog⟩ := h
  exact inv_of_sequencing (s := busIssue x s) hseq hrun (pendingOk_append hlog (.tx x .pending))

theorem inv_initStep {s : State} (h : BetweenTx s) (hc : s.cstate = .initializing) :
    Inv (busIssue (.cmd (iseqAt s.seqK)) s) := by
  have ⟨⟨_, _, hb, _, hp, _, hq⟩, _, _, hstab, _⟩ := h
  exact inv_busIssue h ((runInv_of_initializing (s := busIssue _ s) hc).2 ⟨hb, hp, hq, .inl hstab, .inr rfl⟩)

theorem inv_pageStep {s : State} (h : BetweenTx s) (hc : s.cstate = .updating) :
    Inv (busIssue (pageTx s.seqP s.seqPh s.fb) s) := by
  have ⟨⟨_, _, hb, _, hp, _, hq⟩, _, _, hstab, _⟩ := h
  exact inv_busIssue h ((runInv_of_updating (s := busIssue _ s) hc).2 ⟨hb, hp, hq, hstab, .inr rfl⟩)

/-- The step PRESENT's counters select issues their transaction. -/
theorem pageStep_eq {s t : State} {i : Instr} (h : Inv s) (hd : decodePage s.seqPh (pageByte s.seqP s.seqPh) = .instr i)
    (he : exec i s = .next t) : t = busIssue (pageTx s.seqP s.seqPh s.fb) s := by
  obtain ⟨-, ⟨-, hsp, hph, -⟩, -⟩ := h
  rw [exec_pageInstr hsp hph hd s rfl rfl] at he
  cases he
  rfl

theorem inv_advance {s : State} (h : BetweenTx s) : Inv (advance s) := by
  have ⟨⟨hmem, ⟨hk, hsp, hph⟩, hrest⟩, hpend⟩ := h
  have ⟨_, _, _, hrsv, _⟩ := hrest
  rcases advance_cases s with
    ⟨-, hlt, he⟩ | ⟨-, -, he⟩ | ⟨-, hlt, he⟩ | ⟨-, -, hlt, he⟩ | ⟨-, -, -, he⟩ | ⟨-, he⟩ <;> rw [he]
  · exact inv_of_betweenTx ⟨⟨hmem, ⟨hlt, hsp, hph⟩, hrest⟩, hpend⟩
  · exact inv_finish (settled_of_betweenTx h (c := .ready) rfl) hrsv .ok
  · exact inv_of_betweenTx ⟨⟨hmem, ⟨hk, hsp, hlt⟩, hrest⟩, hpend⟩
  · exact inv_of_betweenTx ⟨⟨hmem, ⟨hk, hlt, Nat.zero_le 3⟩, hrest⟩, hpend⟩
  · exact inv_finish (settled_of_betweenTx h (c := .ready) rfl) hrsv .ok
  · exact inv_of_betweenTx h

theorem inv_busAnswer {s : State} (h : Inv s) (r : Answer) : Inv (busAnswer r s) := by
  rcases busAnswer_cases r s with ⟨-, he⟩ | ⟨x, hx, -, he⟩ | ⟨x, hx, -, he⟩ <;> rw [he]
  · exact h
  · exact inv_advance (betweenTx_of_settleLast h hx (by decide))
  · have hbt := betweenTx_of_settleLast h hx (r := .fail) (by decide)
    have ⟨⟨_, _, _, _, _, hrsv, _⟩, _⟩ := hbt
    exact inv_raise (settled_of_betweenTx hbt (c := .failed) rfl) hrsv .transport

/-! ### Every move -/

/-- Response bytes are pending only while PAGESLICE or LOOKUP runs (10_state.md R47). -/
theorem responding_of_rspq {s : State} (h : Inv s) (hq : s.rspq ≠ []) :
    s.busy = true ∧ s.port = .expectCmd ∧ s.cstate.running = false := by
  obtain ⟨-, -, hidle, htext, hrun, -, -⟩ := h
  refine ⟨?busy, ?port, ?cstate⟩
  case busy =>
    refine Bool.of_not_eq_false fun hb => ?_
    obtain ⟨-, hq', -⟩ := hidle hb
    exact hq hq'
  case port =>
    cases hp : s.port with
    | expectCmd => rfl
    | expectText n =>
      obtain ⟨-, -, -, hq', -⟩ := (textInv_of_expectText hp).1 htext
      exact absurd hq' hq
  case cstate =>
    refine Bool.eq_false_iff.2 fun hc => ?_
    obtain ⟨-, -, hq'⟩ := busy_of_running hrun hc
    exact hq hq'

theorem inv_takeResponse {s : State} (h : Inv s) : Inv (takeResponse s) := by
  rcases takeResponse_cases s with ⟨-, he⟩ | ⟨b, bs, hq, he⟩ <;> rw [he]
  · exact h
  · obtain ⟨hb, hp, hc⟩ := responding_of_rspq h (by simp [hq])
    obtain ⟨hmem, ⟨hk, hsp, hph, hlen⟩, -, htext, hrun, hlog, hrst⟩ := h
    obtain ⟨hx, hstab⟩ := (runInv_of_not_running hc).1 hrun
    have hset : Settled { s with rspq := [], rspTaken := s.rspTaken ++ [b] } :=
      ⟨hmem, ⟨hk, hsp, hph⟩, rfl, hx, hc, hstab, hx ▸ hlog⟩
    refine inv_setRspq hset hb (rst_of_busy hrst hb) hp ((textInv_of_expectCmd hp).1 htext) ?_
    rw [hq, List.length_cons] at hlen
    omega

theorem inv_applyReset {s : State} (h : Inv s) (f x : List Host.Cell) : Inv (applyReset f x s) := by
  obtain ⟨hfb, hfbIn⟩ := Memory.ofCells_ok Config.fbBytes f
  obtain ⟨htxt, htxtIn⟩ := Memory.ofCells_ok Config.textMax x
  obtain ⟨-, -, -, -, -, hlog, -⟩ := h
  refine inv_of_settled (s := applyReset f x s) ?_ rfl rfl fun _ => rfl
  have hcnt : CountersOk (applyReset f x s) := ⟨Nat.zero_lt_succ 27, Nat.zero_lt_succ 7, Nat.zero_le 3⟩
  exact ⟨⟨hfb, hfbIn, htxt, htxtIn, Nat.zero_le _⟩, hcnt, rfl, rfl, rfl, rfl, pendingOk_reset hlog⟩

theorem inv_odbMove {s t : State} (h : Inv s) (hmove : OdbMove s t) : Inv t := by
  have ⟨_, _, _, htext, _⟩ := h
  cases hmove with
  | wait => exact h
  | command w ws o _ hr hb hp _ _ _ he =>
    have hset := settled_of_idle h ⟨hr, hb, hp⟩
    exact inv_exec_command (s := accept w { s with offered := ws }) hset rfl hr hp ((textInv_of_expectCmd hp).1 htext) he
  | illegal w ws hr hb hp =>
    exact inv_raise (s := { s with offered := ws }) (settled_of_idle h ⟨hr, hb, hp⟩) ((textInv_of_expectCmd hp).1 htext) .illegal
  | reserved w ws o hr hb hp =>
    exact inv_rejectReserved (s := { s with offered := ws }) (settled_of_idle h ⟨hr, hb, hp⟩)
      ((textInv_of_expectCmd hp).1 htext) hr w
  | text w ws n _ hr hp _ he => exact inv_exec_textbeat (s := { s with offered := ws }) h hp hr he
  | tick _ _ _ hx hc => exact inv_delayTick h hx hc
  | initStep _ _ _ hx hc hs => exact inv_initStep (betweenTx_of_inv h (by rw [hc]; rfl) hx hs) hc
  | pageStep i _ _ _ _ hx hc hd he =>
    rw [pageStep_eq h hd he]
    exact inv_pageStep (betweenTx_of_updating h hc hx) hc
  | drained _ _ hp hx hc hq => exact inv_finish (settled_of_inv h hq hx hc) ((textInv_of_expectCmd hp).1 htext) .ok

theorem inv_turnMove {u : Turn} {s t : State} (h : Inv s) (hmove : TurnMove s u t) : Inv t := by
  cases hmove with
  | odb _ hmove => exact inv_odbMove h hmove
  | take => exact inv_takeResponse h
  | answer r => exact inv_busAnswer h r
  | assertRst f x => exact inv_applyReset h f x
  | releaseRst =>
    obtain ⟨hmem, hrange, hidle, htext, hrun, hlog, -⟩ := h
    exact ⟨hmem, hrange, hidle, htext, hrun, hlog, nofun⟩
  | _ => exact h

/-- Settles O58: every agent's move keeps the invariant. -/
theorem stepKeepsInvariant : Obligations.StepKeepsInvariant := by
  intro s t hinv hstep
  rcases step_move hstep with ⟨-, hmove⟩ | ⟨u, us, -, hmove⟩
  · exact inv_odbMove hinv hmove
  · exact inv_turnMove (s := { s with turns := us }) hinv hmove

/-! ### FB while PRESENT runs -/

theorem advance_fb (s : State) : (advance s).fb = s.fb := by
  rcases advance_cases s with ⟨-, -, h⟩ | ⟨-, -, h⟩ | ⟨-, -, h⟩ | ⟨-, -, -, h⟩ | ⟨-, -, -, h⟩ | ⟨-, h⟩ <;>
    simp only [h, finish_fb]

theorem busAnswer_fb (r : Answer) (s : State) : (busAnswer r s).fb = s.fb := by
  rcases busAnswer_cases r s with ⟨-, h⟩ | ⟨x, -, -, h⟩ | ⟨x, -, -, h⟩ <;> rw [h]
  · exact advance_fb { s with txp := none, log := settleLast .ok s.log }
  · rfl

theorem takeResponse_fb (s : State) : (takeResponse s).fb = s.fb := by
  rw [takeResponse_eq]

/-- While PRESENT runs the ODB takes no command word and no text beat, and the sequencer's steps only issue. -/
theorem odbMove_fb_of_updating {s t : State} (h : Inv s) (hc : s.cstate = .updating) (hmove : OdbMove s t) : t.fb = s.fb := by
  have ⟨_, _, _, _, hrun, _, _⟩ := h
  obtain ⟨hbusy, hport, -⟩ := (runInv_of_updating hc).1 hrun
  cases hmove with
  | wait => rfl
  | command _ _ _ _ _ hb => simp [hbusy] at hb
  | illegal => rfl
  | reserved _ _ _ _ hb => simp [hbusy] at hb
  | text _ _ _ _ _ hp => simp [hport] at hp
  | tick => rfl
  | initStep => rfl
  | pageStep i _ _ _ _ _ _ hd he => rw [pageStep_eq h hd he]; rfl
  | drained => rfl

/-- Settles O50: of the moves a PRESENT allows, only the assertion of reset writes FB. -/
theorem presentSnapshot : Obligations.PresentSnapshot := by
  intro s t hinv hc hstep hnoreset
  rcases step_move hstep with ⟨-, hmove⟩ | ⟨u, us, hu, hmove⟩
  · exact odbMove_fb_of_updating hinv hc hmove
  · cases hmove with
    | odb _ hmove => exact odbMove_fb_of_updating (s := { s with turns := us }) hinv hc hmove
    | take => exact takeResponse_fb { s with turns := us }
    | answer r => exact busAnswer_fb r { s with turns := us }
    | assertRst f x hr => simp [resetting, hu, show s.rst = false from hr] at hnoreset
    | _ => rfl

end Sys2Proof.Machine
end

section
/-! SUPPORT. The packing of pixels into bytes, SETPIX on the bytes and on the unpacked view, and the page slice. Then O17, O18, O19
and O21. -/

namespace Sys2Proof.Machine

/-! ### Packing (20_memory.md R59, R60) -/

theorem pixelAddr_natCast (x y : Nat) : pixelAddr x y = x + y / 8 * 128 := rfl

theorem pixelBit_natCast (y : Nat) : pixelBit y = y % 8 := rfl

/-- The byte of an on-display pixel, in the integers. -/
theorem onDisplay_byte_iff (x y : Int) (a : Nat) :
    (onDisplay x y ∧ a = pixelAddr x y) ↔ 0 ≤ x ∧ x < 128 ∧ 0 ≤ y ∧ y < 64 ∧ (a : Int) = x + (y / 8) * 128 := by
  simp only [onDisplay, pixelAddr, Config.width, Config.height, and_assoc]
  omega

/-- The bit of an on-display pixel, in the integers. -/
theorem pixelBit_of_nonneg {y : Int} (hy : 0 ≤ y) : pixelBit y = (y % 8).toNat := by
  lift y to Nat using hy
  rw [pixelBit_natCast]
  omega

/-- A pixel is on the display and has the byte and the bit of an in-range pixel exactly when it is that pixel. -/
theorem packed_eq_iff {x y : Int} {u v : Nat} (hu : u < 128) (hv : v < 64) :
    (onDisplay x y ∧ pixelAddr u v = pixelAddr x y ∧ pixelBit v = pixelBit y) ↔ (u : Int) = x ∧ (v : Int) = y := by
  constructor
  · rintro ⟨⟨hx, hx', hy, -⟩, haddr, hbit⟩
    lift x to Nat using hx
    lift y to Nat using hy
    simp only [pixelAddr_natCast, pixelBit_natCast, Config.width] at haddr hbit hx'
    omega
  · rintro ⟨rfl, rfl⟩
    simp only [onDisplay, Config.width, Config.height, and_self, and_true]
    omega

/-- Bit `k` of a byte is what a shift and a mask read out of it. -/
theorem shift_and_one_beq (b : Byte) (k : Nat) : (b >>> k &&& 1#8 == 1#8) = b.getLsbD k := by
  rw [BitVec.and_one_eq_setWidth_ofBool_getLsbD, BitVec.getLsbD_ushiftRight, Nat.add_zero]
  cases b.getLsbD k <;> rfl

/-- Settles O19: the packing is division by 128 and by 8, and the unpacked view reads the packed bit. -/
theorem packerIsBijection : Obligations.PackerIsBijection := by
  refine ⟨?range, ?bijection, ?observed, fun m x y h => pixel_off (by omega) m⟩
  case range =>
    intro x y hx hy
    simp only [pixelAddr_natCast, pixelBit_natCast]
    omega
  case bijection =>
    intro a k ha hk
    refine ⟨(a % 128, 8 * (a / 128) + k), ?_, ?unique⟩
    · simp only [pixelAddr_natCast, pixelBit_natCast]
      omega
    case unique =>
      rintro ⟨x, y⟩ ⟨hx, -, haddr, hbit⟩
      simp only [pixelAddr_natCast, pixelBit_natCast] at haddr hbit hx
      exact Prod.ext (by dsimp only; omega) (by dsimp only; omega)
  case observed =>
    intro m x y hx hy
    rw [shift_and_one_beq]
    exact pixel_on hx hy m

/-! ### SETPIX (40_framebuffer.md R102, R105) -/

/-- Settles O17: `setPixel_read`, with the byte and the bit in the integers of R59. -/
theorem setpixOrsOneBit : Obligations.SetpixOrsOneBit := by
  intro s x y hwf
  refine ⟨_, rfl, rfl, fun a => (setPixel_read hwf x y a).trans ?_⟩
  by_cases h : onDisplay x y ∧ a = pixelAddr x y
  · have h' := (onDisplay_byte_iff x y a).1 h
    have ⟨_, _, hy, _⟩ := h'
    rw [if_pos h, if_pos h', bitMask, pixelBit_of_nonneg hy]
  · rw [if_neg h, if_neg fun h' => h ((onDisplay_byte_iff x y a).2 h')]

theorem bitMask_getLsbD {k j : Nat} (hj : j < 8) : (bitMask k).getLsbD j = decide (j = k) := by
  rw [bitMask, ← BitVec.twoPow_eq, BitVec.getLsbD_twoPow, ← Bool.decide_and, decide_eq_decide]
  omega

/-- What SetPixel leaves in every bit. -/
theorem setPixel_getLsbD {m : Memory} (h : m.wf) (x y : Int) (a : Nat) {k : Nat} (hk : k < 8) :
    ((setPixel x y m).read a).getLsbD k =
      ((m.read a).getLsbD k || decide (onDisplay x y ∧ a = pixelAddr x y ∧ k = pixelBit y)) := by
  rw [setPixel_read h]
  by_cases hxy : onDisplay x y ∧ a = pixelAddr x y
  · rw [if_pos hxy, BitVec.getLsbD_or, bitMask_getLsbD hk]
    simp only [hxy, true_and, onDisplay]
  · rw [if_neg hxy, decide_eq_false fun h => hxy ⟨h.1, h.2.1⟩, Bool.or_false]

/-- In the unpacked view SetPixel lights its pixel, where it is on the display, and no other (R105). -/
theorem pixel_setPixel {m : Memory} (h : m.wf) (x y : Int) (u v : Nat) :
    pixel (setPixel x y m) u v = (pixel m u v).map (fun b => b || decide ((u : Int) = x ∧ (v : Int) = y)) := by
  by_cases huv : u < 128 ∧ v < 64
  · obtain ⟨hu, hv⟩ := huv
    rw [pixel_on hu hv, pixel_on hu hv, Option.map_some, setPixel_getLsbD h x y _ (Nat.mod_lt v (by decide))]
    exact congrArg (fun b => some (_ || b)) (decide_eq_decide.2 (packed_eq_iff hu hv))
  · rw [pixel_off huv, pixel_off huv, Option.map_none]

/-- Settles O18: SETPIX is one SetPixel on FB. -/
theorem setpixUnpackedView : Obligations.SetpixUnpackedView := by
  intro s x y hwf
  exact ⟨_, rfl, pixel_setPixel hwf x y⟩

/-! ### The page slice (40_framebuffer.md R104) -/

/-- Settles O21: the slice of a page that exists joins the response stream, and nothing else happens. -/
theorem pagesliceEmitsPage : Obligations.PagesliceEmitsPage := by
  intro s p hp
  rw [exec_pageslice_of_lt hp]
  rfl

end Sys2Proof.Machine
end

section
/-! SUPPORT. The encoder against the decoder, in both directions; the rows of the commands in numbers; the assembled DRAWTEXT. Then
O1 to O6. -/

namespace Sys2Proof.Machine

/-! ### Decoding an encoded instruction -/

/-- Settles O1, instruction by instruction; one that has no operand, or is its own word, by evaluation. -/
theorem decodeEncodeAgree : Obligations.DecodeEncodeAgree := by
  intro i
  cases i with
  | setpix x y => exact Laws.RoundTrip.setpix x y
  | pageslice p => exact Laws.RoundTrip.pageslice p
  | lookup c => exact Laws.RoundTrip.lookup c
  | drawchar c x y => exact Laws.RoundTrip.drawchar c x y
  | drawtext len x y => exact Laws.RoundTrip.drawtext len x y
  | pageSel p => exact Laws.RoundTrip.pageSel p
  | _ => exact fun _ => rfl

/-! ### Encoding a decoded word -/

/-- The instruction `i` is well formed, stands in the slot `sl`, and has the word `c`. -/
def IsWordOf (sl : Slot) (c : Code) (i : Instr) : Prop := encode i = c ∧ slotOf i = sl ∧ i.wellFormed = true

/-- The word of the command that a word's fields name has these fields, where those it does not use are 0 (R81). -/
theorem encode_buildCommand {o : Opcode} {w : Beat} (h8 : usesA8 o = false → fieldA8 w = 0#8)
    (hxy : usesXY o = false → fieldX w = 0#16 ∧ fieldY w = 0#16) :
    encode (buildCommand o w) = .beat (commandWord (opcodeByte o) (fieldA8 w) (fieldX w) (fieldY w)) := by
  cases o with
  | setpix => simp only [buildCommand, encode, coordField_sext16, h8 rfl]
  | pageslice => simp only [buildCommand, encode, BitVec.ofNat_toNat, BitVec.setWidth_eq, hxy rfl]
  | lookup => simp only [buildCommand, encode, hxy rfl]
  | drawchar => simp only [buildCommand, encode, coordField_sext16]
  | drawtext => simp only [buildCommand, encode, coordField_sext16, BitVec.ofNat_toNat, BitVec.setWidth_eq]
  | clear | init | present => simp only [buildCommand, encode, h8 rfl, hxy rfl]

/-- A word that matches a command's row is the command's word, of the operands its fields hold (R81). -/
theorem isWordOf_buildCommand {o : Opcode} {w : Beat} (h : w &&& maskOf o = patternOf o) :
    IsWordOf .command (.beat w) (buildCommand o w) := by
  obtain ⟨hopc, hrsv, h8, hxy⟩ := (matches_iff o w).1 h
  have hw : commandWord (opcodeByte o) (fieldA8 w) (fieldX w) (fieldY w) = w := hopc ▸ commandWord_fields hrsv
  have hx := coordOk_sext16 (fieldX w)
  have hy := coordOk_sext16 (fieldY w)
  have ha : fieldA8Ok (fieldA8 w).toNat := Nat.le_of_lt_succ (fieldA8 w).isLt
  refine ⟨(encode_buildCommand h8 hxy).trans (congrArg Code.beat hw), by cases o <;> rfl, ?_⟩
  cases o with
  | setpix | drawchar => exact decide_eq_true ⟨hx, hy⟩
  | drawtext => exact decide_eq_true ⟨ha, hx, hy⟩
  | pageslice => exact decide_eq_true ha
  | _ => rfl

theorem isWordOf_iseqInstr {k : Nat} {i : Instr} (h : iseqInstr k = some i) : IsWordOf (.initSeq k) (.byte (iseqAt k)) i := by
  unfold iseqInstr at h
  split at h <;> cases h <;> exact ⟨rfl, rfl, rfl⟩

/-- A byte 10110ppp is the page-select byte of its page (R93). -/
theorem pageSelByte_of_match {b : Byte} (h : b &&& 0xF8#8 = 0xB0#8) : pageSelByte (b &&& 0x07#8).toNat = b := by
  have hdisj : 0xB0#8 &&& (b &&& 0x07#8) = 0#8 := by
    rw [← h, BitVec.and_assoc, ← BitVec.and_assoc 0xF8#8, BitVec.and_comm 0xF8#8 b, BitVec.and_assoc b]
    simp
  calc pageSelByte (b &&& 0x07#8).toNat
      = 0xB0#8 + (b &&& 0x07#8) := by rw [pageSelByte, BitVec.ofNat_add, BitVec.ofNat_toNat, BitVec.setWidth_eq]
    _ = b &&& 0xF8#8 ||| b &&& 0x07#8 := by rw [BitVec.add_eq_or_of_and_eq_zero _ _ hdisj, h]
    _ = b &&& BitVec.allOnes 8 := BitVec.and_or_distrib_left.symm
    _ = b := BitVec.and_allOnes

/-- The byte that decodes to a step of a page is that step's byte (R91 to R93). -/
theorem isWordOf_decodePage {ph : Nat} {b : Byte} {i : Instr} (h : decodePage ph b = .instr i) : IsWordOf (.page ph) (.byte b) i := by
  unfold decodePage at h
  split at h
  case h_1 =>
    split at h <;> cases h
    have hlt : (b &&& 0x07#8).toNat < 8 := Nat.lt_succ_of_le (BitVec.toNat_and b _ ▸ Nat.and_le_right)
    exact ⟨congrArg Code.byte (pageSelByte_of_match ‹_›), rfl, decide_eq_true hlt⟩
  case h_5 => cases h
  all_goals
    split at h <;> cases h
    exact ⟨congrArg Code.byte (Eq.symm ‹_›), rfl, rfl⟩

/-- Settles O2, slot by slot. -/
theorem decodedWordIsEncoded : Obligations.DecodedWordIsEncoded := by
  intro sl c i h
  cases sl <;> cases c
  case command.beat w =>
    obtain ⟨o, -, hm, rfl⟩ := decodeCommand_instr h
    exact isWordOf_buildCommand hm
  case text.beat w => cases h; exact ⟨rfl, rfl, rfl⟩
  case initSeq.byte k b =>
    simp only [decode, decodeInit] at h
    split at h
    case h_1 => cases h
    case h_2 hi =>
      split at h <;> cases h
      subst b
      exact isWordOf_iseqInstr hi
  case page.byte ph b => exact isWordOf_decodePage h
  all_goals cases h

/-! ### The rows of the commands, in numbers (R78, R81) -/

/-- The command an instruction is, if it is one. -/
def commandOf : Instr → Option Opcode
  | .clear => some .clear
  | .setpix _ _ => some .setpix
  | .pageslice _ => some .pageslice
  | .lookup _ => some .lookup
  | .drawchar _ _ _ => some .drawchar
  | .drawtext _ _ _ => some .drawtext
  | .init => some .init
  | .present => some .present
  | _ => none

theorem commandOf_buildCommand (o : Opcode) (w : Beat) : commandOf (buildCommand o w) = some o := by
  cases o <;> rfl

/-- A word matches a command's row exactly where it decodes to that command with the operands its fields hold. -/
theorem matches_iff_decode (o : Opcode) (w : Beat) :
    w &&& maskOf o = patternOf o ↔ decode .command (.beat w) = .instr (buildCommand o w) := by
  constructor
  · intro h
    obtain ⟨hopc, -⟩ := (matches_iff o w).1 h
    simp only [decode, decodeCommand, hopc, opcodeOf_opcodeByte, h, if_true]
  · intro h
    obtain ⟨o', -, hm, heq⟩ := decodeCommand_instr h
    have ho : some o = some o' := by rw [← commandOf_buildCommand o w, heq, commandOf_buildCommand]
    cases ho
    exact hm

theorem fieldOpc_toNat (w : Beat) : (fieldOpc w).toNat = w.toNat / 2 ^ 56 := by
  have := w.isLt
  rw [fieldOpc, BitVec.extractLsb'_toNat, Nat.shiftRight_eq_div_pow, Nat.mod_eq_of_lt (by omega)]

theorem fieldA8_toNat (w : Beat) : (fieldA8 w).toNat = w.toNat / 2 ^ 48 % 256 := by
  rw [fieldA8, BitVec.extractLsb'_toNat, Nat.shiftRight_eq_div_pow]

theorem fieldA8_eq_ofNat (w : Beat) : fieldA8 w = BitVec.ofNat 8 (w.toNat / 2 ^ 48) :=
  BitVec.eq_of_toNat_eq (by rw [fieldA8_toNat, BitVec.toNat_ofNat])

theorem sext16_eq_signed16 (v : Half) : sext16 v = signed16 v.toNat := by
  have := v.isLt
  simp only [sext16, signed16, BitVec.toInt_eq_toNat_cond]
  split <;> split <;> omega

theorem sext16_fieldX (w : Beat) : sext16 (fieldX w) = signed16 (w.toNat / 65536 % 65536) := by
  rw [sext16_eq_signed16, fieldX, BitVec.extractLsb'_toNat, Nat.shiftRight_eq_div_pow]

theorem sext16_fieldY (w : Beat) : sext16 (fieldY w) = signed16 (w.toNat % 65536) := by
  rw [sext16_eq_signed16, fieldY, BitVec.extractLsb'_toNat, Nat.shiftRight_zero]

/-- Settles O3: `matches_iff_decode` for each command, its operands in numbers. -/
theorem commandRowsAndOperands : Obligations.CommandRowsAndOperands := by
  intro w
  rw [← sext16_fieldX, ← sext16_fieldY, ← fieldA8_toNat, ← fieldA8_eq_ofNat]
  exact ⟨matches_iff_decode .clear w, matches_iff_decode .setpix w, matches_iff_decode .pageslice w,
    matches_iff_decode .lookup w, matches_iff_decode .drawchar w, matches_iff_decode .drawtext w,
    matches_iff_decode .init w, matches_iff_decode .present w⟩

/-! ### Illegal opcodes (R82) -/

theorem opcodeOf_eq_none_iff (b : Byte) :
    opcodeOf b = none ↔ b.toNat = 0 ∨ (7 ≤ b.toNat ∧ b.toNat ≤ 0x0F) ∨ 0x12 ≤ b.toNat := by
  unfold opcodeOf
  split
  case h_9 => simp only [imp_false, true_iff] at *; omega
  all_goals simp only [reduceCtorEq, false_iff]; omega

theorem decodeCommand_illegal_iff (w : Beat) : decodeCommand w = .reject .illegalOpcode ↔ opcodeOf (fieldOpc w) = none := by
  constructor
  · intro h
    rcases decodeCommand_reject h with ⟨-, hnone⟩ | ⟨hres, -⟩
    · exact hnone
    · cases hres
  · intro h
    simp only [decodeCommand, h]

/-- Settles O4: the opcode map of R80 has no entry for exactly these values. -/
theorem illegalOpcodes : Obligations.IllegalOpcodes := by
  intro w
  rw [← fieldOpc_toNat]
  exact (decodeCommand_illegal_iff w).trans (opcodeOf_eq_none_iff (fieldOpc w))

/-- Settles O5, word by word. -/
theorem sampleWordsDecode : Obligations.SampleWordsDecode :=
  ⟨rfl, rfl, rfl, rfl, rfl, rfl, rfl, rfl⟩

/-! ### The assembled DRAWTEXT (R97) -/

/-- A command word is its fields one behind the other, RSV zero (R77). -/
theorem commandWord_eq_append (opc a8 : Byte) (x y : Half) :
    commandWord opc a8 x y = (opc ++ a8 ++ 0x0000#16 ++ x ++ y : BitVec 64) := by
  have hopc := opc.isLt
  have ha8 := a8.isLt
  have hx := x.isLt
  have hy := y.isLt
  apply BitVec.eq_of_toNat_eq
  rw [BitVec.toNat_append, BitVec.toNat_append, BitVec.toNat_append, BitVec.toNat_append]
  simp (disch := omega) only [commandWord, BitVec.toNat_or, BitVec.toNat_shiftLeft, BitVec.toNat_setWidth, Nat.mod_eq_of_lt]
  simp only [BitVec.toNat_zero, Nat.or_zero, Nat.shiftLeft_or_distrib, ← Nat.shiftLeft_add]

theorem lane_or (v w : Beat) (l : Nat) : lane (v ||| w) l = lane v l ||| lane w l :=
  BitVec.extractLsb'_or

/-- A byte put into a lane stands in that lane and in no other (R84). -/
theorem lane_shiftLeft (v : Byte) {l k : Nat} (hl : l < 8) (hk : k < 8) :
    lane (v.setWidth 64 <<< (8 * k)) l = if l = k then v else 0x00#8 := by
  apply BitVec.eq_of_getLsbD_eq
  intro i hi
  simp only [lane, BitVec.getLsbD_extractLsb', BitVec.getLsbD_shiftLeft, BitVec.getLsbD_setWidth]
  by_cases hlk : l = k
  · subst hlk
    simp [hi, show 8 * l + i < 64 by omega, show i < 64 by omega]
  · rw [if_neg hlk]
    rcases Nat.lt_or_gt_of_ne hlk with h | h
    · simp [show 8 * l + i < 8 * k by omega]
    · simp [BitVec.getLsbD_of_ge v (8 * l + i - 8 * k) (by omega)]

/-- Lane `l` of a packed beat is byte 8b + l of the text, 0 past its end (R97). -/
theorem lane_packBeat (text : List Byte) (b : Nat) {l : Nat} (hl : l < 8) :
    lane (packBeat text b) l = text.getD (8 * b + l) 0x00#8 := by
  have hzero : lane 0#64 l = 0#8 := by simp [lane]
  simp (disch := omega) only [packBeat, List.foldl_cons, List.foldl_nil, lane_or, lane_shiftLeft, hzero]
  interval_cases l <;> simp

theorem packText_getD (text : List Byte) {b : Nat} (hb : b < (packText text).length) :
    (packText text).getD b 0#64 = packBeat text b := by
  rw [List.getD_eq_getElem _ _ hb]
  simp only [packText, List.getElem_map, List.getElem_range]

/-- Settles O6: the command word by `commandWord_eq_append`, a beat's lanes by `lane_packBeat`. -/
theorem assembledDrawtext : Obligations.AssembledDrawtext := by
  intro x y text _
  refine ⟨packText text, congrArg (· :: packText text) (commandWord_eq_append _ _ _ _), ?length, ?lanes⟩
  case length => simp only [packText, textBeats, List.length_map, List.length_range]
  case lanes =>
    intro b l hb hl
    rw [packText_getD text hb]
    exact lane_packBeat text b hl

end Sys2Proof.Machine
end

section
/-! SUPPORT. The dispatch of the first beat offered, with no turn listed; the moves that take no beat. Then O7, O10, O11 and O13. -/

namespace Sys2Proof.Machine

/-! ### The dispatch (30_encoding.md R87) -/

/-- In EXPECT_CMD and idle, the ODB dispatches the first beat offered. -/
theorem step_of_idle_offered {s : State} {w : Beat} {ws : List Beat} (hidle : Idle s) (ht : s.turns = [])
    (ho : s.offered = w :: ws) : step s = dispatchWord w { s with offered := ws } := by
  obtain ⟨hr, hb, hp⟩ := hidle
  rw [step_of_turns_nil ht]
  simp only [odbTurn, hr, hp, hb, takeCommand, ho, Bool.false_eq_true, if_false]

theorem dispatchWord_of_instr {w : Beat} {i : Instr} (h : decode .command (.beat w) = .instr i) (s : State) :
    dispatchWord w s = exec i (accept w s) := by
  simp only [dispatchWord, h]

theorem dispatchWord_of_illegal {w : Beat} (h : decode .command (.beat w) = .reject .illegalOpcode) (s : State) :
    dispatchWord w s = .next (raise .illegal s) := by
  simp only [dispatchWord, h]

theorem dispatchWord_of_reserved {w : Beat} (h : decode .command (.beat w) = .reject .reservedField) (s : State) :
    dispatchWord w s = .next (rejectReserved w s) := by
  simp only [dispatchWord, h]

/-- In EXPECT_TEXT the ODB executes the first beat offered as a text beat, whatever its bits (R76). -/
theorem step_of_text_offered {s : State} {w : Beat} {ws : List Beat} {n : Nat} (hr : s.rst = false) (hp : s.port = .expectText n)
    (ht : s.turns = []) (ho : s.offered = w :: ws) : step s = exec (.textbeat w) { s with offered := ws } := by
  rw [step_of_turns_nil ht]
  simp only [odbTurn, hr, hp, takeText, ho, decode, Bool.false_eq_true, if_false]

/-- Settles O7. -/
theorem stepRunsOfferedBeat : Obligations.StepRunsOfferedBeat := by
  intro s w ws hr ht ho
  refine ⟨fun i hb hp hd => ?command, fun n hp => ⟨rfl, step_of_text_offered hr hp ht ho⟩⟩
  case command =>
    rw [step_of_idle_offered ⟨hr, hb, hp⟩ ht ho, dispatchWord_of_instr hd]
    rfl

/-! ### Rejected words (60_exceptions.md R141, R142) -/

/-- An error other than E_TRANSPORT ends the operation and changes nothing else (R148). -/
theorem raise_eq {e : ErrCode} (he : e ≠ .transport) (s : State) :
    raise e s = { s with err := e, busy := false, port := .expectCmd } := by
  rw [raise, if_neg he, finish]

/-- Where the machine is idle, such an error changes nothing but ERR. -/
theorem raise_of_idle {e : ErrCode} {s : State} (hidle : Idle s) (he : e ≠ .transport) : raise e s = { s with err := e } := by
  obtain ⟨-, hb, hp⟩ := hidle
  rw [raise_eq he, ← hb, ← hp]

/-- Settles O10: the dispatch of an illegal word raises E_ILLEGAL in the idle state. -/
theorem illegalWordEnds : Obligations.IllegalWordEnds := by
  intro s w ws hidle ht ho hd
  rw [step_of_idle_offered hidle ht ho, dispatchWord_of_illegal hd]
  exact congrArg Host.Outcome.next (raise_of_idle (s := { s with offered := ws }) hidle (by decide))

/-- Settles O11: the dispatch of a rejected word that is no DRAWTEXT raises E_RESERVED in the idle state. -/
theorem reservedWordEnds : Obligations.ReservedWordEnds := by
  intro s w ws hidle ht ho hd hopc
  rw [step_of_idle_offered hidle ht ho, dispatchWord_of_reserved hd]
  rcases rejectReserved_cases w { s with offered := ws } with ⟨hdraw, -⟩ | ⟨-, he⟩
  · exact absurd hdraw hopc
  · rw [he]
    exact congrArg Host.Outcome.next (raise_of_idle (s := { s with offered := ws }) hidle (by decide))

/-! ### Beats wait for `cmd_ready` (30_encoding.md R75) -/

theorem cmdReady_iff (s : State) :
    cmdReady s = true ↔ s.rst = false ∧ ((s.busy = false ∧ s.port = .expectCmd) ∨ ∃ n, s.port = .expectText n) := by
  cases hp : s.port <;> simp [cmdReady, hp]

/-- A page's step leaves the host's offers as they are. -/
theorem offered_of_exec_decodePage {ph : Nat} {b : Byte} {i : Instr} {s t : State} (hd : decodePage ph b = .instr i)
    (he : exec i s = .next t) : t.offered = s.offered := by
  unfold decodePage at hd
  split at hd
  case h_5 => cases hd
  case h_4 =>
    split at hd <;> cases hd
    simp only [exec, execPageData] at he
    cases hs : pageSlice s.seqP s.fb with
    | none => rw [hs] at he; cases he
    | some ds => rw [hs] at he; cases he; rfl
  all_goals
    split at hd <;> cases hd
    cases he
    rfl

/-- The ODB takes a beat only while `cmd_ready` is 1. -/
theorem offered_of_odbMove {s t : State} (h : OdbMove s t) (hready : cmdReady s = false) : t.offered = s.offered := by
  have hnot : cmdReady s ≠ true := by simp [hready]
  rw [Ne, cmdReady_iff] at hnot
  cases h with
  | command _ _ _ _ hr hb hp => exact absurd ⟨hr, .inl ⟨hb, hp⟩⟩ hnot
  | illegal _ _ hr hb hp => exact absurd ⟨hr, .inl ⟨hb, hp⟩⟩ hnot
  | reserved _ _ _ hr hb hp => exact absurd ⟨hr, .inl ⟨hb, hp⟩⟩ hnot
  | text _ _ n _ hr hp => exact absurd ⟨hr, .inr ⟨n, hp⟩⟩ hnot
  | pageStep _ _ _ _ _ _ _ hd he => exact offered_of_exec_decodePage hd he
  | _ => rfl

/-- Settles O13: with no turn listed a step is a move of the ODB. -/
theorem beatsWaitForReady : Obligations.BeatsWaitForReady := by
  refine ⟨cmdReady_iff, fun s t hready ht hstep => ?_⟩
  rw [step_of_turns_nil ht] at hstep
  exact offered_of_odbMove (odbTurn_move hstep) hready

end Sys2Proof.Machine
end

section
/-! SUPPORT. Text beats: what one stores, what a run of them stores, and a whole DRAWTEXT from its first stretch to its last beat. Then
O29, O30, O31, O12 and O34. -/

namespace Sys2Proof.Machine

/-! ### The first stretch (30_encoding.md R83) -/

theorem beginText_of_pos {len : Nat} (h : 0 < len) (s : State) :
    beginText len s = { s with txtlen := len, port := .expectText (textBeats len) } := by
  rcases beginText_cases len s with ⟨h0, -⟩ | ⟨-, he⟩
  · omega
  · exact he

theorem beginText_zero (s : State) : beginText 0 s = endText { s with txtlen := 0 } := by
  rcases beginText_cases 0 s with ⟨-, he⟩ | ⟨h0, -⟩
  · exact he
  · omega

theorem endText_of_rsv_zero {s : State} (h : s.rsv = 0#16) :
    endText s = layoutText (sext16 s.opl.x) (sext16 s.opl.y) s := by
  rcases endText_cases s with ⟨-, he⟩ | ⟨hne, -⟩
  · exact he
  · exact absurd h hne

theorem endText_of_rsv_ne_zero {s : State} (h : s.rsv ≠ 0#16) : endText s = raise .reserved { s with rsv := 0#16 } := by
  rcases endText_cases s with ⟨h0, -⟩ | ⟨-, he⟩
  · exact absurd h0 h
  · exact he

/-- What follows the last text beat of a DRAWTEXT that latched its own operands: its text is drawn at them (R87, R117). -/
theorem endText_latched {s : State} {len : Nat} {x y : Int} (hrsv : s.rsv = 0#16)
    (hopl : s.opl = { opc := opcodeByte .drawtext, a8 := BitVec.ofNat 8 len, x := coordField x, y := coordField y })
    (hx : coordOk x) (hy : coordOk y) : endText s = layoutText x y s := by
  rw [endText_of_rsv_zero hrsv, hopl, sext16_coordField hx, sext16_coordField hy]

theorem wellFormed_drawtext_iff {len : Nat} {x y : Int} :
    (Instr.drawtext len x y).wellFormed = true ↔ fieldA8Ok len ∧ coordOk x ∧ coordOk y :=
  decide_eq_true_iff

/-- Settles O29, by whether there is text to collect. -/
theorem drawtextBegins : Obligations.DrawtextBegins := by
  intro s len x y hwf
  obtain ⟨-, hx, hy⟩ := wellFormed_drawtext_iff.1 hwf
  constructor
  · intro hpos
    exact congrArg Host.Outcome.next (beginText_of_pos hpos (latchText len x y s))
  · rintro rfl
    calc exec (.drawtext 0 x y) s
        = .next (beginText 0 (latchText 0 x y s)) := rfl
      _ = .next (endText { latchText 0 x y s with txtlen := 0 }) := congrArg Host.Outcome.next (beginText_zero _)
      _ = .next (layoutText x y { latchText 0 x y s with txtlen := 0 }) :=
        congrArg Host.Outcome.next (endText_latched rfl rfl hx hy)
      _ = _ := rfl

/-! ### One text beat (30_encoding.md R84) -/

/-- Storing the lanes of a list. -/
theorem foldl_lanes_read (b : Nat) (w : Beat) (len : Nat) (ls : List Nat) {m : Memory} (hm : m.wf) (j : Nat) :
    (ls.foldl (fun m l => if 8 * b + l < len then m.write (8 * b + l) (lane w l) else m) m).read j =
      if 8 * b ≤ j ∧ j - 8 * b ∈ ls ∧ j < len then lane w (j - 8 * b) else m.read j := by
  induction ls generalizing m with
  | nil => simp
  | cons l ls ih =>
    have hhead : (if 8 * b + l < len then m.write (8 * b + l) (lane w l) else m).read j =
        if j = 8 * b + l ∧ j < len then lane w (j - 8 * b) else m.read j := by
      split
      · rw [Memory.read_write hm]
        by_cases hj : j = 8 * b + l
        · rw [if_pos hj, if_pos ⟨hj, by omega⟩, hj, Nat.add_sub_cancel_left]
        · rw [if_neg hj, if_neg fun h => hj h.1]
      · rw [if_neg (by omega)]
    have hwf : (if 8 * b + l < len then m.write (8 * b + l) (lane w l) else m).wf := by
      split
      · exact Memory.write_wf hm _ _
      · exact hm
    rw [List.foldl_cons, ih hwf, hhead]
    by_cases hin : 8 * b ≤ j ∧ j - 8 * b ∈ ls ∧ j < len
    · have ⟨h1, h2, h3⟩ := hin
      rw [if_pos hin, if_pos ⟨h1, List.mem_cons_of_mem _ h2, h3⟩]
    · rw [if_neg hin]
      refine if_congr ?_ rfl rfl
      rw [List.mem_cons]
      constructor
      · exact fun ⟨hj, hlt⟩ => ⟨by omega, .inl (by omega), hlt⟩
      · rintro ⟨h1, h2 | h2, h3⟩
        · exact ⟨by omega, h3⟩
        · exact absurd ⟨h1, h2, h3⟩ hin

theorem storeLanes_wf (b : Nat) (w : Beat) (len : Nat) {m : Memory} (h : m.wf) : (storeLanes b w len m).wf := by
  refine foldl_keeps (P := Memory.wf) _ (fun m l hm => ?_) _ h
  split
  · exact Memory.write_wf hm _ _
  · exact hm

/-- What text beat `b` leaves in every byte of TXTBUF: its lanes below the text's length (R84). -/
theorem storeLanes_read (b : Nat) (w : Beat) (len : Nat) {m : Memory} (hm : m.wf) (j : Nat) :
    (storeLanes b w len m).read j =
      if 8 * b ≤ j ∧ j < 8 * b + 8 ∧ j < len then lane w (j - 8 * b) else m.read j := by
  rw [storeLanes, foldl_lanes_read b w len laneIndices hm j]
  have hmem : ∀ k, k ∈ laneIndices ↔ k < 8 := by
    intro k
    simp only [laneIndices, List.mem_cons, List.not_mem_nil, or_false]
    omega
  simp only [hmem]
  refine if_congr ?_ rfl rfl
  omega

/-- The number of the beat that is next, from the number of beats missing (R84). -/
theorem beat_number {b n len : Nat} (h : b + n = textBeats len) : textBeats len - n = b := by omega

/-- A text beat that is not the last (R84). -/
theorem exec_textbeat_of_two_le {s : State} {n : Nat} (w : Beat) (hp : s.port = .expectText n) (hn : 2 ≤ n) :
    exec (.textbeat w) s = .next { s with
      txtbuf := storeLanes (textBeats s.txtlen - n) w s.txtlen s.txtbuf
      port := .expectText (n - 1) } := by
  have hn' : ¬ n ≤ 1 := by omega
  simp only [exec, execTextbeat, hp, hn', if_false]

/-- The last text beat (R84, R87). -/
theorem exec_textbeat_last {s : State} (w : Beat) (hp : s.port = .expectText 1) :
    exec (.textbeat w) s = .next (endText { s with
      txtbuf := storeLanes (textBeats s.txtlen - 1) w s.txtlen s.txtbuf
      port := .expectCmd }) := by
  simp only [exec, execTextbeat, hp, le_refl, if_true]

/-- Settles O30. -/
theorem textbeatStoresLanes : Obligations.TextbeatStoresLanes := by
  intro s w n b hwf hp hn hb
  refine ⟨_, exec_textbeat_of_two_le w hp hn, rfl, fun j => ?_⟩
  rw [beat_number (n := n) hb]
  exact storeLanes_read b w s.txtlen hwf j

/-- Settles O31: with RSV zero the text collected is laid out at the latched operands. -/
theorem lastTextbeatDraws : Obligations.LastTextbeatDraws := by
  intro s w b hwf hp hb hrsv
  refine ⟨_, (exec_textbeat_last w hp).trans (congrArg Host.Outcome.next (endText_of_rsv_zero hrsv)), fun j => ?lanes, ?text, rfl⟩
  case lanes =>
    rw [layoutText_txtbuf, beat_number (n := 1) hb]
    refine (storeLanes_read b w s.txtlen hwf j).trans (if_congr ?_ rfl rfl)
    omega
  case text =>
    simp only [layoutText_cx, layoutText_fb, layoutText_txtbuf, collectedText, Memory.readRange, Nat.zero_add]
    rfl

/-! ### All text beats -/

/-- TXTBUF after text beats `b`, `b + 1`, … of a text of `len` bytes (R84). -/
def storeBeats (len : Nat) : Nat → List Beat → Memory → Memory
  | _, [], m => m
  | b, w :: beats, m => storeBeats len (b + 1) beats (storeLanes b w len m)

/-- What a run of text beats leaves in every byte of TXTBUF. -/
theorem storeBeats_read (len b : Nat) (beats : List Beat) {m : Memory} (hm : m.wf) (j : Nat) :
    (storeBeats len b beats m).read j =
      if 8 * b ≤ j ∧ j < 8 * (b + beats.length) ∧ j < len then lane (beats.getD (j / 8 - b) 0#64) (j % 8) else m.read j := by
  induction beats generalizing b m with
  | nil =>
    simp only [storeBeats, List.length_nil]
    rw [if_neg (by omega)]
  | cons w beats ih =>
    rw [storeBeats, ih (b + 1) (storeLanes_wf b w len hm), storeLanes_read b w len hm, List.length_cons]
    by_cases hlow : j < 8 * b + 8
    · rw [if_neg (by omega)]
      by_cases hin : 8 * b ≤ j ∧ j < len
      · have hb : j / 8 - b = 0 := by omega
        have hl : j - 8 * b = j % 8 := by omega
        rw [if_pos (by omega), if_pos (by omega), hb, hl, List.getD_cons_zero]
      · rw [if_neg (by omega), if_neg (by omega)]
    · have hb : j / 8 - b = j / 8 - (b + 1) + 1 := by omega
      rw [if_neg (c := 8 * b ≤ j ∧ j < 8 * b + 8 ∧ j < len) (by omega), hb, List.getD_cons_succ]
      refine if_congr ?_ rfl rfl
      omega

/-- Byte `j` of the text that beats carry is lane j mod 8 of beat j div 8 (R84). -/
theorem textOf_getD (beats : List Beat) {len j : Nat} (h : j < len) :
    (textOf beats len).getD j 0x00#8 = lane (beats.getD (j / 8) 0#64) (j % 8) := by
  have hlen : j < (textOf beats len).length := by simpa [textOf] using h
  rw [List.getD_eq_getElem _ _ hlen]
  simp only [textOf, List.getElem_map, List.getElem_range, lane]

/-- All text beats of a text leave it in TXTBUF below its length, and every other byte as it was. -/
theorem storeBeats_read_all {len : Nat} {beats : List Beat} (hlen : beats.length = textBeats len) {m : Memory} (hm : m.wf) (j : Nat) :
    (storeBeats len 0 beats m).read j = if j < len then (textOf beats len).getD j 0x00#8 else m.read j := by
  rw [storeBeats_read len 0 beats hm j, hlen, textBeats]
  by_cases hj : j < len
  · rw [if_pos (by omega), if_pos hj, textOf_getD beats hj, Nat.sub_zero]
  · rw [if_neg (by omega), if_neg hj]

/-- A run of the text beats still missing, all of them offered (R83, R84). -/
theorem runSteps_textbeats {s : State} {beats ws : List Beat} {b : Nat} (hr : s.rst = false) (ht : s.turns = [])
    (hne : beats ≠ []) (hp : s.port = .expectText beats.length) (hb : b + beats.length = textBeats s.txtlen)
    (ho : s.offered = beats ++ ws) :
    runSteps beats.length s = .next (endText { s with
      offered := ws, port := .expectCmd, txtbuf := storeBeats s.txtlen b beats s.txtbuf }) := by
  induction beats generalizing s b with
  | nil => exact absurd rfl hne
  | cons w beats ih =>
    cases beats with
    | nil =>
      have hstep := step_of_text_offered (ws := ws) hr hp ht ho
      rw [exec_textbeat_last (s := { s with offered := ws }) w hp, beat_number (n := 1) hb] at hstep
      exact runSteps_succ_of_step hstep 0
    | cons w' beats =>
      have hstep := step_of_text_offered (ws := w' :: beats ++ ws) hr hp ht ho
      rw [exec_textbeat_of_two_le (s := { s with offered := w' :: beats ++ ws }) w hp (by simp), beat_number hb] at hstep
      have hb' : b + 1 + (w' :: beats).length = textBeats s.txtlen := by
        rw [← hb, List.length_cons (a := w)]
        omega
      rw [List.length_cons, runSteps_succ_of_step hstep]
      exact ih hr ht (List.cons_ne_nil _ _) rfl hb' rfl

/-- The state with the text beats of a text of `len` bytes taken and stored, the beats `ws` still offered. -/
def tookText (len : Nat) (beats ws : List Beat) (s : State) : State :=
  { s with offered := ws, txtlen := len, txtbuf := storeBeats len 0 beats s.txtbuf }

/-- A DRAWTEXT of `len` bytes, begun with its text beats offered: they are taken and stored, and what follows the last of them is run
(R83, R84, R87). -/
theorem runSteps_beginText {s : State} {beats ws : List Beat} {len : Nat} (hr : s.rst = false) (ht : s.turns = [])
    (hp : s.port = .expectCmd) (hlen : beats.length = textBeats len) (ho : s.offered = beats ++ ws) :
    runSteps beats.length (beginText len s) = .next (endText (tookText len beats ws s)) := by
  rcases Nat.eq_zero_or_pos len with rfl | hpos
  · obtain rfl : beats = [] := List.length_eq_zero_iff.1 hlen
    rw [beginText_zero, ← show s.offered = ws from ho]
    rfl
  · have hne : beats ≠ [] := by
      rintro rfl
      rw [textBeats, List.length_nil] at hlen
      omega
    rw [beginText_of_pos hpos, ← hlen, tookText, hp]
    exact runSteps_textbeats (s := { s with txtlen := len, port := .expectText beats.length }) hr ht hne rfl
      ((Nat.zero_add _).trans hlen) ho

/-! ### A whole DRAWTEXT -/

/-- A step that begins a DRAWTEXT, and the steps that take its text beats. -/
theorem runSteps_of_step_beginText {s u : State} {beats ws : List Beat} {len : Nat} (hstep : step s = .next (beginText len u))
    (hr : u.rst = false) (ht : u.turns = []) (hp : u.port = .expectCmd) (hlen : beats.length = textBeats len)
    (ho : u.offered = beats ++ ws) : runSteps (1 + beats.length) s = .next (endText (tookText len beats ws u)) := by
  rw [Nat.add_comm, runSteps_succ_of_step hstep, runSteps_beginText hr ht hp hlen ho]

/-- A DRAWTEXT whose RSV is not 0 is rejected, and begins with its RSV bits waiting to be checked (R83, R142). -/
theorem dispatchWord_of_reserved_drawtext {w : Beat} (hopc : fieldOpc w = opcodeByte .drawtext) (hrsv : fieldRsv w ≠ 0#16) (s : State) :
    dispatchWord w s = .next (beginText (fieldA8 w).toNat { s with busy := true, rsv := fieldRsv w }) := by
  have hm : w &&& maskOf .drawtext ≠ patternOf .drawtext := by
    rw [Ne, matches_iff]
    exact fun ⟨_, h, _⟩ => hrsv h
  have hd : decode .command (.beat w) = .reject .reservedField := by
    simp only [decode, decodeCommand, hopc, opcodeOf_opcodeByte, hm, if_false]
  rw [dispatchWord_of_reserved hd]
  rcases rejectReserved_cases w s with ⟨-, he⟩ | ⟨hne, -⟩
  · rw [he]
  · exact absurd hopc hne

/-- Settles O12: the beats are taken as those of any DRAWTEXT, and the check of RSV after the last of them raises E_RESERVED. -/
theorem reservedDrawtextTakesItsBeats : Obligations.ReservedDrawtextTakesItsBeats := by
  intro s w beats ws hinv hidle ht hopc hrsv hlen ho
  have ⟨hr, hb, hp⟩ := hidle
  have ⟨⟨_, _, hbuf, _⟩, _, _, htext, _⟩ := hinv
  have hrsv0 : s.rsv = 0#16 := (textInv_of_expectCmd hp).1 htext
  have hstep := (step_of_idle_offered hidle ht ho).trans (dispatchWord_of_reserved_drawtext hopc hrsv _)
  have hrun := runSteps_of_step_beginText (u := { s with offered := beats ++ ws, busy := true, rsv := fieldRsv w }) hstep
    hr ht hp hlen rfl
  rw [endText_of_rsv_ne_zero hrsv, raise_eq (by decide)] at hrun
  refine ⟨_, hrun, fun j => storeBeats_read_all hlen hbuf j, ?_⟩
  rw [← hb, ← hp, ← hrsv0]
  rfl

/-- The text collected is the one the beats carry (R84). -/
theorem collectedText_tookText {len : Nat} {beats : List Beat} {s : State} (hlen : beats.length = textBeats len)
    (hm : s.txtbuf.wf) (ws : List Beat) : collectedText (tookText len beats ws s) = textOf beats len := by
  refine List.map_congr_left fun j hj => ?_
  have hlt : j < len := List.mem_range.1 hj
  calc (storeBeats len 0 beats s.txtbuf).read (0 + j)
      = (textOf beats len).getD j 0x00#8 := by rw [Nat.zero_add, storeBeats_read_all hlen hm, if_pos hlt]
    _ = lane (beats.getD (j / 8) 0#64) (j % 8) := textOf_getD beats hlt

/-- The dispatch has latched the word's fields already, so the latching of DRAWTEXT's own execution changes nothing (log 12). -/
theorem latchText_accept {len : Nat} {x y : Int} {w : Beat} {s : State} (hw : encode (.drawtext len x y) = .beat w)
    (hrsv : s.rsv = 0#16) : latchText len x y (accept w s) = accept w s := by
  cases hw
  simp only [latchText, accept, wordLatch, fieldOpc_commandWord, fieldA8_commandWord, fieldX_commandWord, fieldY_commandWord,
    ← hrsv]

/-- Settles O34: the beats are taken and stored, and the text they carry is laid out at the operands. -/
theorem drawtextWholeOperation : Obligations.DrawtextWholeOperation := by
  intro s len x y w beats ws hinv hidle ht hwf hw hlen ho
  have ⟨hr, hb, hp⟩ := hidle
  have ⟨⟨_, _, hbuf, _⟩, _, _, htext, _⟩ := hinv
  have hrsv : s.rsv = 0#16 := (textInv_of_expectCmd hp).1 htext
  have ⟨_, hx, hy⟩ := wellFormed_drawtext_iff.1 hwf
  have hd := decode_command_of_encode (Laws.RoundTrip.drawtext len x y) hwf rfl hw
  have hstep := (step_of_idle_offered hidle ht ho).trans (dispatchWord_of_instr hd _)
  have hrun := runSteps_of_step_beginText (u := latchText len x y (accept w { s with offered := beats ++ ws })) hstep
    hr ht hp hlen rfl
  rw [endText_latched rfl rfl hx hy, latchText_accept (s := { s with offered := beats ++ ws }) hw hrsv] at hrun
  refine ⟨_, hrun, ?draw, fun j => storeBeats_read_all hlen hbuf j, ?frame⟩
  case draw =>
    exact congrArg (drawText s.glyphRom · x y s.fb) (collectedText_tookText (s := accept w s) hlen hbuf ws)
  case frame =>
    rw [layoutText, finish, ← hb, ← hp]
    rfl

end Sys2Proof.Machine
end

section
/-! SUPPORT. The data transactions the ODB issues and the port outputs; LOOKUP's response in numbers. Then O39 and O26. -/

namespace Sys2Proof.Machine

/-! ### Transactions and outputs (30_encoding.md R90, R91, R94) -/

/-- A page's data transaction carries 128 bytes (42_sequencer.md R132). -/
theorem length_of_pageTx_data {p ph : Nat} {fb : Memory} {ds : List Byte} (h : pageTx p ph fb = .data ds) : ds.length = 128 := by
  unfold pageTx at h
  split at h <;> cases h
  exact Memory.readRange_length fb _ _

/-- A data transaction outstanding is one of PRESENT's pages, so it carries 128 bytes. -/
theorem length_of_txp_data {s : State} {ds : List Byte} (h : RunInv s) (hx : s.txp = some (.data ds)) : ds.length = 128 := by
  obtain ⟨hrun, -⟩ := running_of_txp h hx
  cases hc : s.cstate with
  | initializing =>
    obtain ⟨-, -, -, -, hnone | hcmd⟩ := (runInv_of_initializing hc).1 h
    · simp [hx] at hnone
    · simp [hx] at hcmd
  | updating =>
    obtain ⟨-, -, -, -, hnone | htx⟩ := (runInv_of_updating hc).1 h
    · simp [hx] at hnone
    · rw [hx, Option.some.injEq] at htx
      exact length_of_pageTx_data htx.symm
  | _ => simp [hc, CState.running] at hrun

theorem rspValid_iff (s : State) : rspValid s = true ↔ s.rst = false ∧ s.rspq ≠ [] := by
  simp [rspValid]

theorem rspData_of_cons {s : State} {b : Byte} {bs : List Byte} (hr : s.rst = false) (hq : s.rspq = b :: bs) :
    rspData s = some b := by
  simp [rspData, hr, hq]

theorem rspData_of_not_valid {s : State} (h : rspValid s = false) : rspData s = none := by
  cases hr : s.rst with
  | true => simp [rspData, hr]
  | false =>
    have hq : s.rspq = [] := by simpa [rspValid, hr] using h
    simp [rspData, hq]

theorem txValid_iff (s : State) : txValid s = true ↔ s.rst = false ∧ ∃ t, s.txp = some t := by
  simp [txValid, Option.isSome_iff_exists]

/-- Settles O39: the length of a data transaction by the invariant after the step. -/
theorem framesAndOutputs : Obligations.FramesAndOutputs := by
  refine ⟨⟨fun _ => rfl, fun _ => rfl, fun _ => rfl⟩, fun s t hinv hstep ds hx => ?length, fun s =>
    ⟨rspValid_iff s, fun b bs hr hq => rspData_of_cons hr hq, rspData_of_not_valid, txValid_iff s⟩⟩
  case length =>
    obtain ⟨-, -, -, -, hrun, -, -⟩ := stepKeepsInvariant s t hinv hstep
    exact length_of_txp_data hrun hx

/-! ### LOOKUP (41_raster.md R110, R112) -/

theorem glyphIndex_upper {c : Byte} (h1 : 0x41 ≤ c.toNat) (h2 : c.toNat ≤ 0x5A) :
    ∃ n, glyphIndex c = some n ∧ n.val = c.toNat - 0x41 :=
  ⟨_, dif_pos ⟨h1, h2⟩, rfl⟩

theorem glyphIndex_lower {c : Byte} (h1 : 0x61 ≤ c.toNat) (h2 : c.toNat ≤ 0x7A) :
    ∃ n, glyphIndex c = some n ∧ n.val = c.toNat - 0x61 + 26 :=
  ⟨_, (dif_neg (by omega)).trans (dif_pos ⟨h1, h2⟩), rfl⟩

theorem glyphIndex_other {c : Byte} (h : c.toNat < 0x41 ∨ (0x5A < c.toNat ∧ c.toNat < 0x61) ∨ 0x7A < c.toNat) :
    glyphIndex c = none :=
  (dif_neg (by omega)).trans (dif_neg (by omega))

/-- Byte (n, i) of the table stands at 5n + i (20_memory.md R57). -/
theorem grom_eq_getD (rom : Vector Byte Config.glyphBytes) (n : Fin Config.nGlyph) (i : Fin Config.glyphW) :
    grom rom n i = rom.toList.getD (5 * n.val + i.val) 0x00#8 := by
  have hn := n.isLt
  have hi := i.isLt
  simp only [Config.nGlyph, Config.glyphW] at hn hi
  rw [List.getD_eq_getElem _ _ (by simp; omega)]
  simp only [grom, Vector.getElem_toList]

/-- LOOKUP of a character with a glyph, the table's bytes by their place in it. -/
theorem exec_lookup_of_glyphIndex {c : Byte} {n : Fin Config.nGlyph} (h : glyphIndex c = some n) (s : State) :
    exec (.lookup c) s = .next { s with
      rspq := s.rspq ++ 0x01#8 :: (List.range 5).map (fun i => s.glyphRom.toList.getD (5 * n.val + i) 0x00#8) } := by
  have hcols : [0, 1, 2, 3, 4].map (grom s.glyphRom n) =
      (List.range 5).map (fun i => s.glyphRom.toList.getD (5 * n.val + i) 0x00#8) := by
    simp only [List.map_cons, List.map_nil, grom_eq_getD]
    rfl
  rw [← hcols, ← lookupResponse_of_glyphIndex_some h]
  rfl

/-- Settles O26, by whether the byte is a letter. -/
theorem lookupResponses : Obligations.LookupResponses := by
  intro s c
  constructor
  · rintro n (⟨h1, h2, rfl⟩ | ⟨h1, h2, rfl⟩)
    · obtain ⟨n, hn, hval⟩ := glyphIndex_upper h1 h2
      rw [← hval]
      exact exec_lookup_of_glyphIndex hn s
    · obtain ⟨n, hn, hval⟩ := glyphIndex_lower h1 h2
      rw [← hval]
      exact exec_lookup_of_glyphIndex hn s
  · intro h
    rw [← lookupResponse_of_glyphIndex_none (rom := s.glyphRom) (glyphIndex_other h)]
    rfl

end Sys2Proof.Machine
end

section
/-! SUPPORT. Runs of SETPIX, by what one SetPixel leaves in every bit; what every move but the taking of a CLEAR leaves lit. Then O16,
O20 and O24. -/

namespace Sys2Proof.Machine

/-! ### CLEAR (40_framebuffer.md R101) -/

/-- Settles O16: the word is CLEAR's own, and the memory CLEAR leaves reads as 0 everywhere. -/
theorem clearZeroesFramebuffer : Obligations.ClearZeroesFramebuffer :=
  ⟨Laws.RoundTrip.clear rfl, fun _ => ⟨_, rfl, Memory.read_zero, rfl⟩⟩

/-! ### Runs of SETPIX (40_framebuffer.md R106) -/

/-- Two memories in canonical form that agree in every bit are equal. -/
theorem Memory.ext_getLsbD {m m' : Memory} (h : m.wf) (h' : m'.wf)
    (he : ∀ a k, k < 8 → (m.read a).getLsbD k = (m'.read a).getLsbD k) : m = m' :=
  Memory.ext h h' fun a => BitVec.eq_of_getLsbD_eq fun k hk => he a k hk

theorem setPixel_idem {m : Memory} (h : m.wf) (x y : Int) : setPixel x y (setPixel x y m) = setPixel x y m := by
  have h1 := setPixel_wf h x y
  refine Memory.ext_getLsbD (setPixel_wf h1 x y) h1 fun a k hk => ?_
  rw [setPixel_getLsbD h1 x y a hk, setPixel_getLsbD h x y a hk, Bool.or_assoc, Bool.or_self]

theorem setPixel_comm {m : Memory} (h : m.wf) (x y u v : Int) :
    setPixel x y (setPixel u v m) = setPixel u v (setPixel x y m) := by
  have hxy := setPixel_wf h x y
  have huv := setPixel_wf h u v
  refine Memory.ext_getLsbD (setPixel_wf huv x y) (setPixel_wf hxy u v) fun a k hk => ?_
  rw [setPixel_getLsbD huv x y a hk, setPixel_getLsbD h u v a hk, setPixel_getLsbD hxy u v a hk,
    setPixel_getLsbD h x y a hk, Bool.or_right_comm]

/-- A run of SETPIX commands: its first one ends, and the others follow. -/
theorem execAll_setpix_cons (x y : Int) (is : List Instr) (s : State) :
    execAll (.setpix x y :: is) s = execAll is (finish .ok { s with fb := setPixel x y s.fb }) := rfl

theorem execAll_setpix_idem {s : State} (h : s.fb.wf) (x y : Int) :
    execAll [.setpix x y, .setpix x y] s = execAll [.setpix x y] s := by
  simp only [execAll_setpix_cons, finish_fb, setPixel_idem h]
  rfl

theorem execAll_setpix_swap {s : State} (h : s.fb.wf) (x y u v : Int) (is : List Instr) :
    execAll (.setpix x y :: .setpix u v :: is) s = execAll (.setpix u v :: .setpix x y :: is) s := by
  simp only [execAll_setpix_cons, finish_fb, setPixel_comm h u v x y]
  rfl

/-- Any permutation of a run of SETPIX commands leaves the same state. -/
theorem execAll_setpix_perm {ps qs : List (Int × Int)} (hperm : ps.Perm qs) {s : State} (h : s.fb.wf) :
    execAll (ps.map fun p => .setpix p.1 p.2) s = execAll (qs.map fun p => .setpix p.1 p.2) s := by
  induction hperm generalizing s with
  | nil => rfl
  | cons p _ ih => exact ih (s := finish .ok { s with fb := setPixel p.1 p.2 s.fb }) (setPixel_wf h p.1 p.2)
  | swap p q _ => exact execAll_setpix_swap h q.1 q.2 p.1 p.2 _
  | trans _ _ ih ih' => exact (ih h).trans (ih' h)

/-- A run of SETPIX commands lights the set of its pixels. -/
theorem execAll_setpix_pixel (ps : List (Int × Int)) {s : State} (h : s.fb.wf) :
    ∃ t, execAll (ps.map fun p => .setpix p.1 p.2) s = .next t ∧
      ∀ u v : Nat, pixel t.fb u v = (pixel s.fb u v).map (fun b => b || decide (((u : Int), (v : Int)) ∈ ps)) := by
  induction ps generalizing s with
  | nil => exact ⟨s, rfl, fun u v => by simp⟩
  | cons p ps ih =>
    obtain ⟨t, ht, hpix⟩ := ih (s := finish .ok { s with fb := setPixel p.1 p.2 s.fb }) (setPixel_wf h p.1 p.2)
    refine ⟨t, ht, fun u v => ?_⟩
    rw [hpix, finish_fb, pixel_setPixel h, Option.map_map]
    simp only [Function.comp_def, Bool.or_assoc, List.mem_cons, Prod.ext_iff, Bool.decide_or]

/-- Settles O20. -/
theorem setpixRuns : Obligations.SetpixRuns := by
  intro s ps h
  exact ⟨fun x y => execAll_setpix_idem h x y, fun _ hperm => execAll_setpix_perm hperm h, execAll_setpix_pixel ps h⟩

/-! ### What keeps a lit bit lit (40_framebuffer.md R100) -/

/-- Every bit lit in `m` is lit in `m'`. -/
def LitKept (m m' : Memory) : Prop := ∀ a k, (m.read a).getLsbD k = true → (m'.read a).getLsbD k = true

theorem litKept_refl (m : Memory) : LitKept m m := fun _ _ h => h

theorem litKept_of_eq {m m' : Memory} (h : m' = m) : LitKept m m' := h ▸ litKept_refl m

/-- SetPixel ORs one bit, so it turns none off; this is what `drawChar_keeps` and `drawText_keeps` carry along. -/
theorem setPixel_keeps_litKept {m : Memory} (x y : Int) (m' : Memory) (h : m'.wf ∧ LitKept m m') :
    (setPixel x y m').wf ∧ LitKept m (setPixel x y m') := by
  obtain ⟨hwf, hlit⟩ := h
  refine ⟨setPixel_wf hwf x y, fun a k hk => ?_⟩
  have hk' := hlit a k hk
  rw [setPixel_read hwf]
  split
  · rw [BitVec.getLsbD_or, hk', Bool.true_or]
  · exact hk'

theorem litKept_setPixel {m : Memory} (h : m.wf) (x y : Int) : LitKept m (setPixel x y m) :=
  (setPixel_keeps_litKept x y m ⟨h, litKept_refl m⟩).2

theorem litKept_drawChar {m : Memory} (h : m.wf) (rom : Vector Byte Config.glyphBytes) (c : Byte) (x y : Int) :
    LitKept m (drawChar rom c x y m) :=
  (drawChar_keeps setPixel_keeps_litKept rom c x y ⟨h, litKept_refl m⟩).2

theorem litKept_drawText {m : Memory} (h : m.wf) (rom : Vector Byte Config.glyphBytes) (cs : List Byte) (x y : Int) :
    LitKept m (drawText rom cs x y m).2 :=
  (drawText_keeps setPixel_keeps_litKept rom cs x y ⟨h, litKept_refl m⟩).2

/-! ### Every move but the taking of a CLEAR -/

theorem litKept_endText {s : State} (h : s.fb.wf) : LitKept s.fb (endText s).fb := by
  rcases endText_cases s with ⟨-, he⟩ | ⟨-, he⟩ <;> rw [he]
  · exact litKept_drawText h _ _ _ _
  · exact litKept_refl s.fb

theorem litKept_beginText {s : State} (h : s.fb.wf) (len : Nat) : LitKept s.fb (beginText len s).fb := by
  rcases beginText_cases len s with ⟨-, he⟩ | ⟨-, he⟩ <;> rw [he]
  · exact litKept_endText (s := { s with txtlen := 0 }) h
  · exact litKept_refl s.fb

theorem litKept_rejectReserved {s : State} (h : s.fb.wf) (w : Beat) : LitKept s.fb (rejectReserved w s).fb := by
  rcases rejectReserved_cases w s with ⟨-, he⟩ | ⟨-, he⟩ <;> rw [he]
  · exact litKept_beginText (s := { s with busy := true, rsv := fieldRsv w }) h (fieldA8 w).toNat
  · exact litKept_refl s.fb

theorem execPageslice_fb {p : Nat} {s t : State} (he : execPageslice p s = .next t) : t.fb = s.fb := by
  unfold execPageslice at he
  split at he <;> cases he <;> rfl

theorem execPresent_fb {s t : State} (he : execPresent s = .next t) : t.fb = s.fb := by
  unfold execPresent at he
  split at he <;> cases he <;> rfl

theorem execPageData_fb {s t : State} (he : execPageData s = .next t) : t.fb = s.fb := by
  unfold execPageData at he
  split at he <;> cases he
  rfl

theorem litKept_execTextbeat {w : Beat} {s t : State} (h : s.fb.wf) (he : execTextbeat w s = .next t) :
    LitKept s.fb t.fb := by
  unfold execTextbeat at he
  split at he
  next => cases he
  next n _ =>
    split at he <;> cases he
    · exact litKept_endText (s := { s with
        txtbuf := storeLanes (textBeats s.txtlen - n) w s.txtlen s.txtbuf
        port := .expectCmd }) h
    · exact litKept_refl s.fb

/-- The instructions named here draw or branch on the state; each other one but CLEAR is one update of other fields. -/
theorem litKept_exec {i : Instr} {s t : State} (h : s.fb.wf) (hi : i ≠ .clear) (he : exec i s = .next t) :
    LitKept s.fb t.fb := by
  cases i with
  | clear => exact absurd rfl hi
  | setpix x y => cases he; exact litKept_setPixel h x y
  | drawchar c x y => cases he; exact litKept_drawChar h s.glyphRom c x y
  | drawtext len x y => cases he; exact litKept_beginText (s := latchText len x y s) h len
  | textbeat w => exact litKept_execTextbeat h he
  | pageslice p => exact litKept_of_eq (execPageslice_fb he)
  | present => exact litKept_of_eq (execPresent_fb he)
  | pageData => exact litKept_of_eq (execPageData_fb he)
  | _ => cases he; exact litKept_refl s.fb

/-- Only the word 0x0100000000000000 is a CLEAR (30_encoding.md R81). -/
theorem word_of_buildCommand_clear {o : Opcode} {w : Beat} (hm : w &&& maskOf o = patternOf o)
    (hclear : buildCommand o w = .clear) : w = 0x0100000000000000#64 := by
  obtain ⟨hw, -⟩ := isWordOf_buildCommand hm
  rw [hclear] at hw
  cases hw
  exact commandWord_pattern .clear

/-- No step of a page is a CLEAR (42_sequencer.md R131). -/
theorem decodePage_ne_clear (ph : Nat) (b : Byte) : decodePage ph b ≠ .instr .clear := by
  intro hd
  obtain ⟨-, hsl, -⟩ := isWordOf_decodePage hd
  cases hsl

theorem litKept_odbMove {s t : State} (h : s.fb.wf) (hclear : ¬ (Idle s ∧ s.offered.head? = some 0x0100000000000000#64))
    (hmove : OdbMove s t) : LitKept s.fb t.fb := by
  cases hmove with
  | command w ws o _ hr hb hp ho _ hm he =>
    refine litKept_exec (s := accept w { s with offered := ws }) h (fun hi => hclear ⟨⟨hr, hb, hp⟩, ?_⟩) he
    rw [ho, word_of_buildCommand_clear hm hi]
    rfl
  | reserved w ws => exact litKept_rejectReserved (s := { s with offered := ws }) h w
  | text w ws n _ _ _ _ he => exact litKept_execTextbeat (s := { s with offered := ws }) h he
  | pageStep i _ _ _ _ _ _ hd he => exact litKept_exec h (fun hi => decodePage_ne_clear _ _ (hi ▸ hd)) he
  | _ => exact litKept_refl s.fb

/-- Settles O24: the ODB's moves but the taking of a CLEAR only draw, and no other agent's move but the assertion of reset writes
FB. -/
theorem onlyClearTurnsBitsOff : Obligations.OnlyClearTurnsBitsOff := by
  intro s t hinv hstep hnoreset hclear
  have ⟨⟨hwf, _⟩, _⟩ := hinv
  show LitKept s.fb t.fb
  rcases step_move hstep with ⟨-, hmove⟩ | ⟨u, us, hu, hmove⟩
  · exact litKept_odbMove hwf hclear hmove
  · cases hmove with
    | odb _ hmove => exact litKept_odbMove (s := { s with turns := us }) hwf hclear hmove
    | take => exact litKept_of_eq (takeResponse_fb { s with turns := us })
    | answer r => exact litKept_of_eq (busAnswer_fb r { s with turns := us })
    | assertRst f x hr => simp [resetting, hu, show s.rst = false from hr] at hnoreset
    | _ => exact litKept_refl s.fb

end Sys2Proof.Machine
end

section
/-! SUPPORT. Drawing as the set of bits it lights; the glyph, the character and the text in those terms; commands that redraw, and a
DRAWTEXT behind a CLEAR. Then O28, O32, O33, O27 and O25. -/

namespace Sys2Proof.Machine

/-! ### The bits a drawing lights (40_framebuffer.md R100) -/

/-- Bit `k` of byte `a` is the pixel (x, y), which is on the display (20_memory.md R59). -/
def PixelAt (x y : Int) (a k : Nat) : Prop := onDisplay x y ∧ a = pixelAddr x y ∧ k = pixelBit y

/-- `f` lights the bits `lit`, given as byte and bit, and leaves every other bit as it was. -/
def Draws (f : Memory → Memory) (lit : Nat → Nat → Prop) : Prop :=
  ∀ m : Memory, m.wf → (f m).wf ∧
    ∀ a k, k < 8 → (((f m).read a).getLsbD k = true ↔ (m.read a).getLsbD k = true ∨ lit a k)

theorem draws_id : Draws (fun m => m) (fun _ _ => False) :=
  fun _ h => ⟨h, fun _ _ _ => (or_iff_left not_false).symm⟩

theorem draws_setPixel (x y : Int) : Draws (setPixel x y) (PixelAt x y) :=
  fun m h => ⟨setPixel_wf h x y, fun a k hk => by
    rw [setPixel_getLsbD h x y a hk, Bool.or_eq_true, decide_eq_true_iff, PixelAt]⟩

section Draws

variable {f : Memory → Memory} {lit : Nat → Nat → Prop} (hf : Draws f lit)
include hf

theorem Draws.congr {lit' : Nat → Nat → Prop} (h : ∀ a k, lit a k ↔ lit' a k) : Draws f lit' := by
  intro m hm
  obtain ⟨hwf, hread⟩ := hf m hm
  exact ⟨hwf, fun a k hk => by rw [hread a k hk, h]⟩

theorem Draws.ite (c : Prop) [Decidable c] : Draws (fun m => if c then f m else m) (fun a k => c ∧ lit a k) := by
  by_cases hc : c
  · simpa only [hc, if_true, true_and] using hf
  · simpa only [hc, if_false, false_and] using draws_id

/-- The bits lit by one pass are lit by any other, so the second pass changes nothing. -/
theorem Draws.idem {m : Memory} (hm : m.wf) : f (f m) = f m := by
  obtain ⟨hwf, hread⟩ := hf m hm
  obtain ⟨hwf', hread'⟩ := hf (f m) hwf
  refine Memory.ext_getLsbD hwf' hwf fun a k hk => Bool.eq_iff_iff.2 ?_
  rw [hread' a k hk, hread a k hk, or_assoc, or_self]

/-- A byte none of whose bits is lit is left as it was. -/
theorem Draws.read_eq {m : Memory} (hm : m.wf) {a : Nat} (h : ∀ k, k < 8 → ¬ lit a k) : (f m).read a = m.read a :=
  BitVec.eq_of_getLsbD_eq fun k hk => Bool.eq_iff_iff.2 (by rw [(hf m hm).2 a k hk, or_iff_left (h k hk)])

/-- A byte whose lit bits are those of `b` has `b` ORed into it. -/
theorem Draws.read_eq_or {m : Memory} (hm : m.wf) {a : Nat} {b : Byte} (h : ∀ k, k < 8 → (lit a k ↔ b.getLsbD k = true)) :
    (f m).read a = m.read a ||| b :=
  BitVec.eq_of_getLsbD_eq fun k hk => Bool.eq_iff_iff.2 (by
    rw [(hf m hm).2 a k hk, h k hk, BitVec.getLsbD_or, Bool.or_eq_true])

end Draws

/-- A run of drawings lights what any of them lights. -/
theorem draws_foldl {α : Type} {f : Memory → α → Memory} {lit : α → Nat → Nat → Prop} (hf : ∀ i, Draws (f · i) (lit i))
    (l : List α) : Draws (fun m => l.foldl f m) (fun a k => ∃ i ∈ l, lit i a k) := by
  induction l with
  | nil => exact draws_id.congr fun a k => by simp
  | cons i l ih =>
    intro m hm
    obtain ⟨hwf, hread⟩ := hf i m hm
    obtain ⟨hwf', hread'⟩ := ih (f m i) hwf
    refine ⟨hwf', fun a k hk => ?_⟩
    simp only [List.exists_mem_cons_iff, ← or_assoc, ← hread a k hk]
    exact hread' a k hk

/-! ### Glyphs and characters (41_raster.md R113) -/

/-- The pixels of one column byte drawn at column `x`, from row `y` down. -/
def columnLit (col : Byte) (x y : Int) (a k : Nat) : Prop := ∃ j : Nat, col.getLsbD j = true ∧ PixelAt x (y + j) a k

/-- The pixels of glyph `n` drawn at (x, y). -/
def glyphLit (rom : Vector Byte Config.glyphBytes) (n : Fin Config.nGlyph) (x y : Int) (a k : Nat) : Prop :=
  ∃ i : Fin Config.glyphW, columnLit (grom rom n i) (x + i.val) y a k

/-- The pixels of the character `c` drawn at (x, y): none where it has no glyph. -/
def charLit (rom : Vector Byte Config.glyphBytes) (c : Byte) (x y : Int) (a k : Nat) : Prop :=
  ∃ n, glyphIndex c = some n ∧ glyphLit rom n x y a k

theorem mem_glyphRows {j : Nat} : j ∈ glyphRows ↔ j < 8 := by
  simp only [glyphRows, List.mem_cons, List.not_mem_nil, or_false]
  omega

theorem mem_glyphCols (i : Fin Config.glyphW) : i ∈ glyphCols := by
  revert i
  decide

theorem draws_drawColumn (col : Byte) (x y : Int) : Draws (drawColumn col x y) (columnLit col x y) := by
  refine (draws_foldl (fun j => (draws_setPixel x (y + (j : Nat))).ite (col.getLsbD j = true)) glyphRows).congr fun a k => ?_
  exact exists_congr fun j => ⟨fun ⟨_, h⟩ => h, fun h => ⟨mem_glyphRows.2 (BitVec.lt_of_getLsbD h.1), h⟩⟩

theorem draws_drawGlyph (rom : Vector Byte Config.glyphBytes) (n : Fin Config.nGlyph) (x y : Int) :
    Draws (drawGlyph rom n x y) (glyphLit rom n x y) := by
  refine (draws_foldl (fun i => draws_drawColumn (grom rom n i) (x + i.val) y) glyphCols).congr fun a k => ?_
  exact exists_congr fun i => and_iff_right (mem_glyphCols i)

theorem drawChar_of_some {c : Byte} {n : Fin Config.nGlyph} (h : glyphIndex c = some n) (rom : Vector Byte Config.glyphBytes)
    (x y : Int) : drawChar rom c x y = drawGlyph rom n x y := by
  funext m
  simp only [drawChar, h]

theorem drawChar_of_none {c : Byte} (h : glyphIndex c = none) (rom : Vector Byte Config.glyphBytes) (x y : Int)
    (m : Memory) : drawChar rom c x y m = m := by
  simp only [drawChar, h]

theorem draws_drawChar (rom : Vector Byte Config.glyphBytes) (c : Byte) (x y : Int) :
    Draws (drawChar rom c x y) (charLit rom c x y) := by
  cases h : glyphIndex c with
  | none =>
    have hid : drawChar rom c x y = fun m => m := funext (drawChar_of_none h rom x y)
    rw [hid]
    exact draws_id.congr fun a k => by simp [charLit, h]
  | some n =>
    rw [drawChar_of_some h]
    exact (draws_drawGlyph rom n x y).congr fun a k => by simp [charLit, h]

/-- DRAWCHAR's whole effect is on FB, and ends it with E_OK. -/
theorem exec_drawchar (c : Byte) (x y : Int) (s : State) :
    exec (.drawchar c x y) s = .next (finish .ok { s with fb := drawChar s.glyphRom c x y s.fb }) := rfl

theorem exec_setpix (x y : Int) (s : State) :
    exec (.setpix x y) s = .next (finish .ok { s with fb := setPixel x y s.fb }) := rfl

/-- Settles O28: a byte that is no letter has no glyph. -/
theorem unsupportedDrawsNothing : Obligations.UnsupportedDrawsNothing := by
  intro s c x y h
  rw [exec_drawchar, drawChar_of_none (glyphIndex_other h)]
  rfl

/-! ### The characters of a text (41_raster.md R118 to R122) -/

theorem charCount_nil (x : Int) : charCount [] x = 0 := by simp [charCount]

theorem charCount_zero (cs : List Byte) (x : Int) : charCount (0x00#8 :: cs) x = 0 := by simp [charCount]

/-- From column 122 on no character is processed (R119). -/
theorem charCount_of_le {x : Int} (h : 122 ≤ x) (cs : List Byte) : charCount cs x = 0 := by
  unfold charCount
  omega

theorem charCount_cons {c : Byte} {x : Int} (hc : c ≠ 0x00#8) (hx : x < 122) (cs : List Byte) :
    charCount (c :: cs) x = charCount cs (x + 6) + 1 := by
  rw [charCount, List.takeWhile_cons_of_pos (by simpa using hc), List.length_cons, charCount]
  omega

/-- A character that is processed starts at column 121 at most (R123). -/
theorem column_of_lt_charCount {cs : List Byte} {x : Int} {k : Nat} (h : k < charCount cs x) : x + 6 * (k : Int) ≤ 121 := by
  unfold charCount at h
  omega

/-- Settles O32, by induction on the text still to draw. -/
theorem drawtextCharacters : Obligations.DrawtextCharacters := by
  intro rom cs x y fb
  induction cs generalizing x fb with
  | nil => simp [drawText, charCount_nil]
  | cons c cs ih =>
    rw [drawText]
    by_cases hc : c = 0x00#8
    · subst hc
      simp [charCount_zero]
    by_cases hx : 122 ≤ x
    · simp [hc, truncLimit, hx, charCount_of_le hx]
    · have hcol : ∀ k : Nat, x + 6 + 6 * (k : Int) = x + 6 * ((k + 1 : Nat) : Int) := fun k => by omega
      rw [if_neg hc, truncLimit, if_neg hx, charPitch, ih, charCount_cons hc (by omega), List.range_succ_eq_map,
        List.foldl_cons, List.foldl_map]
      simp only [hcol, Nat.cast_zero, mul_zero, add_zero, List.getD_cons_zero, List.getD_cons_succ, Nat.succ_eq_add_one]

theorem draws_drawText (rom : Vector Byte Config.glyphBytes) (cs : List Byte) (x y : Int) :
    Draws (fun m => (drawText rom cs x y m).2)
      (fun a k => ∃ j ∈ List.range (charCount cs x), charLit rom (cs.getD j 0x00#8) (x + 6 * (j : Int)) y a k) := by
  simp only [drawtextCharacters rom cs x y]
  exact draws_foldl (fun j : Nat => draws_drawChar rom (cs.getD j 0x00#8) (x + 6 * (j : Int)) y) _

/-- The byte of a pixel is in FB, in the pixel's column. -/
theorem PixelAt.byte {x y : Int} {a k : Nat} (h : PixelAt x y a k) : a < 1024 ∧ ((a % 128 : Nat) : Int) = x := by
  obtain ⟨hon, rfl, -⟩ := h
  refine ⟨pixelAddr_lt hon, ?_⟩
  obtain ⟨hx, hx', -⟩ := hon
  simp only [pixelAddr, Config.width] at hx' ⊢
  omega

/-- A character lights bytes of FB only, in its five columns. -/
theorem charLit_byte {rom : Vector Byte Config.glyphBytes} {c : Byte} {x y : Int} {a k : Nat} (h : charLit rom c x y a k) :
    a < 1024 ∧ ((a % 128 : Nat) : Int) ≤ x + 4 := by
  obtain ⟨n, -, i, j, -, hpix⟩ := h
  obtain ⟨ha, hcol⟩ := hpix.byte
  have hi : i.val < 5 := i.isLt
  omega

/-- Settles O33: the last character processed starts at column 121 at most, so it ends at column 125. -/
theorem textNeverReachesRightEdge : Obligations.TextNeverReachesRightEdge := by
  intro rom cs x y fb hwf a ha
  refine (draws_drawText rom cs x y).read_eq hwf ?_
  rintro k - ⟨j, hj, hlit⟩
  have hcol := column_of_lt_charCount (List.mem_range.1 hj)
  obtain ⟨hlt, hle⟩ := charLit_byte hlit
  omega

/-! ### The closed form (41_raster.md R114) -/

/-- A column byte drawn from row `y` down puts its bit j into row y + j. -/
theorem columnInPage_getLsbD (col : Byte) (y : Int) (q : Nat) {k : Nat} (hk : k < 8) :
    (columnInPage col y q).getLsbD k = true ↔ ∃ j : Nat, col.getLsbD j = true ∧ ((8 * q + k : Nat) : Int) = y + j := by
  unfold columnInPage
  split
  next hq =>
    rw [BitVec.getLsbD_shiftLeft]
    simp only [hk, decide_true, Bool.true_and, Bool.and_eq_true, Bool.not_eq_true', decide_eq_false_iff_not]
    constructor
    · exact fun ⟨hge, hbit⟩ => ⟨_, hbit, by omega⟩
    · rintro ⟨j, hbit, hj⟩
      obtain rfl : j = k - (y % 8).toNat := by omega
      exact ⟨by omega, hbit⟩
  next hq =>
    split
    next hq' =>
      rw [BitVec.getLsbD_ushiftRight]
      constructor
      · exact fun hbit => ⟨_, hbit, by omega⟩
      · rintro ⟨j, hbit, hj⟩
        obtain rfl : j = (8 - y % 8).toNat + k := by omega
        exact hbit
    next hq' =>
      simp only [BitVec.getLsbD_zero, Bool.false_eq_true, false_iff, not_exists, not_and]
      intro j hbit
      have hj : j < 8 := BitVec.lt_of_getLsbD hbit
      omega

/-- A pixel of the display, by its column, its page and its row within the page. -/
theorem pixelAt_iff {x y : Int} {u q k : Nat} (hu : u < 128) (hq : q < 8) (hk : k < 8) :
    PixelAt x y (u + 128 * q) k ↔ (u : Int) = x ∧ ((8 * q + k : Nat) : Int) = y := by
  have haddr : u + 128 * q = pixelAddr u (8 * q + k : Nat) := by
    rw [pixelAddr_natCast]
    omega
  have hbit : k = pixelBit (8 * q + k : Nat) := by
    rw [pixelBit_natCast]
    omega
  rw [← packed_eq_iff hu (show 8 * q + k < 64 by omega), ← haddr, ← hbit, PixelAt]

/-- What a column byte lights in the byte of column `u` and page `q`. -/
theorem columnLit_iff (col : Byte) (x y : Int) {u q k : Nat} (hu : u < 128) (hq : q < 8) (hk : k < 8) :
    columnLit col x y (u + 128 * q) k ↔ (u : Int) = x ∧ (columnInPage col y q).getLsbD k = true := by
  simp only [columnLit, pixelAt_iff hu hq hk, columnInPage_getLsbD col y q hk, and_left_comm, exists_and_left]

/-- Settles O27: in each byte a glyph lights the bits of the one column byte that falls there, by `columnLit_iff`. -/
theorem drawcharClosedForm : Obligations.DrawcharClosedForm := by
  intro s c x y n hwf hn
  have hglyph := draws_drawGlyph s.glyphRom n x y
  rw [exec_drawchar, drawChar_of_some hn]
  refine ⟨_, rfl, rfl, fun u q hu hq => ⟨fun i hi => ?column, fun hout => ?beside⟩, fun a ha => ?beyond⟩
  case column =>
    refine hglyph.read_eq_or hwf fun k hk => ?_
    simp only [glyphLit, columnLit_iff _ _ _ hu hq hk]
    constructor
    · rintro ⟨i', hi', hbit⟩
      obtain rfl : i' = i := Fin.ext (by omega)
      exact hbit
    · exact fun hbit => ⟨i, hi, hbit⟩
  case beside =>
    refine hglyph.read_eq hwf fun k hk => ?_
    rintro ⟨i, hlit⟩
    obtain ⟨hu', -⟩ := (columnLit_iff _ _ _ hu hq hk).1 hlit
    have hi : i.val < 5 := i.isLt
    omega
  case beyond =>
    refine hglyph.read_eq hwf fun k hk hlit => ?_
    obtain ⟨hlt, -⟩ := charLit_byte ⟨n, hn, hlit⟩
    omega

/-! ### Drawing twice, and drawing behind a CLEAR (41_raster.md R116, 40_framebuffer.md R108) -/

section Redraw

/-- A command that draws with `f`, which may read the glyph table, and ends with E_OK. -/
def DrawsWith (d : Instr) (f : Vector Byte Config.glyphBytes → Memory → Memory) : Prop :=
  ∀ s : State, exec d s = .next (finish .ok { s with fb := f s.glyphRom s.fb })

variable {d : Instr} {f : Vector Byte Config.glyphBytes → Memory → Memory} (hd : DrawsWith d f)
include hd

theorem execAll_cons_of_drawsWith (is : List Instr) (s : State) :
    execAll (d :: is) s = execAll is (finish .ok { s with fb := f s.glyphRom s.fb }) := by
  simp only [execAll, hd s]

theorem execAll_twice {s : State} (h : f s.glyphRom (f s.glyphRom s.fb) = f s.glyphRom s.fb) :
    ∃ t, execAll [d, d] s = .next t ∧ exec d s = .next t := by
  refine ⟨_, ?_, hd s⟩
  rw [execAll_cons_of_drawsWith hd, execAll_cons_of_drawsWith hd, finish_fb, finish_glyphRom, h]
  rfl

theorem execAll_behind_clear (s : State) :
    ∃ t, execAll [.clear, d] s = .next t ∧ exec d { s with fb := [] } = .next t ∧ execAll [d, .clear, d] s = .next t := by
  have hclear : DrawsWith .clear fun _ _ => Memory.zero := fun _ => rfl
  refine ⟨_, ?_, hd _, ?_⟩
  · rw [execAll_cons_of_drawsWith hclear, execAll_cons_of_drawsWith hd]
    rfl
  · rw [execAll_cons_of_drawsWith hd, execAll_cons_of_drawsWith hclear, execAll_cons_of_drawsWith hd]
    rfl

end Redraw

/-- A run of steps keeps the invariant. -/
theorem inv_runSteps {n : Nat} {s t : State} (h : Inv s) (hrun : runSteps n s = .next t) : Inv t := by
  induction n generalizing s with
  | zero => cases hrun; exact h
  | succ n ih =>
    obtain ⟨u, hstep, hu⟩ := exists_step_of_runSteps_succ hrun
    exact ih (stepKeepsInvariant s u h hstep) hu

/-- Idle, the host may offer other beats, and FB may hold other bytes. -/
theorem inv_idle_setFb {s : State} (h : Inv s) (hidle : Idle s) {m : Memory} (hm : m.okFb) (o : List Beat) :
    Inv { s with fb := m, offered := o } := by
  have hset : Settled { s with fb := m } := settled_setFb (settled_of_idle h hidle) hm
  obtain ⟨-, -, -, htext, -⟩ := h
  obtain ⟨-, hb, hp⟩ := hidle
  exact inv_of_settled (s := { s with fb := m, offered := o }) hset hp ((textInv_of_expectCmd hp).1 htext) fun _ => hb

/-- Between two commands, no turn listed: the ODB takes the next beat offered. -/
structure AtCommand (rom : Vector Byte Config.glyphBytes) (offered : List Beat) (fb : Memory) (s : State) : Prop where
  inv : Inv s
  idle : Idle s
  turns : s.turns = []
  rom : s.glyphRom = rom
  offered : s.offered = offered
  fb : s.fb = fb

/-- Between two commands, CLEAR leaves an all-zero FB. -/
theorem runSteps_clear {rom : Vector Byte Config.glyphBytes} {os : List Beat} {m : Memory} {s : State}
    (h : AtCommand rom (0x0100000000000000#64 :: os) m s) : ∃ t, runSteps 1 s = .next t ∧ AtCommand rom os [] t := by
  have ⟨hr, _, _⟩ := h.idle
  have hstep := (step_of_idle_offered h.idle h.turns h.offered).trans (dispatchWord_of_instr (Laws.RoundTrip.clear rfl) _)
  have hrun := runSteps_succ_of_step hstep 0
  exact ⟨_, hrun, inv_runSteps h.inv hrun, ⟨hr, rfl, rfl⟩, h.turns, h.rom, rfl, rfl⟩

section Drawtext

variable {rom : Vector Byte Config.glyphBytes} {len : Nat} {x y : Int} {w : Beat} {beats ws : List Beat} {m : Memory} {s : State}
  (hwf : (Instr.drawtext len x y).wellFormed = true) (hw : encode (.drawtext len x y) = .beat w)
  (hlen : beats.length = (len + 7) / 8)
include hwf hw hlen

/-- Between two commands, a DRAWTEXT takes its beats and draws the text they carry. -/
theorem runSteps_drawtext (h : AtCommand rom (w :: (beats ++ ws)) m s) :
    ∃ t, runSteps (1 + beats.length) s = .next t ∧ AtCommand rom ws (drawText rom (textOf beats len) x y m).2 t := by
  obtain ⟨t, hrun, hdraw, -, ht⟩ := drawtextWholeOperation s len x y w beats ws h.inv h.idle h.turns hwf hw hlen h.offered
  have hfb : t.fb = (drawText rom (textOf beats len) x y m).2 := by
    rw [← h.rom, ← h.fb, ← hdraw]
  refine ⟨t, hrun, inv_runSteps h.inv hrun, ?idle, ?turns, ?rom, ?offered, hfb⟩
  case idle => rw [ht]; exact h.idle
  case turns => rw [ht]; exact h.turns
  case rom => rw [ht]; exact h.rom
  case offered => rw [ht]

/-- A DRAWTEXT behind a CLEAR draws on an all-zero FB. -/
theorem runSteps_clear_drawtext (h : AtCommand rom (0x0100000000000000#64 :: w :: (beats ++ ws)) m s) :
    ∃ t, runSteps (2 + beats.length) s = .next t ∧ AtCommand rom ws (drawText rom (textOf beats len) x y []).2 t := by
  obtain ⟨u, hclear, hu⟩ := runSteps_clear h
  obtain ⟨t, hdraw, ht⟩ := runSteps_drawtext hwf hw hlen hu
  refine ⟨t, ?_, ht⟩
  rw [show 2 + beats.length = 1 + (1 + beats.length) by omega, runSteps_add hclear, hdraw]

end Drawtext

/-- Settles O25: SETPIX and DRAWCHAR by `execAll_twice` and `execAll_behind_clear`, a whole DRAWTEXT by what FB is between two
commands. -/
theorem redrawLaws : Obligations.RedrawLaws := by
  refine ⟨fun s hfb => ⟨fun c x y hc => ⟨_, unsupportedDrawsNothing s c x y hc, rfl⟩, ?redraw⟩, ?drawtext⟩
  case redraw =>
    rintro d (⟨x, y, rfl⟩ | ⟨c, x, y, rfl⟩)
    · have hd : DrawsWith (.setpix x y) fun _ => setPixel x y := exec_setpix x y
      exact ⟨execAll_twice hd (setPixel_idem hfb x y), execAll_behind_clear hd s⟩
    · have hd : DrawsWith (.drawchar c x y) fun rom => drawChar rom c x y := exec_drawchar c x y
      exact ⟨execAll_twice hd ((draws_drawChar s.glyphRom c x y).idem hfb), execAll_behind_clear hd s⟩
  case drawtext =>
    intro s len x y w beats ws hinv hidle hturns hwf hw hlen
    have hat : ∀ {m : Memory}, m.okFb → ∀ os, AtCommand s.glyphRom os m { s with fb := m, offered := os } :=
      fun hm os => ⟨inv_idle_setFb hinv hidle hm os, hidle, hturns, rfl, rfl, rfl⟩
    have hfb := okFb_of_settled (settled_of_idle hinv hidle)
    obtain ⟨t, ht, htAt⟩ := runSteps_drawtext hwf hw hlen (hat ⟨Memory.wf_zero, Memory.within_zero _⟩ (w :: (beats ++ ws)))
    obtain ⟨u, hu, huAt⟩ := runSteps_clear_drawtext hwf hw hlen (hat hfb (_ :: w :: (beats ++ ws)))
    obtain ⟨v', hv', hvAt'⟩ := runSteps_drawtext hwf hw hlen (hat hfb (w :: (beats ++ _ :: w :: (beats ++ ws))))
    obtain ⟨v, hv, hvAt⟩ := runSteps_clear_drawtext hwf hw hlen hvAt'
    refine ⟨t, u, v, ht, hu, ?_, htAt.idle, huAt.idle, hvAt.idle, huAt.fb.trans htAt.fb.symm, hvAt.fb.trans htAt.fb.symm⟩
    rw [show 3 + 2 * beats.length = 1 + beats.length + (2 + beats.length) by omega]
    exact (runSteps_add hv' _).trans hv

end Sys2Proof.Machine
end

section
/-! SUPPORT. The transport's answers, the step the sequencer's counters select, and the transaction each of its steps issues. Then O8,
O35, O36, O37, O41, O42 and O43. -/

namespace Sys2Proof.Machine

/-! ### The step the counters select -/

theorem runStep_of_instr {sl : Slot} {b : Byte} {i : Instr} (h : decode sl (.byte b) = .instr i) (s : State) :
    runStep sl b s = exec i s := by
  simp [runStep, h]

/-- Settles O8, by which of the two operations runs. -/
theorem stepRunsSequencerStep : Obligations.StepRunsSequencerStep := by
  intro s i hr hb hp hx ht hsel
  rw [step_of_turns_nil ht, odbTurn_of_busy hr hp hb]
  rcases hsel with ⟨hc, hs, hd⟩ | ⟨hc, hd⟩
  · rw [continueOp_of_initializing hx hc hs, runStep_of_instr hd]
  · rw [continueOp_of_updating hx hc, runStep_of_instr hd]

/-! ### INIT, PRESENT and the steps they run -/

/-- Settles O35: a delay that is over at once is a delay of 0. -/
theorem initStarts : Obligations.InitStarts := by
  intro s
  have hlog : (if s.tStab = 0 then s.log ++ [.delay s.tStab] else s.log) = if s.tStab = 0 then s.log ++ [.delay 0] else s.log := by
    split
    · rw [‹s.tStab = 0›]
    · rfl
  calc exec .init s = .next (startDelay { s with cstate := .initializing }) := rfl
    _ = _ := by rw [← hlog]; rfl

/-- Settles O36: each row of the table is the step and the byte of its index, and a step issues its index's byte. -/
theorem iseqStepsIssueTheirBytes : Obligations.IseqStepsIssueTheirBytes := by
  intro e he s
  have hrow : iseqInstr e.2.1 = some e.1 ∧ iseqAt e.2.1 = e.2.2 := by
    revert e
    decide
  obtain ⟨hstep, hbyte⟩ := hrow
  rw [exec_iseqInstr hstep, hbyte]
  rfl

/-- The last step of a page that exists issues the page's bytes (42_sequencer.md R132). -/
theorem exec_pageData_of_lt {s : State} (h : s.seqP < 8) :
    exec .pageData s = .next (busIssue (.data (s.fb.readRange (128 * s.seqP) 128)) { s with seqPh := 3 }) := by
  rcases pageSlice_cases s.seqP s.fb with ⟨-, hs⟩ | ⟨hge, -⟩
  · simp only [exec, execPageData, hs]
  · omega

/-- Settles O37: the command bytes by evaluation, the data transaction by `exec_pageData_of_lt`. -/
theorem pageStepsIssueTheirTransactions : Obligations.PageStepsIssueTheirTransactions := by
  intro s p hp
  refine ⟨rfl, rfl, rfl, ?data⟩
  case data =>
    rintro rfl
    exact exec_pageData_of_lt hp

/-- Settles O41: outside READY the test of R135 fails, and E_STATE is raised. -/
theorem presentNeedsReady : Obligations.PresentNeedsReady := by
  intro s h
  calc exec .present s = .next (raise .state s) := if_neg h
    _ = _ := congrArg Host.Outcome.next (raise_eq (by decide) s)

/-! ### The transport's answers (42_sequencer.md R125, R133) -/

section Answer

variable {s : State} {us : List Turn} {t : Tx} {l : List LogEntry} (hx : s.txp = some t) (hl : s.log = l ++ [.tx t .pending])
include hx hl

/-- An Ok to the outstanding transaction: its entry becomes Ok, and the counters move on. -/
theorem step_of_answer_ok (ht : s.turns = .answer .ok :: us) :
    step s = .next (advance { s with turns := us, txp := none, log := l ++ [.tx t .ok] }) := by
  rw [step_of_turns_cons ht]
  simp only [runTurn, busAnswer, hx, hl, answerResult, settleLast_append]

/-- A Fail to the outstanding transaction: its entry becomes Fail, and E_TRANSPORT is raised. -/
theorem step_of_answer_fail (ht : s.turns = .answer .fail :: us) :
    step s = .next (raise .transport { s with turns := us, txp := none, log := l ++ [.tx t .fail] }) := by
  rw [step_of_turns_cons ht]
  simp only [runTurn, busAnswer, hx, hl, answerResult, settleLast_append]

end Answer

/-- Settles O42: `step_of_answer_fail`; E_TRANSPORT sets CSTATE to FAILED (60_exceptions.md R148). -/
theorem failEndsOperation : Obligations.FailEndsOperation :=
  fun _ _ _ _ ht hx hl => step_of_answer_fail hx hl ht

/-! ### The counters after an Ok (42_sequencer.md R130, R131) -/

theorem advance_init {s : State} (hc : s.cstate = .initializing) (hk : s.seqK < 27) :
    advance s = { s with seqK := s.seqK + 1 } := by
  simp [advance, hc, initLen, show s.seqK + 1 < 28 by omega]

theorem advance_init_last {s : State} (hc : s.cstate = .initializing) (hk : s.seqK = 27) :
    advance s = finish .ok { s with cstate := .ready } := by
  simp [advance, hc, initLen, hk]

theorem advance_phase {s : State} (hc : s.cstate = .updating) (hph : s.seqPh < 3) :
    advance s = { s with seqPh := s.seqPh + 1 } := by
  simp [advance, hc, hph]

theorem advance_page {s : State} (hc : s.cstate = .updating) (hph : s.seqPh = 3) (hp : s.seqP < 7) :
    advance s = { s with seqP := s.seqP + 1, seqPh := 0 } := by
  simp [advance, hc, hph, show s.seqP + 1 < 8 by omega]

theorem advance_page_last {s : State} (hc : s.cstate = .updating) (hph : s.seqPh = 3) (hp : s.seqP = 7) :
    advance s = finish .ok { s with cstate := .ready } := by
  simp [advance, hc, hph, hp]

/-- Settles O43: `step_of_answer_ok`, then the counters by the operation that runs and where they stand. -/
theorem okAdvancesSequencer : Obligations.OkAdvancesSequencer := by
  intro s us t l ht hx hl
  rw [step_of_answer_ok hx hl ht]
  refine ⟨?_, ?_, ?_, ?_, ?_⟩
  · exact fun hc hk => congrArg Host.Outcome.next (advance_init hc hk)
  · exact fun hc hk => congrArg Host.Outcome.next (advance_init_last hc hk)
  · exact fun hc hph => congrArg Host.Outcome.next (advance_phase hc hph)
  · exact fun hc hph hp => congrArg Host.Outcome.next (advance_page hc hph hp)
  · exact fun hc hph hp => congrArg Host.Outcome.next (advance_page_last hc hph hp)

end Sys2Proof.Machine
end

section
/-! SUPPORT. CSTATE, TXP and the log under every move: what issues a transaction, and what changes CSTATE. Then O45 and O51. -/

namespace Sys2Proof.Machine

/-! ### What neither issues nor touches the lifecycle -/

/-- CSTATE, TXP and the log are unchanged. -/
def SequencerKept (s t : State) : Prop := t.cstate = s.cstate ∧ t.txp = s.txp ∧ t.log = s.log

/-- Of the errors only E_TRANSPORT touches the lifecycle (60_exceptions.md R148). -/
theorem sequencerKept_raise {e : ErrCode} (he : e ≠ .transport) (s : State) : SequencerKept s (raise e s) := by
  rw [raise_eq he]
  exact ⟨rfl, rfl, rfl⟩

theorem sequencerKept_endText (s : State) : SequencerKept s (endText s) := by
  rcases endText_cases s with ⟨-, h⟩ | ⟨-, h⟩ <;> rw [h]
  · exact ⟨rfl, rfl, rfl⟩
  · exact sequencerKept_raise (by decide) { s with rsv := 0#16 }

theorem sequencerKept_beginText (len : Nat) (s : State) : SequencerKept s (beginText len s) := by
  rcases beginText_cases len s with ⟨-, h⟩ | ⟨-, h⟩ <;> rw [h]
  · exact sequencerKept_endText { s with txtlen := 0 }
  · exact ⟨rfl, rfl, rfl⟩

theorem sequencerKept_rejectReserved (w : Beat) (s : State) : SequencerKept s (rejectReserved w s) := by
  rcases rejectReserved_cases w s with ⟨-, h⟩ | ⟨-, h⟩ <;> rw [h]
  · exact sequencerKept_beginText (fieldA8 w).toNat { s with busy := true, rsv := fieldRsv w }
  · exact sequencerKept_raise (by decide) s

theorem sequencerKept_takeResponse (s : State) : SequencerKept s (takeResponse s) := by
  rw [takeResponse_eq]
  exact ⟨rfl, rfl, rfl⟩

/-- INIT, PRESENT and the steps they run. -/
def usesSequencer : Instr → Bool
  | .init => true
  | .present => true
  | i => seqStep i

theorem sequencerKept_exec {i : Instr} {s t : State} (hi : usesSequencer i = false) (h : exec i s = .next t) :
    SequencerKept s t := by
  cases i with
  | clear => cases h; exact ⟨rfl, rfl, rfl⟩
  | setpix x y => cases h; exact ⟨rfl, rfl, rfl⟩
  | drawchar c x y => cases h; exact ⟨rfl, rfl, rfl⟩
  | lookup c => cases h; exact ⟨rfl, rfl, rfl⟩
  | drawtext len x y => cases h; exact sequencerKept_beginText len (latchText len x y s)
  | pageslice p =>
    rcases pageSlice_cases p s.fb with ⟨-, hs⟩ | ⟨-, hs⟩ <;> simp only [exec, execPageslice, hs] at h <;> cases h
    · exact ⟨rfl, rfl, rfl⟩
    · exact sequencerKept_raise (by decide) s
  | textbeat w =>
    simp only [exec, execTextbeat] at h
    cases hp : s.port with
    | expectCmd => rw [hp] at h; cases h
    | expectText n =>
      rw [hp] at h
      dsimp only at h
      split at h <;> cases h
      · exact sequencerKept_endText { s with
          txtbuf := storeLanes (textBeats s.txtlen - n) w s.txtlen s.txtbuf
          port := .expectCmd }
      · exact ⟨rfl, rfl, rfl⟩
  | _ => cases hi

/-! ### The lifecycle's edges (42_sequencer.md R134) -/

theorem cstateEdge_refl (c : CState) : cstateEdge c c = true := by cases c <;> rfl

theorem cstateEdge_of_kept {s t : State} (h : SequencerKept s t) : cstateEdge s.cstate t.cstate = true := by
  obtain ⟨hc, -, -⟩ := h
  rw [hc]
  exact cstateEdge_refl s.cstate

/-- Neither INIT nor PRESENT running, an INIT may begin. -/
theorem cstateEdge_initializing {c : CState} (h : c.running = false) : cstateEdge c .initializing = true := by
  cases c with
  | initializing => cases h
  | updating => cases h
  | _ => rfl

/-- INIT and PRESENT end in READY or FAILED. -/
theorem cstateEdge_of_running {c : CState} (h : c.running = true) :
    cstateEdge c .ready = true ∧ cstateEdge c .failed = true := by
  cases c with
  | initializing => exact ⟨rfl, rfl⟩
  | updating => exact ⟨rfl, rfl⟩
  | _ => cases h

/-! ### INIT and PRESENT as commands -/

/-- What a command's execution does to the sequencer: it issues nothing, and CSTATE changes along an edge. -/
theorem exec_command_sequencer {o : Opcode} {w : Beat} {s t : State} (hc : s.cstate.running = false)
    (h : exec (buildCommand o w) s = .next t) : cstateEdge s.cstate t.cstate = true ∧ t.txp = s.txp := by
  have kept (hk : SequencerKept s t) : cstateEdge s.cstate t.cstate = true ∧ t.txp = s.txp := by
    have ⟨_, hx, _⟩ := hk
    exact ⟨cstateEdge_of_kept hk, hx⟩
  cases o with
  | init => cases h; exact ⟨cstateEdge_initializing hc, rfl⟩
  | present =>
    simp only [buildCommand, exec, execPresent] at h
    split at h <;> cases h
    · exact ⟨by rw [‹s.cstate = .ready›]; rfl, rfl⟩
    · exact kept (sequencerKept_raise (by decide) s)
  | _ => exact kept (sequencerKept_exec rfl h)

/-! ### Every move -/

/-- A move changes CSTATE along an edge, and issues only while INIT or PRESENT runs. -/
def SequencerMove (s t : State) : Prop :=
  cstateEdge s.cstate t.cstate = true ∧ (t.txp = none ∨ t.txp = s.txp ∨ s.cstate.running = true)

theorem sequencerMove_of_kept {s t : State} (h : SequencerKept s t) : SequencerMove s t := by
  have ⟨_, hx, _⟩ := h
  exact ⟨cstateEdge_of_kept h, .inr (.inl hx)⟩

theorem sequencerMove_odbMove {s t : State} (h : Inv s) (hmove : OdbMove s t) : SequencerMove s t := by
  cases hmove with
  | wait => exact sequencerMove_of_kept ⟨rfl, rfl, rfl⟩
  | command w ws o _ hr hb hp _ _ _ he =>
    obtain ⟨-, -, hc⟩ := quiet_of_idle h ⟨hr, hb, hp⟩
    obtain ⟨hedge, hx⟩ := exec_command_sequencer (s := accept w { s with offered := ws }) hc he
    exact ⟨hedge, .inr (.inl hx)⟩
  | illegal w ws => exact sequencerMove_of_kept (sequencerKept_raise (by decide) { s with offered := ws })
  | reserved w ws => exact sequencerMove_of_kept (sequencerKept_rejectReserved w { s with offered := ws })
  | text w ws n _ _ _ _ he => exact sequencerMove_of_kept (sequencerKept_exec (s := { s with offered := ws }) rfl he)
  | tick => exact ⟨cstateEdge_refl s.cstate, .inr (.inl rfl)⟩
  | initStep _ _ _ _ hc => exact ⟨cstateEdge_refl s.cstate, .inr (.inr (by rw [hc]; rfl))⟩
  | pageStep i _ _ _ _ _ hc hd he =>
    rw [pageStep_eq h hd he]
    exact ⟨cstateEdge_refl s.cstate, .inr (.inr (by rw [hc]; rfl))⟩
  | drained => exact sequencerMove_of_kept ⟨rfl, rfl, rfl⟩

/-- An Ok leaves CSTATE as it is, or ends the operation in READY. -/
theorem cstateEdge_advance {s : State} (hc : s.cstate.running = true) : cstateEdge s.cstate (advance s).cstate = true := by
  obtain ⟨hready, -⟩ := cstateEdge_of_running hc
  have hsame := cstateEdge_refl s.cstate
  rcases advance_cases s with ⟨-, -, h⟩ | ⟨-, -, h⟩ | ⟨-, -, h⟩ | ⟨-, -, -, h⟩ | ⟨-, -, -, h⟩ | ⟨-, h⟩ <;> rw [h]
  · exact hsame
  · exact hready
  · exact hsame
  · exact hsame
  · exact hready
  · exact hsame

/-- An answer comes only while INIT or PRESENT runs, or answers nothing. -/
theorem sequencerMove_busAnswer {s : State} (h : Inv s) (r : Answer) : SequencerMove s (busAnswer r s) := by
  have ⟨_, _, _, _, hrun, _, _⟩ := h
  rcases busAnswer_cases r s with ⟨-, he⟩ | ⟨x, hx, -, he⟩ | ⟨x, hx, -, he⟩ <;> rw [he]
  · exact sequencerMove_of_kept ⟨rfl, rfl, rfl⟩
  · obtain ⟨hc, -⟩ := running_of_txp hrun hx
    exact ⟨cstateEdge_advance (s := { s with txp := none, log := settleLast .ok s.log }) hc, .inr (.inr hc)⟩
  · obtain ⟨hc, -⟩ := running_of_txp hrun hx
    obtain ⟨-, hfailed⟩ := cstateEdge_of_running hc
    exact ⟨hfailed, .inl rfl⟩

/-- Every step but the assertion of reset, which leaves CSTATE at UNINIT and nothing outstanding. -/
theorem sequencerMove_step {s t : State} (h : Inv s) (hstep : step s = .next t) :
    SequencerMove s t ∨ (resetting s = true ∧ t.cstate = .uninit ∧ t.txp = none) := by
  rcases step_move hstep with ⟨-, hmove⟩ | ⟨u, us, hu, hmove⟩
  · exact .inl (sequencerMove_odbMove h hmove)
  · cases hmove with
    | odb _ hmove => exact .inl (sequencerMove_odbMove (s := { s with turns := us }) h hmove)
    | take => exact .inl (sequencerMove_of_kept (sequencerKept_takeResponse { s with turns := us }))
    | answer r => exact .inl (sequencerMove_busAnswer (s := { s with turns := us }) h r)
    | assertRst f x hr => exact .inr ⟨by simp [resetting, hu, show s.rst = false from hr], rfl, rfl⟩
    | _ => exact .inl (sequencerMove_of_kept ⟨rfl, rfl, rfl⟩)

theorem running_iff (c : CState) : c.running = true ↔ c = .initializing ∨ c = .updating := by
  cases c <;> decide

/-- Settles O45: of the instructions by `sequencerKept_exec`, of the steps by `sequencerMove_step`. -/
theorem onlyInitAndPresentIssue : Obligations.OnlyInitAndPresentIssue := by
  refine ⟨?instructions, ?steps⟩
  case instructions =>
    intro s t i hi he
    have huses : usesSequencer i = false := by
      rcases hi with rfl | ⟨x, y, rfl⟩ | ⟨p, rfl⟩ | ⟨c, rfl⟩ | ⟨c, x, y, rfl⟩ | ⟨n, x, y, rfl⟩ | ⟨w, rfl⟩ <;> rfl
    obtain ⟨-, hx, hl⟩ := sequencerKept_exec huses he
    exact ⟨hx, hl⟩
  case steps =>
    intro s t hinv hstep hsome hnew
    rcases sequencerMove_step hinv hstep with ⟨-, hnone | hkept | hrun⟩ | ⟨-, -, hnone⟩
    · exact absurd hnone hsome
    · exact absurd hkept hnew
    · exact (running_iff s.cstate).1 hrun
    · exact absurd hnone hsome

/-- Settles O51. -/
theorem lifecycleTransitions : Obligations.LifecycleTransitions := by
  intro s t hinv hstep
  rcases sequencerMove_step hinv hstep with ⟨hedge, -⟩ | ⟨hreset, hc, -⟩
  · exact .inl hedge
  · exact .inr ⟨hreset, hc⟩

end Sys2Proof.Machine
end

section
/-! SUPPORT. The run of a sequence of transactions, INIT's or PRESENT's, by the number of them answered Ok, and what begins it. Then O46,
O47, O48 and O49. -/

namespace Sys2Proof.Machine

/-! ### The sequence of transactions of the operation that runs -/

/-- INIT or PRESENT runs, with nothing outstanding and no delay left: its next turn issues (42_sequencer.md R130, R131). -/
def Issuing (s : State) : Prop :=
  s.rst = false ∧ s.busy = true ∧ s.port = .expectCmd ∧ s.txp = none ∧ s.stab = 0 ∧ s.cstate.running = true

/-- Transaction `n` of the operation that runs, counted from 0 (42_sequencer.md R130 to R132). -/
def txAt (s : State) (n : Nat) : Tx :=
  match s.cstate with
  | .initializing => .cmd (iseqAt n)
  | _ => pageTx (n / 4) (n % 4) s.fb

/-- The number of its transactions (42_sequencer.md R138). -/
def txCount : CState → Nat
  | .initializing => 28
  | _ => 32

/-- The entries of its first `n` transactions, each answered Ok. -/
def okLog (s : State) (n : Nat) : List LogEntry := (List.range n).map fun k => .tx (txAt s k) .ok

/-- The operation with its counters at transaction `n`, those before it answered Ok, and the given turns still to come. -/
def atTx (n : Nat) (us : List Turn) (s : State) : State :=
  { s with
    turns := us
    seqK := if s.cstate = .initializing then n else s.seqK
    seqP := if s.cstate = .initializing then s.seqP else n / 4
    seqPh := if s.cstate = .initializing then s.seqPh else n % 4
    log := s.log ++ okLog s n }

/-- The operation with transaction `n` just answered Ok, its counters still at it. -/
def answered (n : Nat) (us : List Turn) (s : State) : State := { atTx n us s with log := s.log ++ okLog s (n + 1) }

section Counters

variable {s : State} (n : Nat) (us : List Turn)

theorem atTx_seqK (hc : s.cstate = .initializing) : (atTx n us s).seqK = n := if_pos hc

theorem atTx_seqP (hc : s.cstate = .updating) : (atTx n us s).seqP = n / 4 := if_neg (by simp [hc])

theorem atTx_seqPh (hc : s.cstate = .updating) : (atTx n us s).seqPh = n % 4 := if_neg (by simp [hc])

end Counters

theorem okLog_succ (s : State) (n : Nat) : okLog s (n + 1) = okLog s n ++ [.tx (txAt s n) .ok] := by
  simp [okLog, List.range_succ]

/-- The entries of an INIT's first transactions (42_sequencer.md R138). -/
theorem okLog_init {s : State} (hc : s.cstate = .initializing) {n : Nat} (hn : n ≤ 28) : okLog s n = initLog.take n := by
  have hlog : initLog = (List.range 28).map fun k => .tx (.cmd (iseqAt k)) .ok := rfl
  simp only [okLog, txAt, hc, hlog, ← List.map_take, List.take_range, min_eq_left hn]

/-- The entries of a PRESENT's first transactions (42_sequencer.md R138). -/
theorem okLog_present {s : State} (hc : s.cstate = .updating) {n : Nat} (hn : n ≤ 32) :
    okLog s n = (presentLog s.fb).take n := by
  have hlog : presentLog s.fb = (List.range 32).map fun k => .tx (pageTx (k / 4) (k % 4) s.fb) .ok := rfl
  simp only [okLog, txAt, hc, hlog, ← List.map_take, List.take_range, min_eq_left hn]

section Sequence

variable {s : State} (hs : Issuing s) {n : Nat} (hn : n < txCount s.cstate)
include hs hn

/-- The ODB's turn issues the transaction its counters stand at. -/
theorem step_issue (us : List Turn) : step (atTx n (.odb :: us) s) = .next (busIssue (txAt s n) (atTx n us s)) := by
  obtain ⟨hr, hb, hp, hx, hstab, hrun⟩ := hs
  have hgo : step (atTx n (.odb :: us) s) = continueOp (atTx n us s) := by
    rw [step_of_turns_cons (s := atTx n (.odb :: us) s) rfl]
    exact odbTurn_of_busy (s := atTx n us s) hr hp hb
  rw [hgo]
  rcases (running_iff s.cstate).1 hrun with hc | hc
  · rw [continueOp_of_initializing (s := atTx n us s) hx hc hstab]
    rw [hc] at hn
    obtain ⟨i, hi⟩ := Option.isSome_iff_exists.1 (iseqInstr_isSome.2 hn)
    have hd : decode (.initSeq n) (.byte (iseqAt n)) = .instr i := decodeInit_iseqAt hi
    rw [atTx_seqK n us hc, runStep_of_instr hd, exec_iseqInstr hi]
    simp only [txAt, hc, atTx, if_true]
  · rw [continueOp_of_updating (s := atTx n us s) hx hc]
    have hsp := atTx_seqP n us hc
    have hph := atTx_seqPh n us hc
    rw [hc] at hn
    have hpage : n / 4 < Config.pages := by simp only [txCount, Config.pages] at hn ⊢; omega
    have hphase : n % 4 ≤ 3 := by omega
    obtain ⟨i, hd⟩ : ∃ i, decodePage (n % 4) (pageByte (n / 4) (n % 4)) = .instr i := ⟨_, decodePage_pageByte hpage hphase⟩
    rw [hsp, hph, runStep_of_instr (sl := .page (n % 4)) hd, exec_pageInstr hpage hphase hd _ hsp hph]
    simp only [txAt, hc]
    rfl

/-- Transaction `n` answered Ok: the counters move on from where they stand, the entry added. -/
theorem runSteps_ok (us : List Turn) :
    runSteps 2 (atTx n (.odb :: .answer .ok :: us) s) = .next (advance (answered n us s)) := by
  have ⟨_, _, _, hx, _, _⟩ := hs
  rw [runSteps_succ_of_step (step_issue hs hn (.answer .ok :: us)), runSteps_succ_of_step (step_of_answer_ok rfl rfl rfl)]
  simp only [busIssue, answered, atTx, okLog_succ, List.append_assoc, hx]
  rfl

/-- Transaction `n` answered Fail: its entry is added, and the operation ends. -/
theorem runSteps_fail (us : List Turn) :
    runSteps 2 (atTx n (.odb :: .answer .fail :: us) s) =
      .next (raise .transport { atTx n us s with log := s.log ++ okLog s n ++ [.tx (txAt s n) .fail] }) := by
  have ⟨_, _, _, hx, _, _⟩ := hs
  rw [runSteps_succ_of_step (step_issue hs hn (.answer .fail :: us)), runSteps_succ_of_step (step_of_answer_fail rfl rfl rfl)]
  simp only [busIssue, atTx, hx]
  rfl

end Sequence

/-! ### The counters and the number of transactions answered -/

/-- Before the last transaction an Ok moves the counters to the next one. -/
theorem advance_answered {s : State} (hrun : s.cstate.running = true) {n : Nat} (hn : n + 1 < txCount s.cstate) (us : List Turn) :
    advance (answered n us s) = atTx (n + 1) us s := by
  rcases (running_iff s.cstate).1 hrun with hc | hc <;> simp only [hc, txCount] at hn
  · have hk : (answered n us s).seqK = n := atTx_seqK n us hc
    rw [advance_init (s := answered n us s) hc (by omega)]
    simp [answered, atTx, hc]
  · have hsp : (answered n us s).seqP = n / 4 := atTx_seqP n us hc
    have hph : (answered n us s).seqPh = n % 4 := atTx_seqPh n us hc
    by_cases hlt : n % 4 < 3
    · have hdiv : (n + 1) / 4 = n / 4 := by omega
      have hmod : (n + 1) % 4 = n % 4 + 1 := by omega
      rw [advance_phase (s := answered n us s) hc (by omega)]
      simp [answered, atTx, hc, hdiv, hmod]
    · have hdiv : (n + 1) / 4 = n / 4 + 1 := by omega
      have hmod : (n + 1) % 4 = 0 := by omega
      rw [advance_page (s := answered n us s) hc (by omega) (by omega)]
      simp [answered, atTx, hc, hdiv, hmod]

/-- After the last transaction an Ok ends the operation in READY. -/
theorem advance_answered_last {s : State} (hrun : s.cstate.running = true) {n : Nat} (hn : n + 1 = txCount s.cstate)
    (us : List Turn) : advance (answered n us s) = finish .ok { answered n us s with cstate := .ready } := by
  rcases (running_iff s.cstate).1 hrun with hc | hc <;> simp only [hc, txCount] at hn
  · have hk : (answered n us s).seqK = n := atTx_seqK n us hc
    exact advance_init_last (s := answered n us s) hc (by omega)
  · have hsp : (answered n us s).seqP = n / 4 := atTx_seqP n us hc
    have hph : (answered n us s).seqPh = n % 4 := atTx_seqPh n us hc
    exact advance_page_last (s := answered n us s) hc (by omega) (by omega)

/-! ### Runs of transactions -/

theorem okTurns_succ (n : Nat) : okTurns (n + 1) = okTurns n ++ [.odb, .answer .ok] := by
  simp [okTurns, List.replicate_succ']

section Run

variable {s : State} (hs : Issuing s) {n : Nat}
include hs

/-- The first `n` transactions answered Ok, more to come. -/
theorem runSteps_oks (hn : n < txCount s.cstate) (us : List Turn) :
    runSteps (2 * n) (atTx 0 (okTurns n ++ us) s) = .next (atTx n us s) := by
  have ⟨_, _, _, _, _, hrun⟩ := hs
  induction n generalizing us with
  | zero => rfl
  | succ n ih =>
    have hlt : n < txCount s.cstate := Nat.lt_of_succ_lt hn
    rw [okTurns_succ, List.append_assoc, Nat.mul_succ, runSteps_add (ih hlt _)]
    exact (runSteps_ok hs hlt us).trans (congrArg Host.Outcome.next (advance_answered hrun hn us))

/-- Every transaction answered Ok. -/
theorem runSteps_all_ok (hn : n + 1 = txCount s.cstate) (us : List Turn) :
    runSteps (2 * (n + 1)) (atTx 0 (okTurns (n + 1) ++ us) s) =
      .next (finish .ok { answered n us s with cstate := .ready }) := by
  have ⟨_, _, _, _, _, hrun⟩ := hs
  have hlt : n < txCount s.cstate := hn ▸ Nat.lt_succ_self n
  rw [okTurns_succ, List.append_assoc, Nat.mul_succ, runSteps_add (runSteps_oks hs hlt _)]
  exact (runSteps_ok hs hlt us).trans (congrArg Host.Outcome.next (advance_answered_last hrun hn us))

/-- The first `n` transactions answered Ok, and the next one Fail. -/
theorem runSteps_oks_fail (hn : n < txCount s.cstate) (us : List Turn) :
    runSteps (2 * n + 2) (atTx 0 (okTurns n ++ .odb :: .answer .fail :: us) s) =
      .next (raise .transport { atTx n us s with log := s.log ++ okLog s n ++ [.tx (txAt s n) .fail] }) := by
  rw [runSteps_add (runSteps_oks hs hn _)]
  exact runSteps_fail hs hn us

end Run

/-! ### INIT up to its first transaction -/

/-- INIT with its delay over: CSTATE, the delay's entry, and the word that was taken. -/
def initBegun (ws : List Beat) (s : State) : State :=
  { s with
    offered := ws, busy := true, opl := wordLatch 0x1000000000000000#64, cstate := .initializing, stab := 0
    log := s.log ++ [.delay s.tStab] }

/-- While the delay counts, one unit of it passes in the ODB's turn (log 9). -/
theorem step_delay {s : State} {us : List Turn} (hr : s.rst = false) (hb : s.busy = true) (hp : s.port = .expectCmd)
    (hx : s.txp = none) (hc : s.cstate = .initializing) (hs : s.stab ≠ 0) (ht : s.turns = .odb :: us) :
    step s = .next (delayTick { s with turns := us }) := by
  rw [step_of_turns_cons ht]
  refine (odbTurn_of_busy (s := { s with turns := us }) hr hp hb).trans ?_
  simp only [continueOp, hx, hc, hs, if_false]

/-- What is left of the delay passes, and is logged with its last unit (42_sequencer.md R129). -/
theorem runSteps_delay (n : Nat) {s : State} {us : List Turn} (hr : s.rst = false) (hb : s.busy = true) (hp : s.port = .expectCmd)
    (hx : s.txp = none) (hc : s.cstate = .initializing) (hs : s.stab = n + 1)
    (ht : s.turns = List.replicate (n + 1) .odb ++ us) :
    runSteps (n + 1) s = .next { s with turns := us, stab := 0, seqK := 0, log := s.log ++ [.delay s.tStab] } := by
  induction n generalizing s with
  | zero =>
    rw [runSteps_succ_of_step (step_delay hr hb hp hx hc (by omega) ht)]
    simp only [delayTick, hs]
    rfl
  | succ n ih =>
    have hstab : s.stab - 1 = n + 1 := by omega
    have hrest := ih (s := delayTick { s with turns := List.replicate (n + 1) .odb ++ us }) hr hb hp hx hc hstab rfl
    rw [runSteps_succ_of_step (step_delay hr hb hp hx hc (by omega) ht)]
    exact hrest.trans (by simp [delayTick, hs])

/-- The whole delay passes and is logged; a delay of 0 is over at once. -/
theorem runSteps_startDelay {s : State} {us : List Turn} (hr : s.rst = false) (hb : s.busy = true) (hp : s.port = .expectCmd)
    (hx : s.txp = none) (hc : s.cstate = .initializing) (ht : s.turns = List.replicate s.tStab .odb ++ us) :
    runSteps s.tStab (startDelay s) = .next { s with turns := us, stab := 0, seqK := 0, log := s.log ++ [.delay s.tStab] } := by
  cases hd : s.tStab with
  | zero =>
    rw [hd] at ht
    cases s
    cases hd
    cases ht
    rfl
  | succ n =>
    rw [hd] at ht
    exact (runSteps_delay n (s := startDelay s) hr hb hp hx hc hd ht).trans (by simp [startDelay, hd])

/-- INIT is taken, and its delay passes. -/
theorem runSteps_init_start {s : State} {ws : List Beat} {us : List Turn} (hidle : Idle s) (hx : s.txp = none)
    (ho : s.offered = 0x1000000000000000#64 :: ws) (ht : s.turns = startTurns s.tStab ++ us) :
    runSteps (1 + s.tStab) s = .next (atTx 0 us (initBegun ws s)) := by
  have ⟨hr, _, hp⟩ := hidle
  rw [startTurns, Nat.add_comm, List.replicate_succ, List.cons_append] at ht
  rw [Nat.add_comm, runSteps_succ_of_step (step_of_odb_command hidle ht ho (i := .init) rfl)]
  exact (runSteps_startDelay (s := { accept 0x1000000000000000#64 { s with
    offered := ws, turns := List.replicate s.tStab .odb ++ us } with cstate := .initializing }) hr rfl hp hx rfl rfl).trans
    (by simp [accept, atTx, initBegun, okLog])

/-! ### PRESENT up to its first transaction -/

/-- PRESENT begun in READY: CSTATE, and the word that was taken. -/
def presentBegun (ws : List Beat) (s : State) : State :=
  { s with offered := ws, busy := true, opl := wordLatch 0x1100000000000000#64, cstate := .updating }

/-- PRESENT is taken. -/
theorem step_present_start {s : State} {ws : List Beat} {us : List Turn} (hidle : Idle s) (hc : s.cstate = .ready)
    (ho : s.offered = 0x1100000000000000#64 :: ws) (ht : s.turns = .odb :: us) :
    step s = .next (atTx 0 us (presentBegun ws s)) := by
  have hstart := presentStarts (accept 0x1100000000000000#64 { s with offered := ws, turns := us }) hc
  exact (step_of_odb_command hidle ht ho (i := .present) rfl).trans (hstart.trans (by simp [accept, atTx, presentBegun, okLog]))

/-! ### The whole operations -/

section Idle

variable {s : State} (hinv : Inv s) (hidle : Idle s)
include hinv hidle

theorem issuing_initBegun (ws : List Beat) : Issuing (initBegun ws s) := by
  obtain ⟨-, -, -, hx, -⟩ := settled_of_idle hinv hidle
  obtain ⟨hr, -, hp⟩ := hidle
  exact ⟨hr, rfl, hp, hx, rfl, rfl⟩

theorem issuing_presentBegun (ws : List Beat) : Issuing (presentBegun ws s) := by
  obtain ⟨-, -, -, hx, -, hstab, -⟩ := settled_of_idle hinv hidle
  obtain ⟨hr, -, hp⟩ := hidle
  exact ⟨hr, rfl, hp, hx, hstab, rfl⟩

end Idle

/-- Settles O46: INIT's start, then its 28 transactions, each answered Ok. -/
theorem initWholeOperation : Obligations.InitWholeOperation := by
  intro s ws us hinv hidle ho ht
  obtain ⟨-, -, -, hx, -, hstab, -⟩ := settled_of_idle hinv hidle
  have ⟨_, hb, hp⟩ := hidle
  rw [List.append_assoc] at ht
  rw [runSteps_add (runSteps_init_start hidle hx ho ht)]
  refine (runSteps_all_ok (issuing_initBegun hinv hidle ws) (n := 27) rfl us).trans ?_
  simp only [finish, answered, atTx, initBegun, hb, hp, hstab]
  rfl

/-- Settles O47: INIT's start, `j` transactions answered Ok, and the next one Fail. -/
theorem initFailsAtTransaction : Obligations.InitFailsAtTransaction := by
  intro s j ws us hinv hidle hj ho ht
  obtain ⟨-, -, -, hx, -⟩ := settled_of_idle hinv hidle
  have ⟨hr, _, _⟩ := hidle
  rw [List.append_assoc, List.append_assoc] at ht
  have hrun := (runSteps_add (runSteps_init_start hidle hx ho ht) _).trans
    (runSteps_oks_fail (issuing_initBegun hinv hidle ws) hj us)
  refine ⟨_, hrun, ⟨hr, rfl, rfl⟩, rfl, rfl, rfl, rfl, rfl, hx, ?log⟩
  case log =>
    have hlog : okLog (initBegun ws s) j = initLog.take j := okLog_init rfl hj.le
    rw [← hlog]
    rfl

/-- Settles O48: PRESENT's start, then its 32 transactions, each answered Ok. -/
theorem presentWholeOperation : Obligations.PresentWholeOperation := by
  intro s ws us hinv hidle hc ho ht
  have ⟨_, hb, hp⟩ := hidle
  rw [List.append_assoc] at ht
  rw [runSteps_succ_of_step (step_present_start hidle hc ho ht)]
  refine (runSteps_all_ok (issuing_presentBegun hinv hidle ws) (n := 31) rfl us).trans ?_
  simp only [finish, answered, atTx, presentBegun, hb, hp, hc]
  rfl

/-- Settles O49: PRESENT's start, `j` transactions answered Ok, and the next one Fail. -/
theorem presentFailsAtTransaction : Obligations.PresentFailsAtTransaction := by
  intro s j ws us hinv hidle hc hj ho ht
  obtain ⟨-, -, -, hx, -⟩ := settled_of_idle hinv hidle
  have ⟨hr, _, _⟩ := hidle
  rw [List.append_assoc, List.append_assoc] at ht
  have hrun := (runSteps_succ_of_step (step_present_start hidle hc ho ht) _).trans
    (runSteps_oks_fail (issuing_presentBegun hinv hidle ws) hj us)
  rw [show 1 + 2 * j + 2 = 2 * j + 2 + 1 by omega]
  refine ⟨_, hrun, ⟨hr, rfl, rfl⟩, rfl, rfl, rfl, rfl, rfl, hx, ?log⟩
  case log =>
    have hlog : okLog (presentBegun ws s) j = (presentLog s.fb).take j := okLog_present rfl hj.le
    rw [← hlog]
    rfl

end Sys2Proof.Machine
end

section
/-! SUPPORT. PAGESLICE of a page the display lacks; the ODB's waits; that every move of every agent answers a next state, by the
reasoning rules of the operations, with the invariant where it names what selects them. Then O22, O44 and O59. -/

namespace Sys2Proof.Machine

/-! ### E_PAGE (60_exceptions.md R144) -/

/-- PAGESLICE of a page the display lacks raises E_PAGE (40_framebuffer.md R104). -/
theorem exec_pageslice_of_le {p : Nat} (h : 8 ≤ p) (s : State) : exec (.pageslice p) s = .next (raise .page s) := by
  rcases pageSlice_cases p s.fb with ⟨hlt, -⟩ | ⟨-, hs⟩
  · omega
  · simp only [exec, execPageslice, hs]

/-- Settles O22: E_PAGE ends the operation and changes nothing else. -/
theorem pagesliceOutsideEnds : Obligations.PagesliceOutsideEnds := by
  intro s p hp
  rw [exec_pageslice_of_le hp, raise_eq (by decide)]

/-! ### The waits (60_exceptions.md R158) -/

/-- While reset is asserted the ODB makes no move (70_reset_and_hazards.md R160). -/
theorem odbTurn_of_rst {s : State} (hr : s.rst = true) : odbTurn s = .next s := by
  simp only [odbTurn, hr, if_true]

/-- In EXPECT_TEXT the ODB takes a text beat, or waits for one. -/
theorem odbTurn_of_expectText {s : State} {n : Nat} (hr : s.rst = false) (hp : s.port = .expectText n) :
    odbTurn s = takeText s := by
  simp [odbTurn, hr, hp]

/-- In EXPECT_CMD and idle the ODB takes a command word, or waits for one. -/
theorem odbTurn_of_idle {s : State} (hidle : Idle s) : odbTurn s = takeCommand s := by
  obtain ⟨hr, hb, hp⟩ := hidle
  simp [odbTurn, hr, hb, hp]

theorem takeText_of_nil {s : State} (ho : s.offered = []) : takeText s = .next s := by
  simp only [takeText, ho]

theorem takeCommand_of_nil {s : State} (ho : s.offered = []) : takeCommand s = .next s := by
  simp only [takeCommand, ho]

/-- While a transaction is outstanding the operation waits for the transport (42_sequencer.md R126). -/
theorem continueOp_of_txp {s : State} {x : Tx} (hx : s.txp = some x) : continueOp s = .next s := by
  simp only [continueOp, hx]

/-- While response bytes are left PAGESLICE and LOOKUP wait for the host (30_encoding.md R90). -/
theorem continueOp_of_responding {s : State} (hx : s.txp = none) (hc : s.cstate.running = false) (hq : s.rspq ≠ []) :
    continueOp s = .next s := by
  unfold continueOp
  rw [hx, if_neg hq]
  cases h : s.cstate with
  | initializing => simp [h, CState.running] at hc
  | updating => simp [h, CState.running] at hc
  | _ => rfl

/-- Settles O44: the invariant gives what the ODB's move looks at before it comes to each of the three waits. -/
theorem odbWaits : Obligations.OdbWaits := by
  intro s hinv ht
  have ⟨_, _, _, htext, hrun, _, hrst⟩ := hinv
  rw [step_of_turns_nil ht]
  refine ⟨fun hx => ?answer, fun n hp ho => ?text, fun hq => ?response⟩
  case answer =>
    obtain ⟨x, hx⟩ := Option.ne_none_iff_exists'.1 hx
    obtain ⟨hc, -⟩ := running_of_txp hrun hx
    obtain ⟨hb, hp, -⟩ := busy_of_running hrun hc
    rw [odbTurn_of_busy (rst_of_busy hrst hb) hp hb, continueOp_of_txp hx]
  case text =>
    obtain ⟨hb, -⟩ := (textInv_of_expectText hp).1 htext
    rw [odbTurn_of_expectText (rst_of_busy hrst hb) hp, takeText_of_nil ho]
  case response =>
    obtain ⟨hb, hp, hc⟩ := responding_of_rspq hinv hq
    obtain ⟨hx, -⟩ := (runInv_of_not_running hc).1 hrun
    rw [odbTurn_of_busy (rst_of_busy hrst hb) hp hb, continueOp_of_responding hx hc hq]

/-! ### What the ODB's move comes to, with what it needs for a next state -/

/-- Every command that a word can name answers, in every state: its errors are next states (60_exceptions.md R148). -/
theorem exec_command_answers (o : Opcode) (w : Beat) (s : State) : ∃ t, exec (buildCommand o w) s = .next t := by
  cases o with
  | pageslice =>
    rcases Nat.lt_or_ge (fieldA8 w).toNat 8 with hp | hp
    · exact ⟨_, exec_pageslice_of_lt hp s⟩
    · exact ⟨_, exec_pageslice_of_le hp s⟩
  | present =>
    by_cases hc : s.cstate = .ready
    · exact ⟨_, presentStarts s hc⟩
    · exact ⟨_, presentNeedsReady s hc⟩
  | _ => exact ⟨_, rfl⟩

/-- Every word dispatched is executed, or rejected with an error (30_encoding.md R87). -/
theorem dispatchWord_answers (w : Beat) (s : State) : ∃ t, dispatchWord w s = .next t := by
  cases hd : decodeCommand w with
  | instr i =>
    obtain ⟨o, -, -, rfl⟩ := decodeCommand_instr hd
    rw [dispatchWord_of_instr hd]
    exact exec_command_answers o w (accept w s)
  | reject r =>
    rcases decodeCommand_reject hd with ⟨rfl, -⟩ | ⟨rfl, -⟩
    · exact ⟨_, dispatchWord_of_illegal hd s⟩
    · exact ⟨_, dispatchWord_of_reserved hd s⟩

theorem takeCommand_answers (s : State) : ∃ t, takeCommand s = .next t := by
  cases ho : s.offered with
  | nil => exact ⟨s, takeCommand_of_nil ho⟩
  | cons w ws =>
    simp only [takeCommand, ho]
    exact dispatchWord_answers w { s with offered := ws }

/-- While text beats are missing, a text beat has its meaning (30_encoding.md R84). -/
theorem exec_textbeat_answers {s : State} {n : Nat} (w : Beat) (hp : s.port = .expectText n) (hn : 1 ≤ n) :
    ∃ t, exec (.textbeat w) s = .next t := by
  rcases hn.eq_or_lt with rfl | hlt
  · exact ⟨_, exec_textbeat_last w hp⟩
  · exact ⟨_, exec_textbeat_of_two_le w hp hlt⟩

theorem takeText_answers {s : State} {n : Nat} (hp : s.port = .expectText n) (hn : 1 ≤ n) : ∃ t, takeText s = .next t := by
  cases ho : s.offered with
  | nil => exact ⟨s, takeText_of_nil ho⟩
  | cons w ws =>
    simp only [takeText, ho, decode]
    exact exec_textbeat_answers (s := { s with offered := ws }) w hp hn

/-- INIT's step exists while SEQ_K is an index of ISEQ (42_sequencer.md R130). -/
theorem runStep_initSeq_answers {k : Nat} (hk : k < initLen) (s : State) :
    ∃ t, runStep (.initSeq k) (iseqAt k) s = .next t := by
  obtain ⟨i, hi⟩ := Option.isSome_iff_exists.1 (iseqInstr_isSome.2 hk)
  rw [runStep_of_instr (sl := .initSeq k) (decodeInit_iseqAt hi)]
  exact ⟨_, exec_iseqInstr hi s⟩

/-- PRESENT's step exists while SEQ_P is a page and SEQ_PH a step of one (42_sequencer.md R131). -/
theorem runStep_page_answers {s : State} (hp : s.seqP < Config.pages) (hph : s.seqPh ≤ 3) :
    ∃ t, runStep (.page s.seqPh) (pageByte s.seqP s.seqPh) s = .next t := by
  have hd := decodePage_pageByte hp hph
  rw [runStep_of_instr (sl := .page s.seqPh) hd]
  exact ⟨_, exec_pageInstr hp hph hd s rfl rfl⟩

/-- INIT and PRESENT go on wherever their counters select a step. -/
theorem continueOp_answers {s : State} (h : CountersOk s) : ∃ t, continueOp s = .next t := by
  obtain ⟨hk, hp, hph⟩ := h
  have response (hx : s.txp = none) (hc : s.cstate.running = false) : ∃ t, continueOp s = .next t := by
    by_cases hq : s.rspq = []
    · exact ⟨_, continueOp_of_drained hx hc hq⟩
    · exact ⟨s, continueOp_of_responding hx hc hq⟩
  cases hx : s.txp with
  | some x => exact ⟨s, continueOp_of_txp hx⟩
  | none =>
    cases hc : s.cstate with
    | initializing =>
      by_cases hs : s.stab = 0
      · rw [continueOp_of_initializing hx hc hs]
        exact runStep_initSeq_answers hk s
      · exact ⟨delayTick s, by simp only [continueOp, hx, hc, if_neg hs]⟩
    | updating =>
      rw [continueOp_of_updating hx hc]
      exact runStep_page_answers hp hph
    | _ => exact response hx (by rw [hc]; rfl)

/-- Within the invariant the ODB's move answers, wherever PORT and BUSY lead it. -/
theorem odbTurn_answers {s : State} (h : Inv s) : ∃ t, odbTurn s = .next t := by
  obtain ⟨-, ⟨hk, hsp, hph, -⟩, -, htext, -⟩ := h
  cases hr : s.rst with
  | true => exact ⟨s, odbTurn_of_rst hr⟩
  | false =>
    cases hp : s.port with
    | expectText n =>
      obtain ⟨-, hn, -⟩ := (textInv_of_expectText hp).1 htext
      rw [odbTurn_of_expectText hr hp]
      exact takeText_answers hp hn
    | expectCmd =>
      cases hb : s.busy with
      | true =>
        rw [odbTurn_of_busy hr hp hb]
        exact continueOp_answers ⟨hk, hsp, hph⟩
      | false =>
        rw [odbTurn_of_idle ⟨hr, hb, hp⟩]
        exact takeCommand_answers s

/-- Settles O59: the other agents' moves always answer, and the ODB's does within the invariant, which names no turns. -/
theorem machineNeverStops : Obligations.MachineNeverStops := by
  intro s hinv
  cases ht : s.turns with
  | nil =>
    rw [step_of_turns_nil ht]
    exact odbTurn_answers hinv
  | cons u us =>
    rw [step_of_turns_cons ht]
    cases u with
    | odb => exact odbTurn_answers (s := { s with turns := us }) hinv
    | _ => exact ⟨_, rfl⟩

end Sys2Proof.Machine
end

section
/-! SUPPORT. What every move but the assertion of reset leaves of CSTATE; the step that asserts reset, the step that releases it, and
the state they leave. Then O52, O53, O55 and O57. -/

namespace Sys2Proof.Machine

/-! ### What never sets CSTATE to UNINIT (70_reset_and_hazards.md R161) -/

/-- From `s` to `t` CSTATE is not set to UNINIT. -/
def NotUninitialized (s t : State) : Prop := t.cstate = .uninit → s.cstate = .uninit

theorem notUninitialized_of_eq {s t : State} (h : t.cstate = s.cstate) : NotUninitialized s t := fun ht => h.symm.trans ht

theorem notUninitialized_of_kept {s t : State} (h : SequencerKept s t) : NotUninitialized s t := by
  obtain ⟨hc, -, -⟩ := h
  exact notUninitialized_of_eq hc

theorem notUninitialized_of_ne {s t : State} (h : t.cstate ≠ .uninit) : NotUninitialized s t := fun ht => absurd ht h

/-- INIT and a PRESENT in READY set CSTATE to another value; every other instruction leaves it. -/
theorem notUninitialized_exec {i : Instr} {s t : State} (h : exec i s = .next t) : NotUninitialized s t := by
  cases i with
  | init => cases h; exact notUninitialized_of_ne nofun
  | present =>
    simp only [exec, execPresent] at h
    split at h <;> cases h
    · exact notUninitialized_of_ne nofun
    · exact notUninitialized_of_kept (sequencerKept_raise (by decide) s)
  | pageData =>
    rcases pageSlice_cases s.seqP s.fb with ⟨-, hs⟩ | ⟨-, hs⟩ <;> simp only [exec, execPageData, hs] at h <;> cases h
    exact notUninitialized_of_eq rfl
  | pageslice | drawtext | textbeat => exact notUninitialized_of_kept (sequencerKept_exec rfl h)
  | _ => cases h; exact notUninitialized_of_eq rfl

theorem notUninitialized_odbMove {s t : State} (h : OdbMove s t) : NotUninitialized s t := by
  cases h with
  | command w ws _ _ _ _ _ _ _ _ he => exact notUninitialized_exec (s := accept w { s with offered := ws }) he
  | illegal w ws => exact notUninitialized_of_kept (sequencerKept_raise (by decide) { s with offered := ws })
  | reserved w ws => exact notUninitialized_of_kept (sequencerKept_rejectReserved w { s with offered := ws })
  | text w ws _ _ _ _ _ he => exact notUninitialized_exec (s := { s with offered := ws }) he
  | pageStep _ _ _ _ _ _ _ _ he => exact notUninitialized_exec he
  | wait | tick | initStep | drained => exact notUninitialized_of_eq rfl

/-- An Ok leaves CSTATE or sets it to READY (42_sequencer.md R130, R131). -/
theorem notUninitialized_advance (s : State) : NotUninitialized s (advance s) := by
  rcases advance_cases s with ⟨-, -, h⟩ | ⟨-, -, h⟩ | ⟨-, -, h⟩ | ⟨-, -, -, h⟩ | ⟨-, -, -, h⟩ | ⟨-, h⟩ <;> rw [h]
  · exact notUninitialized_of_eq rfl
  · exact notUninitialized_of_ne nofun
  · exact notUninitialized_of_eq rfl
  · exact notUninitialized_of_eq rfl
  · exact notUninitialized_of_ne nofun
  · exact notUninitialized_of_eq rfl

/-- A Fail sets CSTATE to FAILED (60_exceptions.md R148). -/
theorem notUninitialized_busAnswer (r : Answer) (s : State) : NotUninitialized s (busAnswer r s) := by
  rcases busAnswer_cases r s with ⟨-, h⟩ | ⟨t, -, -, h⟩ | ⟨t, -, -, h⟩ <;> rw [h]
  · exact notUninitialized_of_eq rfl
  · exact notUninitialized_advance { s with txp := none, log := settleLast .ok s.log }
  · exact notUninitialized_of_ne nofun

/-- Settles O52: of the agents' moves only the assertion of reset sets CSTATE to UNINIT. -/
theorem onlyResetUninitializes : Obligations.OnlyResetUninitializes := by
  intro s t hstep ht
  rcases step_move hstep with ⟨-, hmove⟩ | ⟨u, us, hu, hmove⟩
  · exact .inl (notUninitialized_odbMove hmove ht)
  · cases hmove with
    | odb _ hmove => exact .inl (notUninitialized_odbMove (s := { s with turns := us }) hmove ht)
    | take => exact .inl (notUninitialized_of_kept (sequencerKept_takeResponse { s with turns := us }) ht)
    | answer r => exact .inl (notUninitialized_busAnswer r { s with turns := us } ht)
    | assertRst f x hr => exact .inr (by simp [resetting, hu, show s.rst = false from hr])
    | offer | withdraw | lateAnswer | stillRst | releaseRst => exact .inl ht

/-! ### A reset asserted and released (70_reset_and_hazards.md R160, R162) -/

/-- The state a reset leaves when it is released. -/
def released (f x : List Host.Cell) (us : List Turn) (s : State) : State := { applyReset f x s with turns := us, rst := false }

section Reset
variable {s : State} {f x : List Host.Cell} {us : List Turn}

theorem step_of_assertRst (hr : s.rst = false) (ht : s.turns = .assertRst f x :: us) :
    step s = .next (applyReset f x { s with turns := us }) := by
  rw [step_of_turns_cons ht]
  simp only [runTurn, hr, Bool.false_eq_true, if_false]

theorem step_applyReset_release : step (applyReset f x { s with turns := .releaseRst :: us }) = .next (released f x us s) := by
  rw [step_of_turns_cons (applyReset_turns f x _)]
  rfl

theorem runSteps_assert_release (hr : s.rst = false) (ht : s.turns = .assertRst f x :: .releaseRst :: us) :
    runSteps 2 s = .next (released f x us s) := by
  rw [runSteps_succ_of_step (step_of_assertRst hr ht), runSteps_succ_of_step step_applyReset_release]
  rfl

end Reset

/-- While reset is asserted the three ports' outputs are 0. -/
theorem outputs_of_rst {s : State} (h : s.rst = true) : cmdReady s = false ∧ rspValid s = false ∧ txValid s = false := by
  simp [cmdReady, rspValid, txValid, h]

/-- Settles O53: each element by the law of `applyReset` for its field. -/
theorem resetValues : Obligations.ResetValues := by
  refine ⟨fun s => outputs_of_rst, fun s f x us hr ht => ?_⟩
  refine ⟨_, step_of_assertRst hr ht, applyReset_rst f x _, released f x us s, step_applyReset_release, ?_⟩
  simp [released, status, errCode, cstateCode]

/-- Settles O55: the Pending entry stays, as a reset only appends to the log; a late answer is one move, whatever is outstanding. -/
theorem resetAbandonsTransaction : Obligations.ResetAbandonsTransaction := by
  refine ⟨fun s f x us t l hr hx hl ht => ?abandons, fun s n r us ht => step_of_turns_cons ht⟩
  case abandons =>
    refine ⟨released f x us s, runSteps_assert_release hr ht, ⟨rfl, rfl, rfl⟩, rfl, rfl, ?_, ?_, rfl, rfl⟩
    · simp [released, hx]
    · simp [released, hl]

/-! ### The state after reset -/

/-- Settles O57: the reset state is settled, its two memories empty and its counters 0. -/
theorem resetMeetsInvariant : Obligations.ResetMeetsInvariant := by
  have hmem : MemoryInv State.reset :=
    ⟨Memory.wf_zero, Memory.within_zero Config.fbBytes, Memory.wf_zero, Memory.within_zero Config.textMax, Nat.zero_le 255⟩
  have hcounters : CountersOk State.reset := ⟨Nat.zero_lt_succ 27, Nat.zero_lt_succ 7, Nat.zero_le 3⟩
  have hsettled : Settled State.reset := ⟨hmem, hcounters, rfl, rfl, rfl, rfl, rfl⟩
  exact inv_of_settled hsettled rfl rfl fun _ => rfl

end Sys2Proof.Machine
end
